-- ==== Sys2Proof/Word.lean ====
section
/-! DEFINITION. The plain data types of the MISRC CVBS sync/frame core: bus words, pixels, samples, positions,
and counters (00_scope.md R12; 20_memory.md R60).

A fractional register is held as its count, an exact and unbounded `Int`: the register's value is the count divided by
2^16 (00_scope.md R10; 10_state.md R48). Only the bus view of it saturates (R45). -/

namespace Sys2Proof

/-- A bus word, and a host command word: 32 bits (20_memory.md R60, 30_encoding.md R90). -/
abbrev Word := BitVec 32

/-- A byte of a buffer; a pixel is one (30_encoding.md R100). -/
abbrev Byte := BitVec 8

/-- A sample, 16-bit two's complement (00_scope.md R12, 30_encoding.md R98). -/
abbrev Sample := BitVec 16

/-- A sample position: unsigned, 64 bits, wrapping (10_state.md R23). -/
abbrev Position := BitVec 64

/-- A 32-bit event counter (10_state.md R26, R30 to R33). -/
abbrev Counter := BitVec 32

end Sys2Proof
end

