-- ==== Sys2Proof/Syntax.lean ====
section
/-! DEFINITION. The instructions: one constructor for each row of spec/opcode_table.json (30_encoding.md R93 for
the seven host commands, R95 for the twenty-one internal operations), and the video formats (R97). Each operand
has the type its rule gives it. -/

namespace Sys2Proof

/-- The video formats (30_encoding.md R97; 48_host_commands.md R259). -/
inductive Format
  | unknown
  | pal
  | ntsc
  | secam
deriving DecidableEq, Repr

/-- One host command or internal operation. -/
inductive Instr
  /-- NOP (48_host_commands.md R253). -/
  | nop
  /-- PROCESS_BUFFER count (40_sample_step.md R120). -/
  | processBuffer (count : BitVec 24)
  /-- SET_FORMAT fmt (48_host_commands.md R250). -/
  | setFormat (fmt : BitVec 2)
  /-- RESET (48_host_commands.md R252). -/
  | reset
  /-- ACK d, e (48_host_commands.md R254). -/
  | ack (d e : Bool)
  /-- DEINTERLACE (48_host_commands.md R255). -/
  | deinterlace
  /-- SET_FIELD_READY r0, r1 (48_host_commands.md R256). -/
  | setFieldReady (r0 r1 : Bool)
  /-- SAMPLE_STEP x (40_sample_step.md R122). -/
  | sampleStep (x : Sample)
  /-- LP_FILTER x (41_filter_edge.md R140). -/
  | lpFilter (x : Sample)
  /-- EDGE_CLASSIFY y (41_filter_edge.md R141). -/
  | edgeClassify (y : Int)
  /-- LEVEL_ACCUMULATE y (42_levels.md R152). -/
  | levelAccumulate (y : Int)
  /-- LEVEL_COMMIT (42_levels.md R151). -/
  | levelCommit
  /-- LEVEL_BOOTSTRAP mn, mx (42_levels.md R150). -/
  | levelBootstrap (mn mx : Sample)
  /-- VSYNC_EDGE fall, p (43_vsync.md R170). -/
  | vsyncEdge (fall : Bool) (p : Position)
  /-- HSYNC_EDGE fall, rise, p (44_hsync.md R180). -/
  | hsyncEdge (fall rise : Bool) (p : Position)
  /-- PLL_EVENT (45_pll.md R190). -/
  | pllEvent
  /-- PHASE_ERROR (45_pll.md R191). -/
  | phaseError
  /-- LOCK_UPDATE (45_pll.md R194). -/
  | lockUpdate
  /-- PLL_CORRECT (45_pll.md R193). -/
  | pllCorrect
  /-- PLL_ADVANCE (45_pll.md R195). -/
  | pllAdvance
  /-- LINE_BOUNDARY (45_pll.md R196). -/
  | lineBoundary
  /-- LINE_APPEND x (46_line_decoder.md R210). -/
  | lineAppend (x : Sample)
  /-- LINE_DECODE (46_line_decoder.md R211). -/
  | lineDecode
  /-- START_NEW_FIELD (47_assembler.md R230). -/
  | startNewField
  /-- DEINTERLACE_CORE (47_assembler.md R232). -/
  | deinterlaceCore
  /-- DISPLAY_COPY (47_assembler.md R235). -/
  | displayCopy
  /-- FORMAT_RESET (48_host_commands.md R251). -/
  | formatReset
  /-- LEVEL_DERIVE (42_levels.md R153). -/
  | levelDerive
deriving DecidableEq, Repr

end Sys2Proof
end

