-- ==== Sys2Proof/WellFormed.lean ====
section
/-! DEFINITION. The instructions that have an encoding. Every field of a host command has the width of its operand
field (30_encoding.md R92), so every host command has one. The operand `y` of EDGE_CLASSIFY and LEVEL_ACCUMULATE
is an exact count without a width (00_scope.md R10); the call record of log entry 4 gives it 64 bits, and the
check says that it fits them. (An `lp_y` always does: 41_filter_edge.md R142 bounds it to 33 bits.) -/

namespace Sys2Proof

/-- A count that a 64-bit two's-complement operand can carry. -/
abbrev fitsSigned64 (y : Int) : Prop := -2 ^ 63 ≤ y ∧ y < 2 ^ 63

/-- The instruction's operands fit their fields. -/
def WellFormed : Instr → Bool
  | .nop => true
  | .processBuffer _ => true
  | .setFormat _ => true
  | .reset => true
  | .ack _ _ => true
  | .deinterlace => true
  | .setFieldReady _ _ => true
  | .sampleStep _ => true
  | .lpFilter _ => true
  | .edgeClassify y => decide (fitsSigned64 y)
  | .levelAccumulate y => decide (fitsSigned64 y)
  | .levelCommit => true
  | .levelBootstrap _ _ => true
  | .vsyncEdge _ _ => true
  | .hsyncEdge _ _ _ => true
  | .pllEvent => true
  | .phaseError => true
  | .lockUpdate => true
  | .pllCorrect => true
  | .pllAdvance => true
  | .lineBoundary => true
  | .lineAppend _ => true
  | .lineDecode => true
  | .startNewField => true
  | .deinterlaceCore => true
  | .displayCopy => true
  | .formatReset => true
  | .levelDerive => true

end Sys2Proof
end

