-- ==== Sys2Proof/Decode.lean ====
section
/-! DEFINITION. Decoding and encoding.

A host command is one 32-bit word (30_encoding.md R90, R91). An internal operation has an identifier in the same
opcode space but no host encoding (R95), and its operands are not encoded at all: the model writes one call of it
as a record of words, the identifier in bits 31:24 of the first and the operands in the words after it
(DESIGN CHOICE, log entry 4). A host's CMD write is decoded by `decodeCommand` alone. -/

namespace Sys2Proof

/-- Why words are no instruction. -/
inductive Reject
  /-- The opcode is none of 0x00 to 0x06: reported as BAD_OPCODE (30_encoding.md R94). Safe: it is the spec's own outcome. -/
  | badOpcode
  /-- A reserved operand bit is set: reported as BAD_OPERAND (30_encoding.md R94). Safe: it is the spec's own outcome. -/
  | badOperand
  /-- There is no word at all. Raised by the call port only (log entry 18); safe. -/
  | noWords
  /-- A call record ends before its operands do. Raised by the call port only (log entry 18); safe. -/
  | truncated
deriving DecidableEq, Repr

/-- `OPC`, bits 31:24 of a command word (30_encoding.md R90). -/
def opcodeOf (w : Word) : BitVec 8 := w.extractLsb' 24 8

/-- `OPD`, bits 23:0 of a command word (30_encoding.md R90). -/
def operandOf (w : Word) : BitVec 24 := w.extractLsb' 0 24

/-- Bits 23:2 of a command word, reserved in SET_FORMAT, ACK and SET_FIELD_READY (30_encoding.md R92). -/
def reservedAboveTwo (w : Word) : BitVec 22 := w.extractLsb' 2 22

/-- Accept `i` where the reserved bits are clear, else reject with BAD_OPERAND (30_encoding.md R91, R94). -/
def whenReservedClear {n : Nat} (reserved : BitVec n) (i : Instr) : Except Reject Instr :=
  if reserved = 0 then .ok i else .error .badOperand

/-- Decode one host command word (30_encoding.md R91, R93, R94). -/
def decodeCommand (w : Word) : Except Reject Instr :=
  match opcodeOf w with
  | 0x00#8 => whenReservedClear (operandOf w) .nop
  | 0x01#8 => .ok (.processBuffer (operandOf w))
  | 0x02#8 => whenReservedClear (reservedAboveTwo w) (.setFormat (w.extractLsb' 0 2))
  | 0x03#8 => whenReservedClear (operandOf w) .reset
  | 0x04#8 => whenReservedClear (reservedAboveTwo w) (.ack (w.getLsbD 0) (w.getLsbD 1))
  | 0x05#8 => whenReservedClear (operandOf w) .deinterlace
  | 0x06#8 => whenReservedClear (reservedAboveTwo w) (.setFieldReady (w.getLsbD 0) (w.getLsbD 1))
  | _ => .error .badOpcode

/-- The opcode is an internal operation's identifier (30_encoding.md R95). -/
def isCallId (opc : BitVec 8) : Bool := decide (0x80 ≤ opc.toNat ∧ opc.toNat ≤ 0x94)

/-- A 16-bit sample operand: the low half of its word. -/
def sampleOperand (w : Word) : Sample := w.extractLsb' 0 16

/-- A 64-bit operand: two words, the low one first. -/
def wideOperand (lo hi : Word) : BitVec 64 := hi ++ lo

/-- A call with one sample operand. -/
def withSample (ops : List Word) (f : Sample → Instr) : Except Reject Instr :=
  match ops with
  | x :: _ => .ok (f (sampleOperand x))
  | [] => .error .truncated

/-- A call with one fractional operand, 64-bit two's complement. -/
def withFixed (ops : List Word) (f : Int → Instr) : Except Reject Instr :=
  match ops with
  | lo :: hi :: _ => .ok (f (wideOperand lo hi).toInt)
  | _ => .error .truncated

/-- A call with a word of flags and a position. -/
def withFlagsAndPosition (ops : List Word) (f : Word → Position → Instr) : Except Reject Instr :=
  match ops with
  | flags :: lo :: hi :: _ => .ok (f flags (wideOperand lo hi))
  | _ => .error .truncated

/-- Decode one internal operation's call record: the identifier `opc` (30_encoding.md R95) and the operand words
`ops` (log entry 4). -/
def decodeCall (opc : BitVec 8) (ops : List Word) : Except Reject Instr :=
  match opc with
  | 0x80#8 => withSample ops .sampleStep
  | 0x81#8 => withSample ops .lpFilter
  | 0x82#8 => withFixed ops .edgeClassify
  | 0x83#8 => withFixed ops .levelAccumulate
  | 0x84#8 => .ok .levelCommit
  | 0x85#8 => match ops with
    | mn :: mx :: _ => .ok (.levelBootstrap (sampleOperand mn) (sampleOperand mx))
    | _ => .error .truncated
  | 0x86#8 => withFlagsAndPosition ops fun flags p => .vsyncEdge (flags.getLsbD 0) p
  | 0x87#8 => withFlagsAndPosition ops fun flags p => .hsyncEdge (flags.getLsbD 0) (flags.getLsbD 1) p
  | 0x88#8 => .ok .pllEvent
  | 0x89#8 => .ok .phaseError
  | 0x8A#8 => .ok .lockUpdate
  | 0x8B#8 => .ok .pllCorrect
  | 0x8C#8 => .ok .pllAdvance
  | 0x8D#8 => .ok .lineBoundary
  | 0x8E#8 => withSample ops .lineAppend
  | 0x8F#8 => .ok .lineDecode
  | 0x90#8 => .ok .startNewField
  | 0x91#8 => .ok .deinterlaceCore
  | 0x92#8 => .ok .displayCopy
  | 0x93#8 => .ok .formatReset
  | 0x94#8 => .ok .levelDerive
  | _ => .error .badOpcode

/-- Decode a list of words: an internal operation's call record, or else a host command word. -/
def decode (ws : List Word) : Except Reject Instr :=
  match ws with
  | [] => .error .noWords
  | w :: ops => if isCallId (opcodeOf w) then decodeCall (opcodeOf w) ops else decodeCommand w

/-- The longest instruction: the call record of VSYNC_EDGE or HSYNC_EDGE, four words. -/
def longestWords : Nat := 4

/-- The words of an instruction whose bits are `w`, bit 0 the least significant bit of the first word; every bit
at or above `nbits` is 0. -/
def wordsOfBits (nbits w : Nat) : List Word :=
  (List.range longestWords).map fun k => BitVec.ofNat 32 ((w % 2 ^ nbits) >>> (32 * k))

/-- The instruction the decoder reads from an instruction whose bits are `w`. -/
def decodeTableWord (nbits w : Nat) : Option Instr :=
  match decode (wordsOfBits nbits w) with
  | .ok i => some i
  | .error _ => none

/-! ## The encoder -/

/-- A first word: the opcode and zero elsewhere. -/
def headWord (opc : BitVec 8) : Word := opc ++ 0#24

/-- A command word with a two-bit operand (30_encoding.md R92). -/
def twoBitCommand (opc : BitVec 8) (operand : BitVec 2) : Word := opc ++ (0#22 ++ operand)

/-- Two one-bit operands, `b1` in bit 1 and `b0` in bit 0. -/
def twoBits (b1 b0 : Bool) : BitVec 2 := BitVec.ofBool b1 ++ BitVec.ofBool b0

/-- A sample operand's word. -/
def sampleWord (x : Sample) : Word := 0#16 ++ x

/-- A 64-bit operand's words, the low one first. -/
def wideWords (v : BitVec 64) : List Word := [v.extractLsb' 0 32, v.extractLsb' 32 32]

/-- A word of two flags. -/
def flagsWord (b1 b0 : Bool) : Word := 0#30 ++ twoBits b1 b0

/-- The words of an instruction: the host commands by 30_encoding.md R93, the internal operations by R95 and the
call record of log entry 4. -/
def encode : Instr → List Word
  | .nop => [headWord 0x00#8]
  | .processBuffer count => [(0x01#8 ++ count : BitVec (8 + 24))]
  | .setFormat fmt => [twoBitCommand 0x02#8 fmt]
  | .reset => [headWord 0x03#8]
  | .ack d e => [twoBitCommand 0x04#8 (twoBits e d)]
  | .deinterlace => [headWord 0x05#8]
  | .setFieldReady r0 r1 => [twoBitCommand 0x06#8 (twoBits r1 r0)]
  | .sampleStep x => [headWord 0x80#8, sampleWord x]
  | .lpFilter x => [headWord 0x81#8, sampleWord x]
  | .edgeClassify y => headWord 0x82#8 :: wideWords (BitVec.ofInt 64 y)
  | .levelAccumulate y => headWord 0x83#8 :: wideWords (BitVec.ofInt 64 y)
  | .levelCommit => [headWord 0x84#8]
  | .levelBootstrap mn mx => [headWord 0x85#8, sampleWord mn, sampleWord mx]
  | .vsyncEdge fall p => headWord 0x86#8 :: flagsWord false fall :: wideWords p
  | .hsyncEdge fall rise p => headWord 0x87#8 :: flagsWord rise fall :: wideWords p
  | .pllEvent => [headWord 0x88#8]
  | .phaseError => [headWord 0x89#8]
  | .lockUpdate => [headWord 0x8A#8]
  | .pllCorrect => [headWord 0x8B#8]
  | .pllAdvance => [headWord 0x8C#8]
  | .lineBoundary => [headWord 0x8D#8]
  | .lineAppend x => [headWord 0x8E#8, sampleWord x]
  | .lineDecode => [headWord 0x8F#8]
  | .startNewField => [headWord 0x90#8]
  | .deinterlaceCore => [headWord 0x91#8]
  | .displayCopy => [headWord 0x92#8]
  | .formatReset => [headWord 0x93#8]
  | .levelDerive => [headWord 0x94#8]

/-! ## The opcode map -/

/-- A row of the opcode map: a first word `w` is the row's when `w &&& mask = pattern` (30_encoding.md R93, R95). -/
structure OpcodeRow where
  /-- The bits the row fixes. -/
  mask : Word
  /-- Their values. -/
  pattern : Word
deriving DecidableEq, Repr

/-- The row of each instruction (30_encoding.md R93 for the host commands, R95 for the internal operations). -/
def opcodeRow : Instr → OpcodeRow
  | .nop => ⟨0xFFFFFFFF#32, 0x00000000#32⟩
  | .processBuffer _ => ⟨0xFF000000#32, 0x01000000#32⟩
  | .setFormat _ => ⟨0xFFFFFFFC#32, 0x02000000#32⟩
  | .reset => ⟨0xFFFFFFFF#32, 0x03000000#32⟩
  | .ack _ _ => ⟨0xFFFFFFFC#32, 0x04000000#32⟩
  | .deinterlace => ⟨0xFFFFFFFF#32, 0x05000000#32⟩
  | .setFieldReady _ _ => ⟨0xFFFFFFFC#32, 0x06000000#32⟩
  | .sampleStep _ => ⟨0xFF000000#32, 0x80000000#32⟩
  | .lpFilter _ => ⟨0xFF000000#32, 0x81000000#32⟩
  | .edgeClassify _ => ⟨0xFF000000#32, 0x82000000#32⟩
  | .levelAccumulate _ => ⟨0xFF000000#32, 0x83000000#32⟩
  | .levelCommit => ⟨0xFF000000#32, 0x84000000#32⟩
  | .levelBootstrap _ _ => ⟨0xFF000000#32, 0x85000000#32⟩
  | .vsyncEdge _ _ => ⟨0xFF000000#32, 0x86000000#32⟩
  | .hsyncEdge _ _ _ => ⟨0xFF000000#32, 0x87000000#32⟩
  | .pllEvent => ⟨0xFF000000#32, 0x88000000#32⟩
  | .phaseError => ⟨0xFF000000#32, 0x89000000#32⟩
  | .lockUpdate => ⟨0xFF000000#32, 0x8A000000#32⟩
  | .pllCorrect => ⟨0xFF000000#32, 0x8B000000#32⟩
  | .pllAdvance => ⟨0xFF000000#32, 0x8C000000#32⟩
  | .lineBoundary => ⟨0xFF000000#32, 0x8D000000#32⟩
  | .lineAppend _ => ⟨0xFF000000#32, 0x8E000000#32⟩
  | .lineDecode => ⟨0xFF000000#32, 0x8F000000#32⟩
  | .startNewField => ⟨0xFF000000#32, 0x90000000#32⟩
  | .deinterlaceCore => ⟨0xFF000000#32, 0x91000000#32⟩
  | .displayCopy => ⟨0xFF000000#32, 0x92000000#32⟩
  | .formatReset => ⟨0xFF000000#32, 0x93000000#32⟩
  | .levelDerive => ⟨0xFF000000#32, 0x94000000#32⟩

/-- A host may issue the instruction by a CMD write (30_encoding.md R93, R95). -/
def Instr.isCommand : Instr → Bool
  | .nop => true
  | .processBuffer _ => true
  | .setFormat _ => true
  | .reset => true
  | .ack _ _ => true
  | .deinterlace => true
  | .setFieldReady _ _ => true
  | .sampleStep _ => false
  | .lpFilter _ => false
  | .edgeClassify _ => false
  | .levelAccumulate _ => false
  | .levelCommit => false
  | .levelBootstrap _ _ => false
  | .vsyncEdge _ _ => false
  | .hsyncEdge _ _ _ => false
  | .pllEvent => false
  | .phaseError => false
  | .lockUpdate => false
  | .pllCorrect => false
  | .pllAdvance => false
  | .lineBoundary => false
  | .lineAppend _ => false
  | .lineDecode => false
  | .startNewField => false
  | .deinterlaceCore => false
  | .displayCopy => false
  | .formatReset => false
  | .levelDerive => false

end Sys2Proof
end

