-- ==== Sys2Proof/Config.lean ====
section
/-! DEFINITION. What this hardware fixes: the constants of 00_scope.md R6, the parameters of R7 at their defaults
(log entry 12), the byte an unlisted buffer address reads as (log entry 1), and the one free value of the model
(log entry 2). -/

namespace Sys2Proof.Config

/-- `ONE` = 2^16, the count that represents 1.0 (00_scope.md R6). -/
@[simp] abbrev one : Int := 65536

/-- `INTEGRAL_LIMIT` = 50 samples, as a count (00_scope.md R6). -/
@[simp] abbrev integralLimit : Int := 50 * 65536

/-- `MIN_RANGE` = 100 raw units (00_scope.md R6). -/
@[simp] abbrev minRange : Int := 100

/-- `LOCK_GOOD` = 10 good events needed to lock (00_scope.md R6). -/
@[simp] abbrev lockGood : Nat := 10

/-- `LOCK_BAD` = 5 bad events needed to unlock (00_scope.md R6). -/
@[simp] abbrev lockBad : Nat := 5

/-- `LOCK_THRESHOLD` = `P` / 20: this is the divisor (00_scope.md R6, R7; parameter, log entry 12). -/
@[simp] abbrev lockDivisor : Int := 20

/-- `ACC_STRIDE` = 16 (00_scope.md R6). -/
@[simp] abbrev accStride : Nat := 16

/-- `HALF_MIN` = 1000 samples, inclusive (00_scope.md R6). -/
@[simp] abbrev halfMin : Nat := 1000

/-- `HALF_MAX` = 1600 samples, inclusive (00_scope.md R6). -/
@[simp] abbrev halfMax : Nat := 1600

/-- `FULL_MIN` = 2200 samples, inclusive (00_scope.md R6). -/
@[simp] abbrev fullMin : Nat := 2200

/-- `FULL_MAX` = 3000 samples, inclusive (00_scope.md R6). -/
@[simp] abbrev fullMax : Nat := 3000

/-- `VSYNC_HALF_COUNT` = 6 half-line intervals enter vsync (00_scope.md R6). -/
@[simp] abbrev vsyncHalfCount : Nat := 6

/-- `HS_MIN` = 100 samples, inclusive (00_scope.md R6). -/
@[simp] abbrev hsMin : Nat := 100

/-- `HS_MAX` = 280 samples, inclusive (00_scope.md R6). -/
@[simp] abbrev hsMax : Nat := 280

/-- `BOX_HALF` = 5, the half width of the box filter (00_scope.md R6). -/
@[simp] abbrev boxHalf : Nat := 5

/-- `MIN_COUNT` = 100 samples, the smallest count that is processed (00_scope.md R6). -/
@[simp] abbrev minCount : Nat := 100

/-- `FRAME_WIDTH` = 720 pixels (00_scope.md R6, R7; parameter, log entry 12). -/
@[simp] abbrev frameWidth : Nat := 720

/-- `CHUNK_CAP` = 65536 samples (00_scope.md R6). -/
@[simp] abbrev chunkCap : Nat := 65536

/-- `LINE_BUF_CAP` = 4096 samples (00_scope.md R6). -/
@[simp] abbrev lineBufCap : Nat := 4096

/-- `FIELD_ROWS_CAP` = 288 rows (00_scope.md R6). -/
@[simp] abbrev fieldRowsCap : Nat := 288

/-- `FRAME_ROWS_CAP` = 576 rows (00_scope.md R6). -/
@[simp] abbrev frameRowsCap : Nat := 576

/-- The identification constant "MSC1" (10_state.md R40). -/
@[simp] abbrev idWord : Word := 0x4D534331#32

/-- What a buffer byte that nothing has written reads as: 0. The pixel buffers are 0 at power-on (10_state.md R36
to R38); for the chunk RAM, whose power-on contents are unspecified (R39), this is a DESIGN CHOICE of
State.reset (log entry 1). -/
@[simp] abbrev unlistedByte : Byte := 0#8

/-- Nine times the nominal line period of the UNKNOWN format, in samples. The spec calls that period undefined
(00_scope.md R8, 93_implementation_defined.md U22), so it is a free value: nothing constrains it (log entry 2). -/
opaque unknownPeriodNinths : Int

end Sys2Proof.Config
end

