-- ==== Sys2Proof/Machine/State.lean ====
section
/-! DEFINITION. The machine's state as plain data: one record for each of the rules 10_state.md R21 to R39, the
bus accesses the host has issued (20_memory.md R80), and three fields of the model's own (log entries 4, 5, 6). -/

namespace Sys2Proof.Machine

/-- Why the machine stops. No condition of the spec stops it (60_exceptions.md R284). -/
inductive Fault
  /-- The call port holds words that are no internal operation's call record. Raised by `step` alone, and only
  when something outside the machine placed such words there (log entry 18). Safe: the machine stops. -/
  | noSuchOperation
deriving DecidableEq, Repr

/-- Why an instruction is refused. -/
inductive Refusal
  /-- The instruction has no meaning yet. Raised by `exec` for an arm that is rejected by name; safe. No arm is. -/
  | notModelled (mnemonic : String)
deriving DecidableEq, Repr

/-- The command result codes (60_exceptions.md R280). Codes 7 to 15 are never written (93_implementation_defined.md
U17), so they have no constructor (log entry 24). -/
inductive Result
  | ok
  | short
  | weak
  | noFormat
  | badOpcode
  | badOperand
  | noField
deriving DecidableEq, Repr

/-- Which of the two fields: `current_field` is one bit (10_state.md R31). -/
inductive FieldId
  | zero
  | one
deriving DecidableEq, Repr

/-- The width of a bus access (20_memory.md R72). -/
inductive Width
  | byte
  | half
  | word
deriving DecidableEq, Repr

/-- A bus access of the host: 21-bit byte addresses (20_memory.md R60). The data of a narrow write stands in the
low bits of `data`; it is never stored (R72). -/
inductive BusAccess
  | read (addr : BitVec 21) (width : Width)
  | write (addr : BitVec 21) (width : Width) (data : Word)
deriving DecidableEq, Repr

/-- The ranges of the address map (20_memory.md R61). -/
inductive Window
  | regs
  | chunk
  | field (b : FieldId)
  | frame
  | display
  | unmapped
deriving DecidableEq, Repr

/-- What EDGE_CLASSIFY returns (41_filter_edge.md R141). -/
structure Edges where
  /-- The filtered value is above the threshold. -/
  above : Bool
  /-- It crossed from above to at or below. -/
  fall : Bool
  /-- It crossed from at or below to above. -/
  rise : Bool
deriving DecidableEq, Repr

/-- What an internal operation that was run by itself gave back to its caller (log entry 5; the model's own). -/
inductive Returned
  | nothing
  | edges (e : Edges)
  | completion (done : Bool)
  | event (valid : Bool)
deriving DecidableEq, Repr

/-- The contents of a buffer: pairs of a bus address and the byte there, in one canonical form (`Memory.wf`). An
address with no pair reads as `Config.unlistedByte`. -/
abbrev Memory := List Host.Cell

/-- The canonical form: addresses strictly rising, no entry equal to what an unlisted address reads as. -/
abbrev Memory.wf (m : Memory) : Prop :=
  m.Pairwise (fun c d => c.1 < d.1) ∧ ∀ c ∈ m, c.2 ≠ Config.unlistedByte

/-- Every listed address lies in `[lo, hi)`. -/
abbrev Memory.within (m : Memory) (lo hi : Nat) : Prop := ∀ c ∈ m, lo ≤ c.1 ∧ c.1 < hi

/-- The lowpass filter and edge tracker (10_state.md R24). -/
structure Filter where
  /-- `lp_y`. -/
  lpY : Int
  /-- `prev_above`. -/
  prevAbove : Bool
deriving DecidableEq, Repr

/-- The horizontal sync detector (10_state.md R25). -/
structure Hsync where
  /-- `in_hsync_pulse`. -/
  inPulse : Bool
  /-- `pulse_start`. -/
  pulseStart : Position
deriving DecidableEq, Repr

/-- The vertical sync detector (10_state.md R26). -/
structure Vsync where
  /-- `half_line_count`, saturating. -/
  halfLineCount : Counter
  /-- `in_vsync`. -/
  inVsync : Bool
  /-- `last_edge_valid`. -/
  lastEdgeValid : Bool
  /-- `last_edge_pos`. -/
  lastEdgePos : Position
deriving DecidableEq, Repr

/-- The committed levels (10_state.md R27). -/
structure Levels where
  /-- `levels_valid`. -/
  valid : Bool
  /-- `sync_tip`. -/
  syncTip : Int
  /-- `white`. -/
  white : Int
  /-- `threshold`. -/
  threshold : Int
  /-- `blanking`. -/
  blanking : Int
  /-- `black`. -/
  black : Int
deriving DecidableEq, Repr

/-- The per-field accumulators (10_state.md R28). -/
structure Accumulators where
  /-- `acc_valid`. -/
  valid : Bool
  /-- `field_min`. -/
  min : Int
  /-- `field_max`. -/
  max : Int
deriving DecidableEq, Repr

/-- The PLL's phase and frequency (10_state.md R29). -/
structure Pll where
  /-- `phase`. -/
  phase : Int
  /-- `phase_integral`. -/
  integral : Int
  /-- `freq_adjust`. -/
  freqAdjust : Int
  /-- `phase_error`. -/
  error : Int
deriving DecidableEq, Repr

/-- The PLL's lock state (10_state.md R30). -/
structure Lock where
  /-- `good_sync_count`, saturating. -/
  good : Counter
  /-- `bad_sync_count`, saturating. -/
  bad : Counter
  /-- `locked`. -/
  locked : Bool
deriving DecidableEq, Repr

/-- The line and field bookkeeping (10_state.md R31). -/
structure Lines where
  /-- `current_line`, saturating. -/
  currentLine : Counter
  /-- `lines_decoded`, saturating. -/
  linesDecoded : Counter
  /-- `current_field`. -/
  currentField : FieldId
deriving DecidableEq, Repr

/-- The assembler's flags (10_state.md R32). -/
structure Assembler where
  /-- `field_ready[0]`. -/
  ready0 : Bool
  /-- `field_ready[1]`. -/
  ready1 : Bool
  /-- `display_ready`. -/
  displayReady : Bool
  /-- `display_gen`, wrapping. -/
  displayGen : Counter
deriving DecidableEq, Repr

/-- The diagnostic counters (10_state.md R33). -/
structure Diagnostics where
  /-- `frames_decoded`, saturating. -/
  framesDecoded : Counter
  /-- `sync_errors`, saturating. -/
  syncErrors : Counter
  /-- `format_changes`, saturating. -/
  formatChanges : Counter
deriving DecidableEq, Repr

/-- The host-interface state (10_state.md R34). -/
structure HostInterface where
  /-- `irq_en`, CTRL bit 0. -/
  irqEn : Bool
  /-- `bus_err`, sticky. -/
  busErr : Bool
  /-- `result`. -/
  result : Result
deriving DecidableEq, Repr

/-- The whole state of the machine. Every field of type `Int` is the count of a fractional register (log entry 9). -/
structure State where
  /-- `format` (10_state.md R21). The geometry is a function of it. -/
  format : Format
  /-- `sample_pos` (10_state.md R23). -/
  samplePos : Position
  /-- 10_state.md R24. -/
  filter : Filter
  /-- 10_state.md R25. -/
  hsync : Hsync
  /-- 10_state.md R26. -/
  vsync : Vsync
  /-- 10_state.md R27. -/
  levels : Levels
  /-- 10_state.md R28. -/
  acc : Accumulators
  /-- 10_state.md R29. -/
  pll : Pll
  /-- 10_state.md R30. -/
  lock : Lock
  /-- 10_state.md R31. -/
  lines : Lines
  /-- 10_state.md R32. -/
  asm : Assembler
  /-- 10_state.md R33. -/
  diag : Diagnostics
  /-- 10_state.md R34. -/
  host : HostInterface
  /-- The line buffer `LB`, oldest sample first; its length is `LB.len` (10_state.md R35, log entry 10). -/
  lineBuf : List Sample
  /-- The field buffer `F[0]` (10_state.md R36). -/
  field0 : Memory
  /-- The field buffer `F[1]` (10_state.md R36). -/
  field1 : Memory
  /-- The frame buffer `FR` (10_state.md R37). -/
  frame : Memory
  /-- The display buffer `DS` (10_state.md R38). -/
  display : Memory
  /-- The chunk RAM `CH` (10_state.md R39). -/
  chunk : Memory
  /-- The host's bus accesses not yet served, oldest first (20_memory.md R80; the model's own, log entry 6). -/
  pending : List BusAccess
  /-- The word the bus returned to the host's last read (20_memory.md R70; the model's own, log entry 6). -/
  readData : Word
  /-- The call record of one internal operation to be run by itself; empty unless something outside the machine
  places one (the model's own, log entry 4). -/
  callPort : List Word
  /-- What the last internal operation run by itself returned (the model's own, log entry 5). -/
  returned : Returned
deriving DecidableEq, Repr

/-- The filter after reset (10_state.md R24). -/
def Filter.powerOn : Filter := { lpY := 0, prevAbove := false }

/-- The hsync detector after reset (10_state.md R25). -/
def Hsync.powerOn : Hsync := { inPulse := false, pulseStart := 0 }

/-- The vsync detector after reset (10_state.md R26). -/
def Vsync.powerOn : Vsync := { halfLineCount := 0, inVsync := false, lastEdgeValid := false, lastEdgePos := 0 }

/-- The levels after reset (10_state.md R27). -/
def Levels.powerOn : Levels :=
  { valid := false, syncTip := 0, white := 0, threshold := 0, blanking := 0, black := 0 }

/-- The accumulators after reset (10_state.md R28). -/
def Accumulators.powerOn : Accumulators := { valid := false, min := 0, max := 0 }

/-- The PLL after reset (10_state.md R29). -/
def Pll.powerOn : Pll := { phase := 0, integral := 0, freqAdjust := 0, error := 0 }

/-- The lock state after reset (10_state.md R30). -/
def Lock.powerOn : Lock := { good := 0, bad := 0, locked := false }

/-- The line bookkeeping after reset (10_state.md R31). -/
def Lines.powerOn : Lines := { currentLine := 0, linesDecoded := 0, currentField := .zero }

/-- The assembler's flags after power-on (10_state.md R32). -/
def Assembler.powerOn : Assembler := { ready0 := false, ready1 := false, displayReady := false, displayGen := 0 }

/-- The diagnostic counters after power-on (10_state.md R33). -/
def Diagnostics.powerOn : Diagnostics := { framesDecoded := 0, syncErrors := 0, formatChanges := 0 }

/-- The host-interface state after power-on (10_state.md R34). -/
def HostInterface.powerOn : HostInterface := { irqEn := false, busErr := false, result := .ok }

/-- The power-on state with chunk RAM contents `ch`, which the spec leaves to the reader as an argument
(70_reset_and_hazards.md R300, 93_implementation_defined.md U1). -/
def State.powerOn (ch : Memory) : State :=
  { format := .unknown
    samplePos := 0
    filter := Filter.powerOn
    hsync := Hsync.powerOn
    vsync := Vsync.powerOn
    levels := Levels.powerOn
    acc := Accumulators.powerOn
    pll := Pll.powerOn
    lock := Lock.powerOn
    lines := Lines.powerOn
    asm := Assembler.powerOn
    diag := Diagnostics.powerOn
    host := HostInterface.powerOn
    lineBuf := []
    field0 := []
    field1 := []
    frame := []
    display := []
    chunk := ch
    pending := []
    readData := 0
    callPort := []
    returned := .nothing }

/-- The machine right after power-on (70_reset_and_hazards.md R300), with nothing listed in any buffer. The chunk
RAM then reads 0 everywhere: DESIGN CHOICE, unsafe (log entry 1). -/
def State.reset : State := State.powerOn []

end Sys2Proof.Machine
end

