-- ==== Sys2Proof/Machine/Geometry.lean ====
section
/-! DEFINITION. The geometry record of each format (00_scope.md R8, R9), a pure function of `format`
(10_state.md R21, log entry 11). -/

namespace Sys2Proof.Machine

/-- One row of the tables of 00_scope.md R8 and R9. The line period `P` is the exact rational
`periodNinths / 9` (45_pll.md: multiplying by 9 makes it an integer for every format). -/
structure Geometry where
  /-- `total_lines`. -/
  totalLines : Nat
  /-- `active_lines`. -/
  activeLines : Nat
  /-- `frame_height`. -/
  frameHeight : Nat
  /-- `field_height`. -/
  fieldHeight : Nat
  /-- Nine times `P`, in samples. -/
  periodNinths : Int
  /-- `ACTIVE_START`. -/
  activeStart : Nat
  /-- `ACTIVE_COUNT`. -/
  activeCount : Nat
  /-- `FIRST_ACTIVE`. -/
  firstActive : Nat
deriving DecidableEq, Repr

/-- The 625-line geometry of PAL, which SECAM shares (00_scope.md R8, R9): `P` = 2560. -/
def geometry625 : Geometry :=
  { totalLines := 625, activeLines := 576, frameHeight := 576, fieldHeight := 288
    periodNinths := 23040, activeStart := 232, activeCount := 2080, firstActive := 17 }

/-- The 525-line geometry of NTSC (00_scope.md R8, R9): `P` = 22880/9. -/
def geometry525 : Geometry :=
  { totalLines := 525, activeLines := 480, frameHeight := 480, fieldHeight := 240
    periodNinths := 22880, activeStart := 188, activeCount := 2106, firstActive := 11 }

/-- The UNKNOWN row (00_scope.md R8): no lines, and `P` undefined, a free value (log entry 2). R9 has no row for it;
with no active line its window is never used (log entry 3). -/
def geometryUnknown : Geometry :=
  { totalLines := 0, activeLines := 0, frameHeight := 0, fieldHeight := 0
    periodNinths := Config.unknownPeriodNinths, activeStart := 0, activeCount := 0, firstActive := 0 }

/-- The geometry row of a format (00_scope.md R8, R9; 10_state.md R21). -/
def geometryOf : Format → Geometry
  | .unknown => geometryUnknown
  | .pal => geometry625
  | .ntsc => geometry525
  | .secam => geometry625

/-- `geom`: the geometry of the configured format (10_state.md R21). -/
def State.geom (s : State) : Geometry := geometryOf s.format

/-- Nine times the count of `P`: `9 · P · ONE`, an integer for every format (45_pll.md, header). -/
def Geometry.period9 (g : Geometry) : Int := g.periodNinths * Config.one

/-- `floor(P × ONE)`, the LINE_PERIOD view of a selected format (10_state.md R45). -/
def Geometry.periodCount (g : Geometry) : Int := g.period9 / 9

end Sys2Proof.Machine
end

