-- ==== Sys2Proof/Machine/Ops.lean ====
section
/-! DEFINITION. The shared operations: reading, writing and filling a buffer, the byte order of the bus, saturating
counters, and reporting a condition. The block has no trap (60_exceptions.md R284): where a processor would take an
exception, it writes a result code (`setResult`) or sets the sticky bus error (`raiseBusErr`), and those two are the
one place where each report is made. There is no trap return (R289). -/

namespace Sys2Proof.Machine

/-! ## Buffers -/

/-- The byte at bus address `a` of a buffer. -/
def Memory.read : Memory → Nat → Byte
  | [], _ => Config.unlistedByte
  | (k, v) :: m, a => if k = a then v else Memory.read m a

/-- The cell for byte `v` at address `a`, put before `m`: none where `v` is what an unlisted address reads as. -/
def Memory.consCell (a : Nat) (v : Byte) (m : Memory) : Memory :=
  if v = Config.unlistedByte then m else (a, v) :: m

/-- Store byte `v` at bus address `a`, keeping the canonical form. -/
def Memory.write : Memory → Nat → Byte → Memory
  | [], a, v => Memory.consCell a v []
  | (k, u) :: m, a, v =>
    if a < k then Memory.consCell a v ((k, u) :: m)
    else if a = k then Memory.consCell a v m
    else (k, u) :: Memory.write m a v

/-- The cells of `len` bytes from `base` on, byte `k` of them being `f k`. -/
def Memory.cells (base len : Nat) (f : Nat → Byte) : Memory :=
  (List.range len).filterMap fun k => if f k = Config.unlistedByte then none else some (base + k, f k)

/-- Replace the `len` bytes from `base` on: byte `k` of them becomes `f k`. -/
def Memory.fill (m : Memory) (base len : Nat) (f : Nat → Byte) : Memory :=
  m.filter (fun c => decide (c.1 < base)) ++ Memory.cells base len f
    ++ m.filter (fun c => decide (base + len ≤ c.1))

/-! ## Byte order (20_memory.md R69: little-endian) -/

/-- The 16-bit value whose low byte is `b0`. -/
def joinHalf (b0 b1 : Byte) : Sample := b1 ++ b0

/-- The bus word whose byte lane `j` is `bj`. -/
def joinWord (b0 b1 b2 b3 : Byte) : Word := (b3 ++ b2 ++ b1 ++ b0 : BitVec (8 + 8 + 8 + 8))

/-- Byte lane `j` of a bus word: bits 8j+7 to 8j. -/
def laneOf (v : Word) (j : Nat) : Byte := v.extractLsb' (8 * j) 8

/-- Store the four lanes of `v` at the addresses from `a` on that `stored` selects. -/
def Memory.writeLanes (m : Memory) (a : Nat) (v : Word) (stored : Nat → Bool) : Memory :=
  (List.range 4).foldl (fun m j => if stored (a + j) then m.write (a + j) (laneOf v j) else m) m

/-! ## Numbers -/

/-- `sat32(n + 1)` on a 32-bit counter (00_scope.md R11, 10_state.md R33). -/
def satSucc (n : Counter) : Counter := if n = BitVec.allOnes 32 then n else n + 1

/-- `clamp(v, lo, hi)` (00_scope.md R11). -/
def clamp (v lo hi : Int) : Int := min (max v lo) hi

/-- A raw sample's count: `x × ONE` (00_scope.md R10, R12). -/
def sampleCount (x : Sample) : Int := x.toInt * Config.one

/-! ## Reporting -/

/-- Write the command result code (60_exceptions.md R280). -/
def setResult (r : Result) (s : State) : State := { s with host := { s.host with result := r } }

/-- Set the sticky bus error (20_memory.md R68, R72, R75). -/
def raiseBusErr (s : State) : State := { s with host := { s.host with busErr := true } }

/-- The other field: `1 − current_field` (47_assembler.md R230). -/
def FieldId.other : FieldId → FieldId
  | .zero => .one
  | .one => .zero

end Sys2Proof.Machine
end

