-- ==== Sys2Proof/Machine/Operands.lean ====
section
/-! DEFINITION. The forms in which the operations name their operands: the address map, the samples of the chunk
RAM, the pixels of the buffers, and the box-filter window over the line buffer (20_memory.md R61 to R67, R69;
46_line_decoder.md R212, R213). -/

namespace Sys2Proof.Machine

/-! ## The address map (20_memory.md R61) -/

/-- The first address of CHUNK. -/
def chunkBase : Nat := 0x010000

/-- `FB_b`, the first address of FIELDb (20_memory.md R65). -/
def fieldBase : FieldId → Nat
  | .zero => 0x040000
  | .one => 0x080000

/-- The first address of FRAME. -/
def frameBase : Nat := 0x100000

/-- The first address of DISPLAY. -/
def displayBase : Nat := 0x180000

/-- Which range of the map an address lies in. -/
def windowOf (a : Nat) : Window :=
  if a < 0x000100 then .regs
  else if a < 0x010000 then .unmapped
  else if a < 0x030000 then .chunk
  else if a < 0x040000 then .unmapped
  else if a < 0x080000 then .field .zero
  else if a < 0x0C0000 then .field .one
  else if a < 0x100000 then .unmapped
  else if a < 0x180000 then .frame
  else if a < 0x200000 then .display
  else .unmapped

/-- The bytes of a field buffer: 288 rows of `W` pixels (10_state.md R36). -/
def fieldBytes : Nat := Config.fieldRowsCap * Config.frameWidth

/-- The bytes of the frame buffer, and of the display buffer: 576 rows of `W` pixels (10_state.md R37, R38). -/
def frameBytes : Nat := Config.frameRowsCap * Config.frameWidth

/-- The bytes of the chunk RAM: two for each sample (10_state.md R39). -/
def chunkBytes : Nat := 2 * Config.chunkCap

/-! ## The buffers -/

/-- The field buffer `F[b]`. -/
def State.fieldMem (s : State) : FieldId → Memory
  | .zero => s.field0
  | .one => s.field1

/-- The state with field buffer `F[b]` replaced. -/
def State.withFieldMem (s : State) (b : FieldId) (m : Memory) : State :=
  match b with
  | .zero => { s with field0 := m }
  | .one => { s with field1 := m }

/-- `field_ready[b]`. -/
def State.fieldReady (s : State) : FieldId → Bool
  | .zero => s.asm.ready0
  | .one => s.asm.ready1

/-- `F[b][r][c]` (20_memory.md R65). -/
def State.fieldPixel (s : State) (b : FieldId) (r c : Nat) : Byte :=
  (s.fieldMem b).read (fieldBase b + r * Config.frameWidth + c)

/-- `FR[r][c]` (20_memory.md R66). -/
def State.framePixel (s : State) (r c : Nat) : Byte := s.frame.read (frameBase + r * Config.frameWidth + c)

/-- `DS[r][c]` (20_memory.md R67). -/
def State.displayPixel (s : State) (r c : Nat) : Byte := s.display.read (displayBase + r * Config.frameWidth + c)

/-- `CH[i]`: two bytes at `0x010000 + 2i`, the low one first (20_memory.md R64, R69). -/
def State.chunkSample (s : State) (i : Nat) : Sample :=
  joinHalf (s.chunk.read (chunkBase + 2 * i)) (s.chunk.read (chunkBase + 2 * i + 1))

/-- `CH[0 … count−1]`, in order (40_sample_step.md R120). -/
def State.chunkSamples (s : State) (count : Nat) : List Sample := (List.range count).map s.chunkSample

/-- The byte the bus shows at address `a` of a buffer window; slack bytes are 0 (20_memory.md R62, R70). Addresses
of REGS and unmapped addresses hold no byte of a buffer. -/
def State.busByte (s : State) (a : Nat) : Byte :=
  match windowOf a with
  | .chunk => s.chunk.read a
  | .field b => if a < fieldBase b + fieldBytes then (s.fieldMem b).read a else 0
  | .frame => if a < frameBase + frameBytes then s.frame.read a else 0
  | .display => if a < displayBase + frameBytes then s.display.read a else 0
  | .regs => 0
  | .unmapped => 0

/-! ## The line decoder's operands -/

/-- `src(c) = AS + floor(c · AC / W)` (46_line_decoder.md R212). -/
def sourceIndex (g : Geometry) (c : Nat) : Nat := g.activeStart + c * g.activeCount / Config.frameWidth

/-- The samples of `LB` at the indices `src − 5 … src + 5` that it holds (46_line_decoder.md R213). -/
def boxWindow (lb : List Sample) (src : Nat) : List Sample :=
  (lb.drop (src - Config.boxHalf)).take (src + Config.boxHalf + 1 - (src - Config.boxHalf))

/-- The exact integer sum of samples (46_line_decoder.md R213). -/
def sumSamples (xs : List Sample) : Int := (xs.map BitVec.toInt).sum

/-- The least raw value of a chunk, 0 for an empty one (40_sample_step.md R120; no rule asks it of an empty one). -/
def minSample (xs : List Sample) : Int :=
  match xs with
  | [] => 0
  | x :: t => t.foldl (fun m y => min m y.toInt) x.toInt

/-- The greatest raw value of a chunk, 0 for an empty one (40_sample_step.md R120). -/
def maxSample (xs : List Sample) : Int :=
  match xs with
  | [] => 0
  | x :: t => t.foldl (fun m y => max m y.toInt) x.toInt

end Sys2Proof.Machine
end

