-- ==== Sys2Proof/Machine/Flags.lean ====
section
/-! DEFINITION. Every flag and view the host can read: the STATUS word, the interrupt level, the format and result
codes, the fractional views, and the register window (10_state.md R40 to R46, 60_exceptions.md R280, R287,
30_encoding.md R97, R99). -/

namespace Sys2Proof.Machine

/-- The format codes (30_encoding.md R97). -/
def formatCode : Format → BitVec 2
  | .unknown => 0
  | .pal => 1
  | .ntsc => 2
  | .secam => 3

/-- The format a code names (30_encoding.md R97). -/
def formatOfCode (c : BitVec 2) : Format :=
  if c = 1 then .pal else if c = 2 then .ntsc else if c = 3 then .secam else .unknown

/-- The result codes (60_exceptions.md R280). -/
def resultCode : Result → BitVec 4
  | .ok => 0
  | .short => 1
  | .weak => 2
  | .noFormat => 3
  | .badOpcode => 4
  | .badOperand => 5
  | .noField => 6

/-- `current_field` as a bit (10_state.md R31). -/
def FieldId.bit : FieldId → Bool
  | .zero => false
  | .one => true

/-- The level of the interrupt output (60_exceptions.md R287). -/
def State.irq (s : State) : Bool := s.asm.displayReady && s.host.irqEn

/-- The STATUS word (10_state.md R42). -/
def State.statusWord (s : State) : Word :=
  (0#16 ++ resultCode s.host.result ++ BitVec.ofBool s.irq ++ BitVec.ofBool s.host.busErr ++ formatCode s.format
    ++ BitVec.ofBool s.hsync.inPulse ++ BitVec.ofBool s.asm.ready1 ++ BitVec.ofBool s.asm.ready0
    ++ BitVec.ofBool s.lines.currentField.bit ++ BitVec.ofBool s.levels.valid ++ BitVec.ofBool s.vsync.inVsync
    ++ BitVec.ofBool s.lock.locked ++ BitVec.ofBool s.asm.displayReady :
    BitVec (16 + 4 + 1 + 1 + 2 + 1 + 1 + 1 + 1 + 1 + 1 + 1 + 1))

/-- A fractional register on the bus: its count saturated to 32 bits, two's complement (30_encoding.md R99). -/
def fixedView (n : Int) : Word := BitVec.ofInt 32 (clamp n (-2 ^ 31) (2 ^ 31 - 1))

/-- The GEOMETRY word: `frame_height` above `W` (10_state.md R44). -/
def State.geometryWord (s : State) : Word := BitVec.ofNat 32 (s.geom.frameHeight * 2 ^ 16 + Config.frameWidth)

/-- The LINE_PERIOD word: `floor(P × ONE)`, 0 in UNKNOWN (10_state.md R45). -/
def State.linePeriodWord (s : State) : Word :=
  match s.format with
  | .unknown => 0
  | .pal => fixedView (geometryOf .pal).periodCount
  | .ntsc => fixedView (geometryOf .ntsc).periodCount
  | .secam => fixedView (geometryOf .secam).periodCount

/-- The register at offset `o` of the register window; reserved offsets read 0 (10_state.md R40 to R46). -/
def State.register (s : State) (o : Nat) : Word :=
  if o = 0x00 then Config.idWord
  else if o = 0x04 then 0
  else if o = 0x08 then s.statusWord
  else if o = 0x0C then (BitVec.ofBool s.host.irqEn).setWidth 32
  else if o = 0x10 then s.diag.framesDecoded
  else if o = 0x14 then s.diag.syncErrors
  else if o = 0x18 then s.diag.formatChanges
  else if o = 0x1C then s.asm.displayGen
  else if o = 0x20 then s.lines.currentLine
  else if o = 0x24 then s.lines.linesDecoded
  else if o = 0x28 then s.lock.good
  else if o = 0x2C then s.lock.bad
  else if o = 0x30 then s.vsync.halfLineCount
  else if o = 0x34 then s.samplePos.extractLsb' 0 32
  else if o = 0x38 then s.samplePos.extractLsb' 32 32
  else if o = 0x3C then s.geometryWord
  else if o = 0x40 then fixedView s.pll.phase
  else if o = 0x44 then fixedView s.pll.freqAdjust
  else if o = 0x48 then fixedView s.pll.integral
  else if o = 0x4C then fixedView s.pll.error
  else if o = 0x50 then fixedView s.filter.lpY
  else if o = 0x54 then fixedView s.levels.syncTip
  else if o = 0x58 then fixedView s.levels.white
  else if o = 0x5C then fixedView s.levels.threshold
  else if o = 0x60 then fixedView s.levels.blanking
  else if o = 0x64 then fixedView s.levels.black
  else if o = 0x68 then fixedView s.acc.min
  else if o = 0x6C then fixedView s.acc.max
  else if o = 0x70 then s.vsync.lastEdgePos.extractLsb' 0 32
  else if o = 0x74 then BitVec.ofNat 32 s.lineBuf.length
  else if o = 0x78 then s.hsync.pulseStart.extractLsb' 0 32
  else if o = 0x7C then s.linePeriodWord
  else 0

end Sys2Proof.Machine
end

