-- ==== Sys2Proof/Machine/Levels.lean ====
section
/-! DEFINITION. The adaptive level estimator (42_levels.md R150 to R153). -/

namespace Sys2Proof.Machine

/-- `LEVEL_DERIVE` on the level record (42_levels.md R153): the range is that of the committed levels, at least
`MIN_RANGE`. -/
def deriveLevels (l : Levels) : Levels :=
  let rc := max (l.white - l.syncTip) (Config.minRange * Config.one)
  { l with
    threshold := l.syncTip + rc / 4
    blanking := l.syncTip + 7 * rc / 25
    black := l.syncTip + 8 * rc / 25 }

/-- `LEVEL_DERIVE` (42_levels.md R153). -/
def levelDerive (s : State) : State := { s with levels := deriveLevels s.levels }

/-- `LEVEL_BOOTSTRAP mn, mx` (42_levels.md R150), on raw extremes. -/
def levelBootstrap (mn mx : Int) (s : State) : State :=
  { s with
    levels := { deriveLevels { s.levels with syncTip := mn * Config.one, white := mx * Config.one } with valid := true }
    acc := { s.acc with valid := false } }

/-- One step of the moving average, in counts: `floor((new + 9·old) / 10)` (42_levels.md R151). -/
def emaCount (new old : Int) : Int := (new + 9 * old) / 10

/-- The levels before derivation in a commit with accumulated samples (42_levels.md R151): the first commit
initialises directly, a later one blends. -/
def blendLevels (a : Accumulators) (l : Levels) : Levels :=
  if l.valid then { l with syncTip := emaCount a.min l.syncTip, white := emaCount a.max l.white }
  else { l with syncTip := a.min, white := a.max, valid := true }

/-- `LEVEL_COMMIT` (42_levels.md R151). -/
def levelCommit (s : State) : State :=
  { s with
    levels := if s.acc.valid then deriveLevels (blendLevels s.acc s.levels) else s.levels
    acc := { s.acc with valid := false } }

/-- `LEVEL_ACCUMULATE y` (42_levels.md R152). -/
def levelAccumulate (y : Int) (s : State) : State :=
  { s with
    acc := if s.acc.valid then { s.acc with min := min s.acc.min y, max := max s.acc.max y }
           else { valid := true, min := y, max := y } }

/-- LEVEL_DERIVE as an instruction. -/
def execLevelDerive (s : State) : Host.Outcome State Fault Refusal := .next (levelDerive s)

/-- LEVEL_BOOTSTRAP as an instruction, on two raw samples. -/
def execLevelBootstrap (mn mx : Sample) (s : State) : Host.Outcome State Fault Refusal :=
  .next (levelBootstrap mn.toInt mx.toInt s)

/-- LEVEL_COMMIT as an instruction. -/
def execLevelCommit (s : State) : Host.Outcome State Fault Refusal := .next (levelCommit s)

/-- LEVEL_ACCUMULATE as an instruction. -/
def execLevelAccumulate (y : Int) (s : State) : Host.Outcome State Fault Refusal := .next (levelAccumulate y s)

end Sys2Proof.Machine
end

