-- ==== Sys2Proof/Machine/Assembler.lean ====
section
/-! DEFINITION. The field/frame assembler and deinterlacer (47_assembler.md R230 to R239). A frame is given by its
byte at each offset: offset `k` is row `k / W`, column `k % W`. -/

namespace Sys2Proof.Machine

/-- `floor((a + b) / 2)` of two pixels (47_assembler.md R233). -/
def averagePixel (a b : Byte) : Byte := BitVec.ofNat 8 ((a.toNat + b.toNat) / 2)

/-- Weave: even rows from field 0, odd rows from field 1 (47_assembler.md R232). -/
def State.weavePixel (s : State) (row col : Nat) : Byte :=
  s.fieldPixel (if row % 2 = 0 then .zero else .one) (row / 2) col

/-- `BOB_FROM_0` with field height `h`: odd rows average their neighbours, the last row repeats
(47_assembler.md R233). -/
def State.bobZeroPixel (s : State) (h row col : Nat) : Byte :=
  let i := row / 2
  if row % 2 = 0 then s.fieldPixel .zero i col
  else if i + 1 < h then averagePixel (s.fieldPixel .zero i col) (s.fieldPixel .zero (i + 1) col)
  else s.fieldPixel .zero i col

/-- `BOB_FROM_1`: even rows average their neighbours, row 0 repeats field 1's first row (47_assembler.md R234). -/
def State.bobOnePixel (s : State) (row col : Nat) : Byte :=
  let i := row / 2
  if row % 2 = 1 then s.fieldPixel .one i col
  else if 0 < i then averagePixel (s.fieldPixel .one (i - 1) col) (s.fieldPixel .one i col)
  else s.fieldPixel .one 0 col

/-- Write rows `0 … 2·H − 1` of `FR` (47_assembler.md R232). -/
def State.withFrameRows (s : State) (f : Nat → Nat → Byte) : State :=
  { s with
    frame := s.frame.fill frameBase (2 * s.geom.fieldHeight * Config.frameWidth)
      fun k => f (k / Config.frameWidth) (k % Config.frameWidth) }

/-- `DEINTERLACE_CORE`: weave, or bob from the one ready field; with neither ready `FR` is unchanged
(47_assembler.md R232 to R234). -/
def deinterlaceCore (s : State) : State :=
  if s.asm.ready0 && s.asm.ready1 then s.withFrameRows s.weavePixel
  else if s.asm.ready0 then s.withFrameRows (s.bobZeroPixel s.geom.fieldHeight)
  else if s.asm.ready1 then s.withFrameRows s.bobOnePixel
  else s

/-- `DISPLAY_COPY`: rows `0 … FH − 1` of `FR` into `DS` (47_assembler.md R235). -/
def displayCopy (s : State) : State :=
  { s with
    display := s.display.fill displayBase (s.geom.frameHeight * Config.frameWidth)
      fun k => s.frame.read (frameBase + k)
    asm := { s.asm with displayReady := true, displayGen := s.asm.displayGen + 1 } }

/-- `field_ready[b] <- true` (47_assembler.md R230). -/
def markReady (b : FieldId) (s : State) : State :=
  match b with
  | .zero => { s with asm := { s.asm with ready0 := true } }
  | .one => { s with asm := { s.asm with ready1 := true } }

/-- The finished field reached at least half of its expected lines: `2·lines_decoded ≥ H`
(47_assembler.md R230, R231). -/
def State.fieldAccepted (s : State) : Bool :=
  decide (s.geom.fieldHeight ≤ 2 * s.lines.linesDecoded.toNat)

/-- `frames_decoded` counts an accepted field after which both flags are set (47_assembler.md R236). -/
def countFrame (s : State) : State :=
  if s.asm.ready0 && s.asm.ready1 then
    { s with diag := { s.diag with framesDecoded := satSucc s.diag.framesDecoded } }
  else s

/-- The assembly of an accepted field (47_assembler.md R230). -/
def assembleField (s : State) : State :=
  countFrame (displayCopy (deinterlaceCore (markReady s.lines.currentField s)))

/-- `START_NEW_FIELD` (47_assembler.md R230). -/
def startNewField (s : State) : State :=
  let t := levelCommit (if s.fieldAccepted then assembleField s else s)
  { t with lines := { currentLine := 0, linesDecoded := 0, currentField := t.lines.currentField.other } }

/-- START_NEW_FIELD as an instruction. -/
def execStartNewField (s : State) : Host.Outcome State Fault Refusal := .next (startNewField s)

/-- DEINTERLACE_CORE as an instruction. -/
def execDeinterlaceCore (s : State) : Host.Outcome State Fault Refusal := .next (deinterlaceCore s)

/-- DISPLAY_COPY as an instruction. -/
def execDisplayCopy (s : State) : Host.Outcome State Fault Refusal := .next (displayCopy s)

end Sys2Proof.Machine
end

