-- ==== Sys2Proof/Machine/Filter.lean ====
section
/-! DEFINITION. The lowpass filter and the edge tracker (41_filter_edge.md R140, R141). -/

namespace Sys2Proof.Machine

/-- `floor((2·x·ONE + 23·Y) / 25)`: the filter's next count (41_filter_edge.md R140). -/
def lowpassCount (x : Sample) (y : Int) : Int := (2 * sampleCount x + 23 * y) / 25

/-- `LP_FILTER x` (41_filter_edge.md R140). -/
def lpFilter (x : Sample) (s : State) : State :=
  { s with filter := { s.filter with lpY := lowpassCount x s.filter.lpY } }

/-- `EDGE_CLASSIFY y`: at the threshold is below it (41_filter_edge.md R141). -/
def edgeClassify (y : Int) (s : State) : Edges :=
  let above := decide (s.levels.threshold < y)
  { above := above
    fall := s.filter.prevAbove && !above
    rise := !s.filter.prevAbove && above }

/-- LP_FILTER as an instruction. -/
def execLpFilter (x : Sample) (s : State) : Host.Outcome State Fault Refusal := .next (lpFilter x s)

/-- EDGE_CLASSIFY as an instruction: it writes no state of the spec, and its caller is given the edges
(log entry 5). -/
def execEdgeClassify (y : Int) (s : State) : Host.Outcome State Fault Refusal :=
  .next { s with returned := .edges (edgeClassify y s) }

end Sys2Proof.Machine
end

