-- ==== Sys2Proof/Machine/Hsync.lean ====
section
/-! DEFINITION. The horizontal sync detector (44_hsync.md R180 to R182). -/

namespace Sys2Proof.Machine

/-- A pulse width that is accepted, ends included (44_hsync.md R180). -/
def isHsyncWidth (w : Position) : Bool := decide (Config.hsMin ≤ w.toNat ∧ w.toNat ≤ Config.hsMax)

/-- `HSYNC_EDGE fall, rise, p`: whether this is a valid event, and the state (44_hsync.md R180). -/
def hsyncEdge (fall rise : Bool) (p : Position) (s : State) : Bool × State :=
  if fall then (false, { s with hsync := { inPulse := true, pulseStart := p } })
  else if rise && s.hsync.inPulse then
    (isHsyncWidth (p - s.hsync.pulseStart), { s with hsync := { s.hsync with inPulse := false } })
  else (false, s)

/-- HSYNC_EDGE as an instruction: its caller is given the verdict (log entry 5). -/
def execHsyncEdge (fall rise : Bool) (p : Position) (s : State) : Host.Outcome State Fault Refusal :=
  .next { (hsyncEdge fall rise p s).2 with returned := .event (hsyncEdge fall rise p s).1 }

end Sys2Proof.Machine
end

