-- ==== Sys2Proof/Machine/LineDecoder.lean ====
section
/-! DEFINITION. The line buffer and the line decoder (46_line_decoder.md R210 to R216). -/

namespace Sys2Proof.Machine

/-- `LINE_APPEND x`: a sample that finds the buffer full is dropped from it (46_line_decoder.md R210). -/
def lineAppend (x : Sample) (s : State) : State :=
  if s.lineBuf.length < Config.lineBufCap then { s with lineBuf := s.lineBuf ++ [x] } else s

/-- The normalised luma of a window of samples (46_line_decoder.md R214): 0 where it is empty or there is no usable
scale, else the floor of the mean's place between black and white on 0 … 255, clamped. -/
def lumaOf (window : List Sample) (black white : Int) : Byte :=
  if window.length = 0 ∨ white ≤ black then 0
  else
    BitVec.ofInt 8 (clamp (((sumSamples window * Config.one - window.length * black) * 255)
      / (window.length * (white - black))) 0 255)

/-- `PIXEL(c)` of the line in `LB` (46_line_decoder.md R214). -/
def State.linePixel (s : State) (c : Nat) : Byte :=
  lumaOf (boxWindow s.lineBuf (sourceIndex s.geom c)) s.levels.black s.levels.white

/-- A line of the field is active: `FA ≤ L < FA + fh` (46_line_decoder.md R211). -/
def Geometry.isActiveLine (g : Geometry) (l : Nat) : Bool :=
  decide (g.firstActive ≤ l ∧ l < g.firstActive + g.fieldHeight)

/-- The field-buffer row of the current line is written with the line's pixels (46_line_decoder.md R211). -/
def writeLineRow (s : State) : State :=
  let b := s.lines.currentField
  let row := s.lines.currentLine.toNat - s.geom.firstActive
  s.withFieldMem b
    ((s.fieldMem b).fill (fieldBase b + row * Config.frameWidth) Config.frameWidth s.linePixel)

/-- `LINE_DECODE` (46_line_decoder.md R211, R216). -/
def lineDecode (s : State) : State :=
  if s.geom.isActiveLine s.lines.currentLine.toNat then
    { writeLineRow s with
      lines := { s.lines with linesDecoded := satSucc s.lines.linesDecoded }
      lineBuf := [] }
  else { s with lineBuf := [] }

/-- LINE_APPEND as an instruction. -/
def execLineAppend (x : Sample) (s : State) : Host.Outcome State Fault Refusal := .next (lineAppend x s)

/-- LINE_DECODE as an instruction. -/
def execLineDecode (s : State) : Host.Outcome State Fault Refusal := .next (lineDecode s)

end Sys2Proof.Machine
end

