-- ==== Sys2Proof/Machine/Pll.lean ====
section
/-! DEFINITION. The software PLL with its PI corrector (45_pll.md R190 to R199). Every comparison with `P` is made
exactly, on nine times the counts (`Geometry.period9`). -/

namespace Sys2Proof.Machine

/-- The least `k ≥ 0` with `e − k·p ≤ p/2`, from the doubled values `e2 = 2e`, for `p > 0` and `e2 > p`:
`ceil((e2 − p) / 2p)`. -/
def wrapSteps (e2 p : Int) : Int := -((p - e2) / (2 * p))

/-- `PHASE_ERROR`'s wrap into `[−p/2, p/2]` by repeated addition or subtraction of `p`, both ends kept
(45_pll.md R191), in closed form (log entry 16). -/
def wrapPhase (e p : Int) : Int :=
  if p < 2 * e then e - wrapSteps (2 * e) p * p
  else if 2 * e < -p then e + wrapSteps (-(2 * e)) p * p
  else e

/-- `PHASE_ERROR`: the phase wrapped with the nominal period, floored to a count (45_pll.md R191). -/
def phaseError (s : State) : State :=
  { s with pll := { s.pll with error := wrapPhase (9 * s.pll.phase) s.geom.period9 / 9 } }

/-- `|phase_error| < P/20`, strict and exact (45_pll.md R194). -/
def State.isGoodEvent (s : State) : Bool :=
  decide (Config.lockDivisor * (9 * (s.pll.error.natAbs : Int)) < s.geom.period9)

/-- `|phase_error| > 0.4·P`, strict and exact (45_pll.md R192). -/
def State.isSpuriousEvent (s : State) : Bool := decide (2 * s.geom.period9 < 5 * (9 * (s.pll.error.natAbs : Int)))

/-- `LOCK_UPDATE` (45_pll.md R194). -/
def lockUpdate (s : State) : State :=
  { s with
    lock :=
      if s.isGoodEvent then
        let good := satSucc s.lock.good
        { good := good, bad := 0, locked := s.lock.locked || decide (Config.lockGood ≤ good.toNat) }
      else
        let bad := satSucc s.lock.bad
        { good := 0, bad := bad, locked := s.lock.locked && !decide (Config.lockBad ≤ bad.toNat) } }

/-- `clamp(floor((200·I + E) / 200), −50·ONE, 50·ONE)` (45_pll.md R193). -/
def integralCount (integral error : Int) : Int :=
  clamp ((200 * integral + error) / 200) (-Config.integralLimit) Config.integralLimit

/-- `PLL_CORRECT` (45_pll.md R193): `KP` = 3/20 on the phase, `KI` = 1/200 on the integral. -/
def pllCorrect (s : State) : State :=
  let integral := integralCount s.pll.integral s.pll.error
  { s with
    pll := { s.pll with phase := (20 * s.pll.phase - 3 * s.pll.error) / 20, integral := integral, freqAdjust := integral } }

/-- `PLL_EVENT` (45_pll.md R190, R192): a spurious event updates the lock and corrects nothing. -/
def pllEvent (s : State) : State :=
  let t := lockUpdate (phaseError s)
  if t.isSpuriousEvent then t else pllCorrect t

/-- Nine times the count of the effective period `P + freq_adjust` (45_pll.md R195). -/
def State.effectivePeriod9 (s : State) : Int := s.geom.period9 + 9 * s.pll.freqAdjust

/-- `LINE_BOUNDARY` (45_pll.md R196): the line is decoded before `current_line` advances. -/
def lineBoundary (s : State) : State :=
  let t := lineDecode s
  { t with
    lines := { t.lines with currentLine := satSucc t.lines.currentLine }
    pll := { t.pll with phase := (9 * t.pll.phase - t.effectivePeriod9) / 9 } }

/-- `PLL_ADVANCE` (45_pll.md R195): at most one boundary. -/
def pllAdvance (s : State) : State :=
  let t : State := { s with pll := { s.pll with phase := s.pll.phase + Config.one } }
  if t.effectivePeriod9 ≤ 9 * t.pll.phase then lineBoundary t else t

/-- PLL_EVENT as an instruction. -/
def execPllEvent (s : State) : Host.Outcome State Fault Refusal := .next (pllEvent s)

/-- PHASE_ERROR as an instruction. -/
def execPhaseError (s : State) : Host.Outcome State Fault Refusal := .next (phaseError s)

/-- LOCK_UPDATE as an instruction. -/
def execLockUpdate (s : State) : Host.Outcome State Fault Refusal := .next (lockUpdate s)

/-- PLL_CORRECT as an instruction. -/
def execPllCorrect (s : State) : Host.Outcome State Fault Refusal := .next (pllCorrect s)

/-- PLL_ADVANCE as an instruction. -/
def execPllAdvance (s : State) : Host.Outcome State Fault Refusal := .next (pllAdvance s)

/-- LINE_BOUNDARY as an instruction. -/
def execLineBoundary (s : State) : Host.Outcome State Fault Refusal := .next (lineBoundary s)

end Sys2Proof.Machine
end

