-- ==== Sys2Proof/Machine/Vsync.lean ====
section
/-! DEFINITION. The vertical sync detector (43_vsync.md R170 to R173). -/

namespace Sys2Proof.Machine

/-- An interval in the half-line window, ends included (43_vsync.md R170). -/
def isHalfLine (d : Position) : Bool := decide (Config.halfMin ≤ d.toNat ∧ d.toNat ≤ Config.halfMax)

/-- An interval in the full-line window, ends included (43_vsync.md R170). -/
def isFullLine (d : Position) : Bool := decide (Config.fullMin ≤ d.toNat ∧ d.toNat ≤ Config.fullMax)

/-- What the interval `d` between two falling edges does to the detector, its edge memory apart; and whether it
completes a vsync (43_vsync.md R170). -/
def classifyInterval (d : Position) (v : Vsync) : Bool × Vsync :=
  if isHalfLine d then
    let count := satSucc v.halfLineCount
    (false, { v with halfLineCount := count
                     inVsync := v.inVsync || decide (Config.vsyncHalfCount ≤ count.toNat) })
  else if v.inVsync && isFullLine d then
    (true, { v with inVsync := false, halfLineCount := 0 })
  else
    (false, { v with halfLineCount := 0 })

/-- The detector on a falling edge at `p` (43_vsync.md R170): the first edge after a reset only records its
position (R172). -/
def vsyncFall (p : Position) (v : Vsync) : Bool × Vsync :=
  let r := if v.lastEdgeValid then classifyInterval (p - v.lastEdgePos) v else (false, v)
  (r.1, { r.2 with lastEdgePos := p, lastEdgeValid := true })

/-- `VSYNC_EDGE fall, p`: the completion reported to the caller, and the state (43_vsync.md R170). -/
def vsyncEdge (fall : Bool) (p : Position) (s : State) : Bool × State :=
  if fall then ((vsyncFall p s.vsync).1, { s with vsync := (vsyncFall p s.vsync).2 }) else (false, s)

/-- VSYNC_EDGE as an instruction: its caller is given `done` (log entry 5). -/
def execVsyncEdge (fall : Bool) (p : Position) (s : State) : Host.Outcome State Fault Refusal :=
  .next { (vsyncEdge fall p s).2 with returned := .completion (vsyncEdge fall p s).1 }

end Sys2Proof.Machine
end

