-- ==== Sys2Proof/Machine/SampleStep.lean ====
section
/-! DEFINITION. One raw sample through all the units (40_sample_step.md R122). -/

namespace Sys2Proof.Machine

/-- Steps 1 and 2 of `SAMPLE_STEP`: filter, and accumulate every sixteenth position (40_sample_step.md R122). -/
def filterAndAccumulate (x : Sample) (s : State) : State :=
  let t := lpFilter x s
  if s.samplePos.toNat % Config.accStride = 0 then levelAccumulate t.filter.lpY t else t

/-- Steps 7 and 8 of `SAMPLE_STEP`: append the raw sample, advance the PLL (40_sample_step.md R122). -/
def appendAndAdvance (x : Sample) (s : State) : State := pllAdvance (lineAppend x s)

/-- `SAMPLE_STEP x`: the ten steps in order, each seeing the writes of those before it (40_sample_step.md R122). -/
def sampleStep (x : Sample) (s : State) : State :=
  let p := s.samplePos
  let s2 := filterAndAccumulate x s
  let e := edgeClassify s2.filter.lpY s2
  let v := vsyncEdge e.fall p s2
  let h := hsyncEdge e.fall e.rise p v.2
  let s6 := if h.1 then pllEvent h.2 else h.2
  let s8 := appendAndAdvance x s6
  let s9 := if v.1 then startNewField s8 else s8
  { s9 with
    filter := { s9.filter with prevAbove := e.above }
    samplePos := p + 1 }

/-- `SAMPLE_STEP` for each sample of a list in order: the loop of `PROCESS_BUFFER` (40_sample_step.md R120). -/
def sampleSteps (xs : List Sample) (s : State) : State := xs.foldl (fun t x => sampleStep x t) s

/-- SAMPLE_STEP as an instruction. -/
def execSampleStep (x : Sample) (s : State) : Host.Outcome State Fault Refusal := .next (sampleStep x s)

end Sys2Proof.Machine
end

