-- ==== Sys2Proof/Machine/HostCommands.lean ====
section
/-! DEFINITION. The host commands and the format state machine (40_sample_step.md R120, R123 to R125;
48_host_commands.md R250 to R256). -/

namespace Sys2Proof.Machine

/-- `NOP` (48_host_commands.md R253). -/
def execNop (s : State) : Host.Outcome State Fault Refusal := .next (setResult .ok s)

/-- Count a rejected weak call (40_sample_step.md R124, 60_exceptions.md R282). -/
def countSyncError (s : State) : State :=
  { s with diag := { s.diag with syncErrors := satSucc s.diag.syncErrors } }

/-- The levels of the first processed chunk come from its raw extremes (40_sample_step.md R120). -/
def bootstrapOnce (xs : List Sample) (s : State) : State :=
  if s.levels.valid then s else levelBootstrap (minSample xs) (maxSample xs) s

/-- `PROCESS_BUFFER` on the samples of the call, once the word and the format are accepted and the count is large
enough (40_sample_step.md R120). -/
def processSamples (xs : List Sample) (s : State) : State :=
  if maxSample xs - minSample xs < Config.minRange then setResult .weak (countSyncError s)
  else setResult .ok (sampleSteps xs (bootstrapOnce xs s))

/-- `PROCESS_BUFFER count`, its checks in order (40_sample_step.md R120, 60_exceptions.md R288). -/
def processBuffer (count : Nat) (s : State) : State :=
  if Config.chunkCap < count then setResult .badOperand s
  else if s.format = .unknown then setResult .noFormat s
  else if count < Config.minCount then setResult .short s
  else processSamples (s.chunkSamples count) s

/-- PROCESS_BUFFER as an instruction. -/
def execProcessBuffer (count : BitVec 24) (s : State) : Host.Outcome State Fault Refusal :=
  .next (processBuffer count.toNat s)

/-- `FORMAT_RESET`: every register and buffer takes its "after SET_FORMAT" value (48_host_commands.md R251). -/
def formatReset (s : State) : State :=
  { s with
    samplePos := 0
    filter := Filter.powerOn
    hsync := Hsync.powerOn
    vsync := Vsync.powerOn
    levels := Levels.powerOn
    acc := Accumulators.powerOn
    pll := Pll.powerOn
    lock := Lock.powerOn
    lines := Lines.powerOn
    asm := { s.asm with ready0 := false, ready1 := false, displayReady := false }
    lineBuf := []
    field0 := []
    field1 := []
    frame := []
    display := [] }

/-- FORMAT_RESET as an instruction. -/
def execFormatReset (s : State) : Host.Outcome State Fault Refusal := .next (formatReset s)

/-- Select format `f`, counting a change (48_host_commands.md R250, R259). -/
def selectFormat (f : Format) (s : State) : State :=
  { s with
    format := f
    diag := if f = s.format then s.diag else { s.diag with formatChanges := satSucc s.diag.formatChanges } }

/-- `SET_FORMAT fmt` (48_host_commands.md R250). -/
def setFormat (fmt : BitVec 2) (s : State) : State :=
  if fmt = 0 then setResult .badOperand s
  else setResult .ok (formatReset (selectFormat (formatOfCode fmt) s))

/-- SET_FORMAT as an instruction. -/
def execSetFormat (fmt : BitVec 2) (s : State) : Host.Outcome State Fault Refusal := .next (setFormat fmt s)

/-- `RESET`: the power-on state, the chunk RAM kept (48_host_commands.md R252, 70_reset_and_hazards.md R301). The
host's accesses still to come, and what it was told, are the host's and stay (log entry 14). -/
def resetBlock (s : State) : State :=
  { State.powerOn s.chunk with
    pending := s.pending
    readData := s.readData
    callPort := s.callPort
    returned := s.returned }

/-- RESET as an instruction. -/
def execReset (s : State) : Host.Outcome State Fault Refusal := .next (setResult .ok (resetBlock s))

/-- `ACK d, e` (48_host_commands.md R254). -/
def ackFlags (d e : Bool) (s : State) : State :=
  { s with
    asm := { s.asm with displayReady := s.asm.displayReady && !d }
    host := { s.host with busErr := s.host.busErr && !e } }

/-- ACK as an instruction. -/
def execAck (d e : Bool) (s : State) : Host.Outcome State Fault Refusal := .next (setResult .ok (ackFlags d e s))

/-- `DEINTERLACE` (48_host_commands.md R255). -/
def deinterlace (s : State) : State :=
  if s.format = .unknown then setResult .noFormat s
  else if !s.asm.ready0 && !s.asm.ready1 then setResult .noField s
  else setResult .ok (displayCopy (deinterlaceCore s))

/-- DEINTERLACE as an instruction. -/
def execDeinterlace (s : State) : Host.Outcome State Fault Refusal := .next (deinterlace s)

/-- `SET_FIELD_READY r0, r1` (48_host_commands.md R256). -/
def setFieldReady (r0 r1 : Bool) (s : State) : State := { s with asm := { s.asm with ready0 := r0, ready1 := r1 } }

/-- SET_FIELD_READY as an instruction. -/
def execSetFieldReady (r0 r1 : Bool) (s : State) : Host.Outcome State Fault Refusal :=
  .next (setResult .ok (setFieldReady r0 r1 s))

end Sys2Proof.Machine
end

