-- ==== Sys2Proof/Machine/Dispatch.lean ====
section
/-! DEFINITION. One arm for each instruction: the seven host commands (30_encoding.md R93), then the twenty-one
internal operations (R95). -/

namespace Sys2Proof.Machine

def exec (i : Instr) (s : State) : Host.Outcome State Fault Refusal :=
  match i with
  | .nop => Sys2Proof.Machine.execNop s
  | .processBuffer count => Sys2Proof.Machine.execProcessBuffer count s
  | .setFormat fmt => Sys2Proof.Machine.execSetFormat fmt s
  | .reset => Sys2Proof.Machine.execReset s
  | .ack d e => Sys2Proof.Machine.execAck d e s
  | .deinterlace => Sys2Proof.Machine.execDeinterlace s
  | .setFieldReady r0 r1 => Sys2Proof.Machine.execSetFieldReady r0 r1 s
  | .sampleStep x => Sys2Proof.Machine.execSampleStep x s
  | .lpFilter x => Sys2Proof.Machine.execLpFilter x s
  | .edgeClassify y => Sys2Proof.Machine.execEdgeClassify y s
  | .levelAccumulate y => Sys2Proof.Machine.execLevelAccumulate y s
  | .levelCommit => Sys2Proof.Machine.execLevelCommit s
  | .levelBootstrap mn mx => Sys2Proof.Machine.execLevelBootstrap mn mx s
  | .vsyncEdge fall p => Sys2Proof.Machine.execVsyncEdge fall p s
  | .hsyncEdge fall rise p => Sys2Proof.Machine.execHsyncEdge fall rise p s
  | .pllEvent => Sys2Proof.Machine.execPllEvent s
  | .phaseError => Sys2Proof.Machine.execPhaseError s
  | .lockUpdate => Sys2Proof.Machine.execLockUpdate s
  | .pllCorrect => Sys2Proof.Machine.execPllCorrect s
  | .pllAdvance => Sys2Proof.Machine.execPllAdvance s
  | .lineBoundary => Sys2Proof.Machine.execLineBoundary s
  | .lineAppend x => Sys2Proof.Machine.execLineAppend x s
  | .lineDecode => Sys2Proof.Machine.execLineDecode s
  | .startNewField => Sys2Proof.Machine.execStartNewField s
  | .deinterlaceCore => Sys2Proof.Machine.execDeinterlaceCore s
  | .displayCopy => Sys2Proof.Machine.execDisplayCopy s
  | .formatReset => Sys2Proof.Machine.execFormatReset s
  | .levelDerive => Sys2Proof.Machine.execLevelDerive s

end Sys2Proof.Machine
end

