-- ==== Sys2Proof/Machine/Bus.lean ====
section
/-! DEFINITION. The host bus: reads, writes, and the CMD write that executes a command (20_memory.md R60 to R75,
30_encoding.md R91). -/

namespace Sys2Proof.Machine

/-- A rejected command word writes `result` and nothing else (30_encoding.md R91, R94). -/
def rejectCommand (r : Reject) (s : State) : State :=
  match r with
  | .badOperand => setResult .badOperand s
  | .badOpcode => setResult .badOpcode s
  | .noWords => setResult .badOpcode s
  | .truncated => setResult .badOpcode s

/-- `ExecCMD(w)` (30_encoding.md R91). -/
def execCommand (w : Word) (s : State) : Host.Outcome State Fault Refusal :=
  match decodeCommand w with
  | .ok i => exec i s
  | .error r => .next (rejectCommand r s)

/-- The word the bus shows at an aligned address of a buffer window (20_memory.md R69, R70). -/
def State.busWord (s : State) (a : Nat) : Word :=
  joinWord (s.busByte a) (s.busByte (a + 1)) (s.busByte (a + 2)) (s.busByte (a + 3))

/-- Give the host the word its read returned (log entry 6). -/
def returnWord (v : Word) (s : State) : State := { s with readData := v }

/-- `MemRead(addr, 4)` at an aligned address (20_memory.md R70, R68). -/
def memRead (a : Nat) (s : State) : State :=
  match windowOf a with
  | .regs => returnWord (s.register a) s
  | .chunk => returnWord (s.busWord a) s
  | .field _ => returnWord (s.busWord a) s
  | .frame => returnWord (s.busWord a) s
  | .display => returnWord (s.busWord a) s
  | .unmapped => returnWord 0 (raiseBusErr s)

/-- A write to the register window, CMD apart: CTRL stores its bit 0, all else ignores the write
(20_memory.md R71, 10_state.md R43, R46). -/
def writeRegister (a : Nat) (v : Word) (s : State) : State :=
  if a = 0x0C then { s with host := { s.host with irqEn := v.getLsbD 0 } } else s

/-- A write to a field window: the four lanes that are not slack (20_memory.md R65, R71). -/
def writeField (b : FieldId) (a : Nat) (v : Word) (s : State) : State :=
  s.withFieldMem b ((s.fieldMem b).writeLanes a v fun k => decide (k < fieldBase b + fieldBytes))

/-- `MemWrite(addr, 4, v)` at an aligned address (20_memory.md R71, R75, R68). A write anywhere in the FRAME or DISPLAY
window sets `bus_err`, its slack bytes included: R71 and R75 say so of the whole window, where R62 says that a write to
slack does not. DESIGN CHOICE, log entry 26. -/
def memWrite (a : Nat) (v : Word) (s : State) : Host.Outcome State Fault Refusal :=
  match windowOf a with
  | .regs => if a = 0x04 then execCommand v s else .next (writeRegister a v s)
  | .chunk => .next { s with chunk := s.chunk.writeLanes a v fun _ => true }
  | .field b => .next (writeField b a v s)
  | .frame => .next (raiseBusErr s)
  | .display => .next (raiseBusErr s)
  | .unmapped => .next (raiseBusErr s)

/-- An access the bus performs: 32 bits at a multiple of 4 (20_memory.md R72). -/
def isAligned (addr : BitVec 21) (width : Width) : Bool := decide (width = .word ∧ addr.toNat % 4 = 0)

/-- Serve one bus access. A misaligned one is not performed: a read returns 0, a write is discarded, and
`bus_err` is set (20_memory.md R72). -/
def serve (a : BusAccess) (s : State) : Host.Outcome State Fault Refusal :=
  match a with
  | .read addr width =>
    if isAligned addr width then .next (memRead addr.toNat s) else .next (returnWord 0 (raiseBusErr s))
  | .write addr width data =>
    if isAligned addr width then memWrite addr.toNat data s else .next (raiseBusErr s)

end Sys2Proof.Machine
end

