-- ==== Sys2Proof/Machine/Fetch.lean ====
section
/-! DEFINITION. Where the machine takes its next instruction from: the call port, when something outside the
machine placed a call record there (log entry 4), else the host's oldest bus access (20_memory.md R80); and how
`withFetchWord` places an instruction at each of the two. -/

namespace Sys2Proof.Machine

/-- The bus address of CMD (10_state.md R41). -/
def cmdAddress : BitVec 21 := 0x000004

/-- The host's write of command word `w` to CMD. -/
def commandWrite (w : Word) : BusAccess := .write cmdAddress .word w

/-- Run the internal operation whose call record stands in the call port, and empty the port (log entries 4, 18). -/
def runCall (s : State) : Host.Outcome State Fault Refusal :=
  match s.callPort with
  | [] => .fault .noSuchOperation
  | w :: ops =>
    match decodeCall (opcodeOf w) ops with
    | .ok i => exec i { s with callPort := [] }
    | .error _ => .fault .noSuchOperation

/-- Serve the host's oldest access; with none the block is idle and holds all state (20_memory.md R80,
60_exceptions.md R294). -/
def serveNext (s : State) : Host.Outcome State Fault Refusal :=
  match s.pending with
  | [] => .next s
  | a :: rest => serve a { s with pending := rest }

/-- The state with words `ws` placed where the next step takes its instruction from: an internal operation's record
in the call port, a host command as the host's next bus access. -/
def State.withFetchWords (s : State) (ws : List Word) : State :=
  match ws with
  | [] => s
  | w :: _ =>
    if isCallId (opcodeOf w) then { s with callPort := ws }
    else { s with callPort := [], pending := commandWrite w :: s.pending }

end Sys2Proof.Machine
end

