-- ==== Sys2Proof/Machine/Step.lean ====
section
/-! DEFINITION. One step of the machine: one bus access with the whole command it executes (20_memory.md R80,
40_sample_step.md R121), or one internal operation placed in the call port (log entry 4). -/

namespace Sys2Proof.Machine

/-- One step. -/
def step (s : State) : Host.Outcome State Fault Refusal :=
  match s.callPort with
  | [] => serveNext s
  | _ :: _ => runCall s

/-- The state with the instruction whose bits are `w` stored where `step` fetches its next instruction. -/
def State.withFetchWord (s : State) (nbits w : Nat) : State := s.withFetchWords (wordsOfBits nbits w)

end Sys2Proof.Machine
end

