-- ==== Sys2Proof/Safety.lean ====
section
/-! DEFINITION. The terms the claims use: the values of fractional counts as exact rationals and the rounding of
00_scope.md R10, and what a sound state is (the invariant every step keeps). -/

namespace Sys2Proof.Machine

/-! ## Numbers (00_scope.md R10) -/

/-- The value of a fractional register holding count `n`: `n / ONE`. -/
def valueOf (n : Int) : ℚ := (n : ℚ) / 65536

/-- `Q(v) = floor(v × ONE)`: the count stored for the exact value `v`. -/
def quantize (v : ℚ) : Int := ⌊v * 65536⌋

/-- `P`, the nominal line period, as an exact rational (00_scope.md R8). -/
def Geometry.period (g : Geometry) : ℚ := (g.periodNinths : ℚ) / 9

/-- `sat32(n) = min(n, 2^32 − 1)` (00_scope.md R11). -/
def sat32 (n : Nat) : Nat := min n (2 ^ 32 - 1)

/-! ## Levels (42_levels.md R155) -/

/-- A level settles at a target: from above the distance shrinks as 0.9^k and becomes 0; from 9 counts or more below,
the distance to 9 below does so; from 1 to 9 counts below the level stays where it is. -/
def Settles (target : Int) (level : Nat → Int) : Prop :=
  (target ≤ level 0 →
    (∀ k, target ≤ level k ∧ (level k - target) * 10 ^ k ≤ 9 ^ k * (level 0 - target))
    ∧ ∃ n, ∀ k ≥ n, level k = target)
  ∧ (level 0 ≤ target - 9 →
    (∀ k, level k ≤ target - 9 ∧ (target - 9 - level k) * 10 ^ k ≤ 9 ^ k * (target - 9 - level 0))
    ∧ ∃ n, ∀ k ≥ n, level k = target - 9)
  ∧ (target - 9 ≤ level 0 → level 0 ≤ target - 1 → ∀ k, level k = level 0)

/-! ## Sound states -/

/-- Every buffer is in canonical form, and lists only addresses of its own bytes (20_memory.md R61 to R67). -/
abbrev State.BuffersCanonical (s : State) : Prop :=
  (s.chunk.wf ∧ s.chunk.within chunkBase (chunkBase + chunkBytes))
  ∧ (s.field0.wf ∧ s.field0.within (fieldBase .zero) (fieldBase .zero + fieldBytes))
  ∧ (s.field1.wf ∧ s.field1.within (fieldBase .one) (fieldBase .one + fieldBytes))
  ∧ (s.frame.wf ∧ s.frame.within frameBase (frameBase + frameBytes))
  ∧ (s.display.wf ∧ s.display.within displayBase (displayBase + frameBytes))

/-- Outside the configured format's rows `FR` and `DS` are 0 (93_implementation_defined.md U19). -/
abbrev State.OutputRowsOnly (s : State) : Prop :=
  s.frame.within frameBase (frameBase + s.geom.frameHeight * Config.frameWidth)
  ∧ s.display.within displayBase (displayBase + s.geom.frameHeight * Config.frameWidth)

/-- The line buffer holds at most 4096 samples (10_state.md R35). -/
abbrev State.LineBufferBounded (s : State) : Prop := s.lineBuf.length ≤ Config.lineBufCap

/-- `lp_y` lies in the range of the samples (41_filter_edge.md R142). -/
abbrev State.FilterInRange (s : State) : Prop :=
  -32768 * Config.one ≤ s.filter.lpY ∧ s.filter.lpY ≤ 32767 * Config.one

/-- The integral is clamped, and `freq_adjust` equals it (10_state.md R29). -/
abbrev State.IntegralClamped (s : State) : Prop :=
  -Config.integralLimit ≤ s.pll.integral ∧ s.pll.integral ≤ Config.integralLimit
  ∧ s.pll.freqAdjust = s.pll.integral

/-- `0 ≤ phase < P + freq_adjust` once a format is selected (45_pll.md R199). -/
abbrev State.PhaseInRange (s : State) : Prop :=
  s.format ≠ .unknown → 0 ≤ s.pll.phase ∧ 9 * s.pll.phase < s.effectivePeriod9

/-- A pulse is open exactly when a falling edge has occurred since reset and the filtered signal is not above the
threshold (44_hsync.md R181). -/
abbrev State.PulsePaired (s : State) : Prop :=
  s.hsync.inPulse = (s.vsync.lastEdgeValid && !s.filter.prevAbove)

/-- `lines_decoded` counts the active ones among the lines before `current_line` (46_line_decoder.md R211,
47_assembler.md R231). -/
abbrev State.LinesCounted (s : State) : Prop :=
  s.lines.linesDecoded.toNat = min (s.lines.currentLine.toNat - s.geom.firstActive) s.geom.fieldHeight

/-- The lock counters are consecutive counts: one of them is 0 (45_pll.md R194). -/
abbrev State.LockCountsConsecutive (s : State) : Prop := s.lock.good = 0 ∨ s.lock.bad = 0

/-- Before the bootstrap every level holds 0 (10_state.md R27). -/
abbrev State.LevelsHeldZero (s : State) : Prop := s.levels.valid = false → s.levels = Levels.powerOn

/-- No internal operation is waiting to be run by itself: the machine as the spec has it (30_encoding.md R95). -/
abbrev State.CallPortEmpty (s : State) : Prop := s.callPort = []

/-- A sound state: everything the spec promises of a reachable one. -/
abbrev State.Sound (s : State) : Prop :=
  s.BuffersCanonical ∧ s.OutputRowsOnly ∧ s.LineBufferBounded ∧ s.FilterInRange ∧ s.IntegralClamped
  ∧ s.PhaseInRange ∧ s.PulsePaired ∧ s.LinesCounted ∧ s.LockCountsConsecutive ∧ s.LevelsHeldZero ∧ s.CallPortEmpty

end Sys2Proof.Machine
end

