-- ==== Sys2Proof/Certificates/Slice0/Obligations.lean ====
section
/-! DEFINITION. The statements for the provers. Fractional registers are read as exact rationals (`valueOf`) and stored
by `quantize`, 00_scope.md R10's `Q`; positions and counters are read as natural numbers. `exec i s = .next t` says
that the instruction completes, and gives its whole next state, so that everything not named is unchanged. -/

open Sys2Proof Sys2Proof.Machine

/-! ## Encoding -/

/-- Decode and encode agree on every well-formed instruction (30_encoding.md R92, R93, R95). The operand words of the
internal operations are the model's own record: log entry 4. -/
def Obligations.EncodedInstructionDecodesToItself : Prop :=
  ∀ i : Instr, WellFormed i = true → decode (encode i) = .ok i

/-- Whatever is decoded fits the row of the opcode map of the instruction it gives, and every word that fits a row is
accepted as that row's instruction (30_encoding.md R93, R95); three operand words are enough for any call record (log
entry 4). -/
def Obligations.DecodingFollowsTheOpcodeMap : Prop :=
  (∀ (w : Word) (ops : List Word) (i : Instr), decode (w :: ops) = .ok i →
    w &&& (opcodeRow i).mask = (opcodeRow i).pattern)
  ∧ ∀ (w a b c : Word) (i : Instr), w &&& (opcodeRow i).mask = (opcodeRow i).pattern →
    ∃ j, decode [w, a, b, c] = .ok j ∧ opcodeRow j = opcodeRow i

/-- A few words written out from the patterns (30_encoding.md R93, R95; 95_test_vectors.md 2.1): five host commands, a
reserved operand bit, an unused opcode, and two call records, whose operand words are the model's choice (log
entry 4). -/
def Obligations.WrittenWordsDecode : Prop :=
  decode [0x010000C8#32] = .ok (.processBuffer 200) ∧ decode [0x02000002#32] = .ok (.setFormat 2)
  ∧ decode [0x03000000#32] = .ok .reset
  ∧ decode [0x04000001#32] = .ok (.ack true false) ∧ decode [0x06000002#32] = .ok (.setFieldReady false true)
  ∧ decode [0x02000004#32] = .error .badOperand ∧ decode [0x07000000#32] = .error .badOpcode
  ∧ decode [0x80000000#32, 0x0000FDA8#32] = .ok (.sampleStep (BitVec.ofInt 16 (-600)))
  ∧ decode [0x94000000#32] = .ok .levelDerive

/-! ## The step -/

/-- A host command at the head of the bus runs: the step is `exec` of what its word decodes to, the access taken off
the list (20_memory.md R80, 30_encoding.md R91). -/
def Obligations.StepRunsTheDecodedCommand : Prop :=
  ∀ (s : State) (w : Word) (rest : List BusAccess) (i : Instr), s.callPort = [] →
    s.pending = commandWrite w :: rest → decode [w] = .ok i → i.isCommand = true →
    step s = exec i { s with pending := rest }

/-- An internal operation's call record in the call port runs, and the port is emptied (log entry 4). -/
def Obligations.StepRunsTheDecodedCall : Prop :=
  ∀ (s : State) (w : Word) (ops : List Word) (i : Instr), s.callPort = w :: ops →
    decode (w :: ops) = .ok i → i.isCommand = false → step s = exec i { s with callPort := [] }

/-- Nothing the host does stops the block: there is no trap (60_exceptions.md R284); the bus serves the oldest access,
and with none the block keeps every register (20_memory.md R80, 60_exceptions.md R294). -/
def Obligations.NoAccessStopsTheBlock : Prop :=
  ∀ s : State, s.callPort = [] →
    (s.pending = [] → step s = .next s)
    ∧ ∀ a rest, s.pending = a :: rest →
        ∃ t, serve a { s with pending := rest } = .next t ∧ step s = .next t

/-- `ExecCMD` (30_encoding.md R91): a CMD write of `w`, with `opc` its bits 31:24 and `opd` its bits 23:0. -/
def Obligations.CommandWordDispatch : Prop :=
  ∀ (s : State) (w : Word),
    let opc := w.toNat / 2 ^ 24
    let opd := w.toNat % 2 ^ 24
    let run := serve (commandWrite w) s
    let badOperand := Host.Outcome.next (setResult .badOperand s)
    (opc = 0 → run = if opd = 0 then exec .nop s else badOperand)
    ∧ (opc = 1 → run = exec (.processBuffer (BitVec.ofNat 24 opd)) s)
    ∧ (opc = 2 → run = if opd / 4 = 0 then exec (.setFormat (BitVec.ofNat 2 opd)) s else badOperand)
    ∧ (opc = 3 → run = if opd = 0 then exec .reset s else badOperand)
    ∧ (opc = 4 → run = if opd / 4 = 0 then exec (.ack (decide (opd % 2 = 1)) (decide (opd / 2 = 1))) s else badOperand)
    ∧ (opc = 5 → run = if opd = 0 then exec .deinterlace s else badOperand)
    ∧ (opc = 6 → run =
        if opd / 4 = 0 then exec (.setFieldReady (decide (opd % 2 = 1)) (decide (opd / 2 = 1))) s else badOperand)
    ∧ (7 ≤ opc → run = .next (setResult .badOpcode s))

/-! ## The bus -/

/-- `MemRead` (20_memory.md R70): what a read of an aligned word returns in each window of the map, and that it writes
nothing but `bus_err`, and that only where the address is unmapped. The word is given to the host in `readData`: log
entry 6, the model's choice. -/
def Obligations.AlignedReadReturnsTheWord : Prop :=
  ∀ (s : State) (addr : BitVec 21), addr.toNat % 4 = 0 → ∃ (v : Word) (unmapped : Bool),
    serve (.read addr .word) s =
      .next { s with readData := v, host := { s.host with busErr := s.host.busErr || unmapped } }
    ∧ (addr.toNat < 0x100 → unmapped = false ∧ v = s.register addr.toNat)
    ∧ (0x010000 ≤ addr.toNat ∧ addr.toNat < 0x030000 → unmapped = false
        ∧ v.extractLsb' 0 16 = s.chunkSample (2 * ((addr.toNat - 0x010000) / 4))
        ∧ v.extractLsb' 16 16 = s.chunkSample (2 * ((addr.toNat - 0x010000) / 4) + 1))
    ∧ (∀ b, fieldBase b ≤ addr.toNat ∧ addr.toNat < fieldBase b + 0x40000 → unmapped = false
        ∧ ∀ j < 4, laneOf v j =
          let k := addr.toNat + j - fieldBase b
          if k < 288 * 720 then s.fieldPixel b (k / 720) (k % 720) else 0)
    ∧ (0x100000 ≤ addr.toNat ∧ addr.toNat < 0x180000 → unmapped = false
        ∧ ∀ j < 4, laneOf v j =
          let k := addr.toNat + j - 0x100000
          if k < 576 * 720 then s.framePixel (k / 720) (k % 720) else 0)
    ∧ (0x180000 ≤ addr.toNat → unmapped = false
        ∧ ∀ j < 4, laneOf v j =
          let k := addr.toNat + j - 0x180000
          if k < 576 * 720 then s.displayPixel (k / 720) (k % 720) else 0)
    ∧ (0x100 ≤ addr.toNat ∧ addr.toNat < 0x010000 ∨ 0x030000 ≤ addr.toNat ∧ addr.toNat < 0x040000
        ∨ 0x0C0000 ≤ addr.toNat ∧ addr.toNat < 0x100000 → unmapped = true ∧ v = 0)

/-- Chunk RAM (20_memory.md R64): a write of word `k` stores both samples, changes no other sample and nothing else,
and is read back (in `readData`: log entry 6, the model's choice). -/
def Obligations.ChunkWordHoldsTwoSamples : Prop :=
  ∀ (s : State) (k : Nat) (v : Word), k < 32768 → s.chunk.wf →
    let addr := BitVec.ofNat 21 (0x010000 + 4 * k)
    ∃ t, serve (.write addr .word v) s = .next t ∧ t = { s with chunk := t.chunk }
      ∧ t.chunkSample (2 * k) = v.extractLsb' 0 16 ∧ t.chunkSample (2 * k + 1) = v.extractLsb' 16 16
      ∧ (∀ a, ¬ (0x010000 + 4 * k ≤ a ∧ a < 0x010000 + 4 * k + 4) → t.chunk.read a = s.chunk.read a)
      ∧ serve (.read addr .word) t = .next { t with readData := v }

/-- A host write to a field window (20_memory.md R65, R71): the four bytes stored are those from the address on that
are not slack; every other byte, and everything else, is unchanged. -/
def Obligations.FieldWriteStoresItsPixels : Prop :=
  ∀ (s : State) (b : FieldId) (addr : BitVec 21) (v : Word), addr.toNat % 4 = 0 →
    fieldBase b ≤ addr.toNat → addr.toNat < fieldBase b + 0x40000 → (s.fieldMem b).wf →
    ∃ m, serve (.write addr .word v) s = .next (s.withFieldMem b m)
      ∧ ∀ k, Memory.read m k =
          if addr.toNat ≤ k ∧ k < addr.toNat + 4 ∧ k < fieldBase b + 288 * 720 then laneOf v (k - addr.toNat)
          else (s.fieldMem b).read k

/-- A misaligned or narrow access is not performed: a read returns 0, a write is discarded, and both set `bus_err`
(20_memory.md R72). That the host finds the 0 in `readData` is the model's choice, log entry 6. -/
def Obligations.MisalignedAccessOnlySetsBusErr : Prop :=
  ∀ (s : State) (addr : BitVec 21) (width : Width) (v : Word), width ≠ .word ∨ addr.toNat % 4 ≠ 0 →
    serve (.read addr width) s = .next { s with readData := 0, host := { s.host with busErr := true } }
    ∧ serve (.write addr width v) s = .next { s with host := { s.host with busErr := true } }

/-- The other aligned writes: to an unmapped address or to the FRAME or DISPLAY window, nothing changes but `bus_err`,
which is set (20_memory.md R68, R75); in the register window, CMD apart, CTRL stores its bit 0 and nothing else changes
anything (20_memory.md R71, 10_state.md R43, R46). That the slack bytes of FRAME and DISPLAY are no exception is the model's
choice between R62 and R71, R75: log entry 26. -/
def Obligations.OtherWritesStoreNothingButCtrl : Prop :=
  ∀ (s : State) (addr : BitVec 21) (v : Word), addr.toNat % 4 = 0 →
    ((0x100 ≤ addr.toNat ∧ addr.toNat < 0x010000) ∨ (0x030000 ≤ addr.toNat ∧ addr.toNat < 0x040000)
        ∨ 0x0C0000 ≤ addr.toNat →
      serve (.write addr .word v) s = .next { s with host := { s.host with busErr := true } })
    ∧ (addr.toNat < 0x100 → addr.toNat ≠ 0x04 → serve (.write addr .word v) s =
        .next (if addr.toNat = 0x0C then { s with host := { s.host with irqEn := v.getLsbD 0 } } else s))

/-- The fields of STATUS (10_state.md R42), with the numbers of the format codes (30_encoding.md R97) and of the result
codes (60_exceptions.md R280). -/
def Obligations.StatusWordShowsEachField : Prop :=
  ∀ s : State, let w := s.register 0x08
    w.getLsbD 0 = s.asm.displayReady ∧ w.getLsbD 1 = s.lock.locked ∧ w.getLsbD 2 = s.vsync.inVsync
    ∧ w.getLsbD 3 = s.levels.valid ∧ w.getLsbD 4 = decide (s.lines.currentField = .one)
    ∧ w.getLsbD 5 = s.asm.ready0 ∧ w.getLsbD 6 = s.asm.ready1 ∧ w.getLsbD 7 = s.hsync.inPulse
    ∧ (s.format, (w.extractLsb' 8 2).toNat) ∈ [(Format.unknown, 0), (.pal, 1), (.ntsc, 2), (.secam, 3)]
    ∧ w.getLsbD 10 = s.host.busErr ∧ w.getLsbD 11 = (s.asm.displayReady && s.host.irqEn)
    ∧ (s.host.result, (w.extractLsb' 12 4).toNat) ∈ [(Result.ok, 0), (.short, 1), (.weak, 2), (.noFormat, 3),
        (.badOpcode, 4), (.badOperand, 5), (.noField, 6)]
    ∧ w.extractLsb' 16 16 = 0

/-- ID, CMD, CTRL and the counter and integer registers read as the state they show (10_state.md R40, R41, R43, R44),
and reserved offsets read 0 (R46). The premise on the line buffer is part of `State.Sound`. -/
def Obligations.IntegerRegistersShowTheirState : Prop :=
  ∀ s : State, s.LineBufferBounded →
    (∀ r ∈ [(0x00, 0x4D534331), (0x04, 0), (0x0C, if s.host.irqEn then 1 else 0),
        (0x10, s.diag.framesDecoded.toNat), (0x14, s.diag.syncErrors.toNat), (0x18, s.diag.formatChanges.toNat),
        (0x1C, s.asm.displayGen.toNat), (0x20, s.lines.currentLine.toNat), (0x24, s.lines.linesDecoded.toNat),
        (0x28, s.lock.good.toNat), (0x2C, s.lock.bad.toNat), (0x30, s.vsync.halfLineCount.toNat),
        (0x34, s.samplePos.toNat % 2 ^ 32), (0x38, s.samplePos.toNat / 2 ^ 32),
        (0x3C, s.geom.frameHeight * 2 ^ 16 + 720), (0x70, s.vsync.lastEdgePos.toNat % 2 ^ 32),
        (0x74, s.lineBuf.length), (0x78, s.hsync.pulseStart.toNat % 2 ^ 32)],
      (s.register r.1).toNat = r.2)
    ∧ ∀ o, 0x80 ≤ o → s.register o = 0

/-- Each fractional register reads as its count saturated to 32 signed bits (10_state.md R45, 30_encoding.md R99). -/
def Obligations.FractionalRegistersReadSaturated : Prop :=
  ∀ s : State, ∀ r ∈ [(0x40, s.pll.phase), (0x44, s.pll.freqAdjust), (0x48, s.pll.integral), (0x4C, s.pll.error),
      (0x50, s.filter.lpY), (0x54, s.levels.syncTip), (0x58, s.levels.white), (0x5C, s.levels.threshold),
      (0x60, s.levels.blanking), (0x64, s.levels.black), (0x68, s.acc.min), (0x6C, s.acc.max),
      (0x7C, if s.format = .unknown then 0 else ⌊s.geom.period * 65536⌋)],
    (s.register r.1).toInt = min (max r.2 (-2 ^ 31)) (2 ^ 31 - 1)

/-- The interrupt output (60_exceptions.md R287): its level, and what lowers it. -/
def Obligations.InterruptIsLevelAndLoweredByItsClears : Prop :=
  ∀ (s : State) (e : Bool) (fmt : BitVec 2), fmt ≠ 0 →
    (s.irq = true ↔ s.asm.displayReady = true ∧ s.host.irqEn = true)
    ∧ ∀ t, (exec (.ack true e) s = .next t ∨ exec (.setFormat fmt) s = .next t ∨ exec .reset s = .next t) →
        t.irq = false

/-! ## Host commands -/

/-- NOP writes `result` and nothing else; ACK clears the flags its bits name; SET_FIELD_READY writes both flags
(48_host_commands.md R253, R254, R256). -/
def Obligations.FlagCommandsWriteTheirFlags : Prop :=
  ∀ (s : State) (b0 b1 : Bool),
    exec .nop s = .next { s with host := { s.host with result := .ok } }
    ∧ exec (.ack b0 b1) s = .next { s with
        asm := { s.asm with displayReady := if b0 then false else s.asm.displayReady }
        host := { s.host with busErr := if b1 then false else s.host.busErr, result := .ok } }
    ∧ exec (.setFieldReady b0 b1) s = .next { s with
        asm := { s.asm with ready0 := b0, ready1 := b1 }, host := { s.host with result := .ok } }

/-- What PROCESS_BUFFER turns away, in the order of its checks (40_sample_step.md R120, R123, R124, R125): a count above
the chunk RAM, no format, a short count, and a chunk whose samples all lie within 99 of one another, which is
counted. -/
def Obligations.ProcessBufferRefusesInCheckOrder : Prop :=
  ∀ (s : State) (count : BitVec 24),
    let answers := fun r => exec (.processBuffer count) s =
      Host.Outcome.next (φ := Fault) (ρ := Refusal) { s with host := { s.host with result := r } }
    (65536 < count.toNat → answers .badOperand)
    ∧ (count.toNat ≤ 65536 → s.format = .unknown → answers .noFormat)
    ∧ (s.format ≠ .unknown → count.toNat < 100 → answers .short)
    ∧ (s.format ≠ .unknown → 100 ≤ count.toNat → count.toNat ≤ 65536 →
        (∀ i < count.toNat, ∀ j < count.toNat, (s.chunkSample i).toInt - (s.chunkSample j).toInt < 100) →
        exec (.processBuffer count) s = .next { s with
          diag := { s.diag with syncErrors := BitVec.ofNat 32 (sat32 (s.diag.syncErrors.toNat + 1)) }
          host := { s.host with result := .weak } })

/-- A chunk of enough range is processed, sample by sample, after the first one bootstraps the levels from its
least and greatest sample (40_sample_step.md R120). -/
def Obligations.ProcessBufferRunsEverySample : Prop :=
  ∀ (s : State) (count : BitVec 24) (mn mx : Int), s.format ≠ .unknown → 100 ≤ count.toNat → count.toNat ≤ 65536 →
    (∃ i < count.toNat, (s.chunkSample i).toInt = mn) → (∀ i < count.toNat, mn ≤ (s.chunkSample i).toInt) →
    (∃ i < count.toNat, (s.chunkSample i).toInt = mx) → (∀ i < count.toNat, (s.chunkSample i).toInt ≤ mx) →
    100 ≤ mx - mn →
    exec (.processBuffer count) s = .next (setResult .ok
      ((List.range count.toNat).foldl (fun t i => sampleStep (s.chunkSample i) t)
        (if s.levels.valid then s else levelBootstrap mn mx s)))

/-- The chunk-split law for two chunks (40_sample_step.md R126): where both are processed, the state is the one a single
run over the joined samples gives, whatever the host puts into the chunk RAM between the two. -/
def Obligations.SplitChunksActAsOneStream : Prop :=
  ∀ (s t u : State) (count more : BitVec 24) (ch : Memory),
    exec (.processBuffer count) s = .next t → t.host.result = .ok →
    exec (.processBuffer more) { t with chunk := ch } = .next u → u.host.result = .ok →
    u = { sampleSteps (s.chunkSamples count.toNat ++ State.chunkSamples { t with chunk := ch } more.toNat)
            (bootstrapOnce (s.chunkSamples count.toNat) s) with
          chunk := ch, host := { s.host with result := .ok } }

/-- SET_FORMAT (48_host_commands.md R250): code 0 is refused; codes 1, 2 and 3 select PAL, NTSC and SECAM
(30_encoding.md R97) with their rows of 00_scope.md R8 and R9, count a change, and run FORMAT_RESET. -/
def Obligations.SetFormatSelectsAndResets : Prop :=
  ∀ s : State,
    exec (.setFormat 0) s = .next { s with host := { s.host with result := .badOperand } }
    ∧ ∀ (fmt : BitVec 2) (f : Format) (total active frame field start count first : Nat) (period : ℚ),
      (fmt, f, total, active, frame, field, period, start, count, first) ∈
        [(1, .pal, 625, 576, 576, 288, 2560, 232, 2080, 17),
         (2, .ntsc, 525, 480, 480, 240, 22880 / 9, 188, 2106, 11),
         (3, .secam, 625, 576, 576, 288, 2560, 232, 2080, 17)] →
      ∃ t, exec .formatReset { s with
            format := f
            diag := if f = s.format then s.diag else
              { s.diag with formatChanges := BitVec.ofNat 32 (sat32 (s.diag.formatChanges.toNat + 1)) } } = .next t
        ∧ exec (.setFormat fmt) s = .next { t with host := { s.host with result := .ok } }
        ∧ t.format = f ∧ t.geom.totalLines = total ∧ t.geom.activeLines = active ∧ t.geom.frameHeight = frame
        ∧ t.geom.fieldHeight = field ∧ t.geom.period = period ∧ t.geom.activeStart = start
        ∧ t.geom.activeCount = count ∧ t.geom.firstActive = first

/-- FORMAT_RESET (48_host_commands.md R251): every register and pixel it lists, and nothing else. -/
def Obligations.FormatResetClearsTheDecoder : Prop :=
  ∀ s : State, ∃ t, exec .formatReset s = .next t
    ∧ t = { State.powerOn s.chunk with
        format := s.format, diag := s.diag, host := s.host, asm := { Assembler.powerOn with displayGen := s.asm.displayGen }
        pending := s.pending, readData := s.readData, callPort := s.callPort, returned := s.returned }
    ∧ (∀ b r c, t.fieldPixel b r c = 0) ∧ (∀ r c, t.framePixel r c = 0 ∧ t.displayPixel r c = 0)

/-- RESET gives the power-on state with the chunk RAM kept (48_host_commands.md R252), so that every register reads as
after power-on (70_reset_and_hazards.md R300) and the geometry is the UNKNOWN row (00_scope.md R8). What the host
has issued and read is no state of the block and stays:
log entry 14, the model's choice. -/
def Obligations.ResetCommandGivesThePowerOnState : Prop :=
  ∀ s : State, ∃ t, exec .reset s = .next t
    ∧ t = { State.powerOn s.chunk with
        pending := s.pending, readData := s.readData, callPort := s.callPort, returned := s.returned }
    ∧ t.format = .unknown ∧ t.geom.totalLines = 0 ∧ t.geom.activeLines = 0 ∧ t.geom.frameHeight = 0
    ∧ t.geom.fieldHeight = 0
    ∧ ∀ o, t.register o = if o = 0x00 then 0x4D534331#32 else if o = 0x3C then 0x000002D0#32 else 0

/-- DEINTERLACE (48_host_commands.md R255): refused without a format or a ready field, else the two operations. -/
def Obligations.DeinterlaceCommandRunsTheDeinterlacer : Prop :=
  ∀ s : State,
    (s.format = .unknown → exec .deinterlace s = .next { s with host := { s.host with result := .noFormat } })
    ∧ (s.format ≠ .unknown → s.asm.ready0 = false → s.asm.ready1 = false →
        exec .deinterlace s = .next { s with host := { s.host with result := .noField } })
    ∧ (s.format ≠ .unknown → (s.asm.ready0 = true ∨ s.asm.ready1 = true) → ∃ t u,
        exec .deinterlaceCore s = .next t ∧ exec .displayCopy t = .next u
        ∧ exec .deinterlace s = .next { u with host := { s.host with result := .ok } })

/-- The format round trip (48_host_commands.md R257): NTSC, PAL, NTSC leaves what RESET, NTSC leaves, but for the
counters and host state that SET_FORMAT keeps. -/
def Obligations.FormatRoundTripLeavesAFreshDecoder : Prop :=
  ∀ s a b c r f : State, exec (.setFormat 2) s = .next a → exec (.setFormat 1) a = .next b →
    exec (.setFormat 2) b = .next c → exec .reset s = .next r → exec (.setFormat 2) r = .next f →
    c = { f with diag := c.diag, host := { s.host with result := .ok },
                 asm := { f.asm with displayGen := s.asm.displayGen } }

/-! ## Filter, levels and detectors -/

/-- LP_FILTER stores the exact lowpass value, floored to a count (41_filter_edge.md R140). -/
def Obligations.LowpassIsTheExactFilterFloored : Prop :=
  ∀ (s : State) (x : Sample), exec (.lpFilter x) s = .next { s with filter := { s.filter with
    lpY := quantize (2 / 25 * (x.toInt : ℚ) + (1 - 2 / 25) * valueOf s.filter.lpY) } }

/-- The filter stays within the bounds of its input (41_filter_edge.md R142). -/
def Obligations.LowpassStaysWithinItsInputs : Prop :=
  ∀ (s t : State) (x : Sample) (a b : Int), a ≤ x.toInt → x.toInt ≤ b →
    a * 65536 ≤ s.filter.lpY → s.filter.lpY ≤ b * 65536 → exec (.lpFilter x) s = .next t →
    a * 65536 ≤ t.filter.lpY ∧ t.filter.lpY ≤ b * 65536

/-- EDGE_CLASSIFY writes no state of the spec and returns the edges (41_filter_edge.md R141); that they are held in
`returned` is the model's choice, log entry 5. -/
def Obligations.EdgeIsAStrictThresholdCrossing : Prop :=
  ∀ (s : State) (y : Int), ∃ e : Edges, exec (.edgeClassify y) s = .next { s with returned := .edges e }
    ∧ (e.above = true ↔ valueOf s.levels.threshold < valueOf y)
    ∧ (e.fall = true ↔ s.filter.prevAbove = true ∧ valueOf y ≤ valueOf s.levels.threshold)
    ∧ (e.rise = true ↔ s.filter.prevAbove = false ∧ valueOf s.levels.threshold < valueOf y)

/-- LEVEL_ACCUMULATE (42_levels.md R152). -/
def Obligations.AccumulateTracksTheExtremes : Prop :=
  ∀ (s : State) (y : Int), ∃ a : Accumulators, exec (.levelAccumulate y) s = .next { s with acc := a }
    ∧ a.valid = true
    ∧ (s.acc.valid = false → a.min = y ∧ a.max = y)
    ∧ (s.acc.valid = true →
        a.min ≤ s.acc.min ∧ a.min ≤ y ∧ (a.min = s.acc.min ∨ a.min = y)
        ∧ s.acc.max ≤ a.max ∧ y ≤ a.max ∧ (a.max = s.acc.max ∨ a.max = y))

/-- LEVEL_DERIVE: the three levels from the committed range, clamped below at 100 (42_levels.md R153). -/
def Obligations.LevelsAreFractionsOfTheRange : Prop :=
  ∀ s : State,
    let range := max (valueOf s.levels.white - valueOf s.levels.syncTip) 100
    exec .levelDerive s = .next { s with levels := { s.levels with
      threshold := quantize (valueOf s.levels.syncTip + 1 / 4 * range)
      blanking := quantize (valueOf s.levels.syncTip + 7 / 25 * range)
      black := quantize (valueOf s.levels.syncTip + 8 / 25 * range) } }

/-- The ordering of the levels holds exactly above its range (42_levels.md R154). -/
def Obligations.LevelOrderNeedsEnoughRange : Prop :=
  ∀ s t : State, exec .levelDerive s = .next t →
    (t.levels.syncTip < t.levels.threshold)
    ∧ (t.levels.threshold < t.levels.white ↔ 25 < valueOf t.levels.white - valueOf t.levels.syncTip)
    ∧ (t.levels.black < t.levels.white ↔ 32 < valueOf t.levels.white - valueOf t.levels.syncTip)

/-- LEVEL_BOOTSTRAP (42_levels.md R150): sync tip and white from the raw extremes, the rest derived (R153). R150's
extremes lie at least 100 apart; that the operation runs by its pseudocode on others too is log entry 23. -/
def Obligations.BootstrapTakesTheRawExtremes : Prop :=
  ∀ (s : State) (mn mx : Sample),
    let range := max ((mx.toInt : ℚ) - (mn.toInt : ℚ)) 100
    exec (.levelBootstrap mn mx) s = .next { s with
      levels :=
        { valid := true, syncTip := mn.toInt * 65536, white := mx.toInt * 65536
          threshold := quantize ((mn.toInt : ℚ) + 1 / 4 * range)
          blanking := quantize ((mn.toInt : ℚ) + 7 / 25 * range)
          black := quantize ((mn.toInt : ℚ) + 8 / 25 * range) }
      acc := { s.acc with valid := false } }

/-- LEVEL_COMMIT (42_levels.md R151): without an accumulated sample the levels stay; the first commit initialises; a
later one blends with 1/10. -/
def Obligations.CommitBlendsTheFieldExtremes : Prop :=
  ∀ s : State,
    (s.acc.valid = false → exec .levelCommit s = .next { s with acc := { s.acc with valid := false } })
    ∧ (s.acc.valid = true → s.levels.valid = false → ∃ t, exec .levelCommit s = .next t ∧ exec .levelDerive { s with
        levels := { s.levels with valid := true, syncTip := s.acc.min, white := s.acc.max }
        acc := { s.acc with valid := false } } = .next t)
    ∧ (s.acc.valid = true → s.levels.valid = true → ∃ t, exec .levelCommit s = .next t ∧ exec .levelDerive { s with
        levels := { s.levels with
          syncTip := quantize (1 / 10 * valueOf s.acc.min + (1 - 1 / 10) * valueOf s.levels.syncTip)
          white := quantize (1 / 10 * valueOf s.acc.max + (1 - 1 / 10) * valueOf s.levels.white) }
        acc := { s.acc with valid := false } } = .next t)

/-- Convergence of both levels under repeated LEVEL_COMMITs that each find the same extremes (42_levels.md R155), from
above and from below (`Settles`). -/
def Obligations.CommittedLevelConverges : Prop :=
  ∀ (u : Nat → State) (a : Accumulators), a.valid = true → (u 0).levels.valid = true → (∀ k, (u k).acc = a) →
    (∀ k, ∃ t, exec .levelCommit (u k) = .next t ∧ (u (k + 1)).levels = t.levels) →
    Settles a.min (fun k => (u k).levels.syncTip) ∧ Settles a.max (fun k => (u k).levels.white)

/-- VSYNC_EDGE (43_vsync.md R170), the interval `d` modulo 2^64; that `done` is held in `returned` is log entry 5. -/
def Obligations.VsyncClassifiesTheInterval : Prop :=
  ∀ (s : State) (p : Position),
    let d := (p.toNat + 2 ^ 64 - s.vsync.lastEdgePos.toNat) % 2 ^ 64
    let n := sat32 (s.vsync.halfLineCount.toNat + 1)
    let fell := fun (v : Vsync) (done : Bool) => Host.Outcome.next (φ := Fault) (ρ := Refusal)
      { s with vsync := { v with lastEdgePos := p, lastEdgeValid := true }, returned := .completion done }
    exec (.vsyncEdge false p) s = .next { s with returned := .completion false }
    ∧ (s.vsync.lastEdgeValid = false → exec (.vsyncEdge true p) s = fell s.vsync false)
    ∧ (s.vsync.lastEdgeValid = true → 1000 ≤ d → d ≤ 1600 → exec (.vsyncEdge true p) s =
        fell { s.vsync with halfLineCount := BitVec.ofNat 32 n, inVsync := s.vsync.inVsync || decide (6 ≤ n) } false)
    ∧ (s.vsync.lastEdgeValid = true → s.vsync.inVsync = true → 2200 ≤ d → d ≤ 3000 → exec (.vsyncEdge true p) s =
        fell { s.vsync with halfLineCount := 0, inVsync := false } true)
    ∧ (s.vsync.lastEdgeValid = true → ¬ (1000 ≤ d ∧ d ≤ 1600) →
        ¬ (s.vsync.inVsync = true ∧ 2200 ≤ d ∧ d ≤ 3000) → exec (.vsyncEdge true p) s =
        fell { s.vsync with halfLineCount := 0 } false)

/-- A run of falling edges spaced by a half line, from any detector whose count is 0: after a reset, where the first
edge only records its position, or after an edge that completed a vsync or ended another interval. `in_vsync` becomes
true with the sixth interval and not before (43_vsync.md R171). -/
def Obligations.SixthHalfLineEntersVsync : Prop :=
  ∀ (u : Nat → State) (p d n : Nat), 1000 ≤ d → d ≤ 1600 → n < 2 ^ 32 → (u 0).vsync.halfLineCount = 0 →
    (∀ k, exec (.vsyncEdge true (BitVec.ofNat 64 (p + (k + 1) * d))) (u k) = .next (u (k + 1))) →
    let counted := fun v : Vsync =>
      v.halfLineCount.toNat = n ∧ (v.inVsync = true ↔ (u 0).vsync.inVsync = true ∨ 6 ≤ n)
    ((u 0).vsync.lastEdgeValid = false → counted (u (n + 1)).vsync)
    ∧ ((u 0).vsync.lastEdgeValid = true → (u 0).vsync.lastEdgePos = BitVec.ofNat 64 p → counted (u n).vsync)

/-- HSYNC_EDGE (44_hsync.md R180), the width `w` modulo 2^64; that the verdict is held in `returned` is log entry 5. -/
def Obligations.HsyncMeasuresThePulse : Prop :=
  ∀ (s : State) (rise : Bool) (p : Position),
    let w := (p.toNat + 2 ^ 64 - s.hsync.pulseStart.toNat) % 2 ^ 64
    exec (.hsyncEdge true rise p) s =
      .next { s with hsync := { inPulse := true, pulseStart := p }, returned := .event false }
    ∧ exec (.hsyncEdge false false p) s = .next { s with returned := .event false }
    ∧ (s.hsync.inPulse = false → exec (.hsyncEdge false true p) s = .next { s with returned := .event false })
    ∧ (s.hsync.inPulse = true → exec (.hsyncEdge false true p) s =
        .next { s with hsync := { s.hsync with inPulse := false }
                       returned := .event (decide (100 ≤ w ∧ w ≤ 280)) })

/-! ## The PLL -/

/-- PHASE_ERROR (45_pll.md R191): the phase less `k` nominal periods, in `[−P/2, P/2]`, floored to a count; no period is
taken off a phase that lies there already, and a wrapped phase keeps `+P/2` from above and `−P/2` from below. That it
writes `phase_error` alone in UNKNOWN too, where `P` is undefined (00_scope.md R8) and the rule's loops need not end, is
the model's choice: the period is a free value (log entry 2) and the wrap a closed form (log entry 16). -/
def Obligations.PhaseErrorIsTheWrappedPhase : Prop :=
  ∀ s : State, (∃ n, exec .phaseError s = .next { s with pll := { s.pll with error := n } }) ∧
    (s.format ≠ .unknown → ∃ k : ℤ,
    let period := s.geom.period
    let e := valueOf s.pll.phase - k * period
    exec .phaseError s = .next { s with pll := { s.pll with error := quantize e } }
    ∧ -(period / 2) ≤ e ∧ e ≤ period / 2
    ∧ (-(period / 2) ≤ valueOf s.pll.phase → valueOf s.pll.phase ≤ period / 2 → k = 0)
    ∧ (period / 2 < valueOf s.pll.phase → -(period / 2) < e)
    ∧ (valueOf s.pll.phase < -(period / 2) → e < period / 2))

/-- LOCK_UPDATE (45_pll.md R194). In UNKNOWN, where `P` is undefined (00_scope.md R8), it compares with the model's free
period: log entry 2. -/
def Obligations.LockFollowsConsecutiveEvents : Prop :=
  ∀ s : State,
    let good := sat32 (s.lock.good.toNat + 1)
    let bad := sat32 (s.lock.bad.toNat + 1)
    (|valueOf s.pll.error| < s.geom.period / 20 → exec .lockUpdate s = .next { s with lock :=
        { good := BitVec.ofNat 32 good, bad := 0, locked := if 10 ≤ good then true else s.lock.locked } })
    ∧ (s.geom.period / 20 ≤ |valueOf s.pll.error| → exec .lockUpdate s = .next { s with lock :=
        { good := 0, bad := BitVec.ofNat 32 bad, locked := if 5 ≤ bad then false else s.lock.locked } })

/-- PLL_CORRECT: proportional 3/20 on the phase, integral 1/200 clamped to ±50 samples (45_pll.md R193). -/
def Obligations.CorrectionIsProportionalIntegral : Prop :=
  ∀ s : State,
    let integral := quantize (min (max (valueOf s.pll.integral + 1 / 200 * valueOf s.pll.error) (-50)) 50)
    exec .pllCorrect s = .next { s with pll :=
      { phase := quantize (valueOf s.pll.phase - 3 / 20 * valueOf s.pll.error)
        integral := integral, freqAdjust := integral, error := s.pll.error } }

/-- PLL_EVENT (45_pll.md R190, R192): error, lock update, and then a discard beyond 0.4·P or a correction. That it answers
a next state in UNKNOWN too, where `P` is undefined (00_scope.md R8) and the loops of R191 need not end, is the model's
choice: the period is a free value (log entry 2) and the wrap a closed form (log entry 16). -/
def Obligations.SpuriousEventCorrectsNothing : Prop :=
  ∀ s : State, ∃ t u, exec .phaseError s = .next t ∧ exec .lockUpdate t = .next u
    ∧ (2 / 5 * s.geom.period < |valueOf t.pll.error| → exec .pllEvent s = .next u)
    ∧ (|valueOf t.pll.error| ≤ 2 / 5 * s.geom.period → ∃ v, exec .pllCorrect u = .next v ∧ exec .pllEvent s = .next v)

/-- PLL_ADVANCE (45_pll.md R195): one sample, and one boundary where the phase reaches the effective period. In
UNKNOWN, where `P` is undefined (00_scope.md R8), that is the model's free period: log entry 2. -/
def Obligations.AdvanceFiresAtTheEffectivePeriod : Prop :=
  ∀ s : State,
    let t : State := { s with pll := { s.pll with phase := s.pll.phase + 65536 } }
    (s.geom.period + valueOf s.pll.freqAdjust ≤ valueOf s.pll.phase + 1 →
        ∃ u, exec .lineBoundary t = .next u ∧ exec .pllAdvance s = .next u)
    ∧ (valueOf s.pll.phase + 1 < s.geom.period + valueOf s.pll.freqAdjust → exec .pllAdvance s = .next t)

/-- LINE_BOUNDARY (45_pll.md R196): the line is decoded, the line number advances, and the phase keeps its fraction. In
UNKNOWN, where `P` is undefined (00_scope.md R8), what it loses is the model's free period: log entry 2. -/
def Obligations.BoundaryKeepsThePhaseFraction : Prop :=
  ∀ s : State, ∃ t, exec .lineDecode s = .next t
    ∧ exec .lineBoundary s = .next { t with
        lines := { t.lines with currentLine := BitVec.ofNat 32 (sat32 (s.lines.currentLine.toNat + 1)) }
        pll := { s.pll with
          phase := quantize (valueOf s.pll.phase - (s.geom.period + valueOf s.pll.freqAdjust)) } }

/-! ## The line decoder -/

/-- LINE_APPEND (46_line_decoder.md R210). -/
def Obligations.AppendStopsAtTheCapacity : Prop :=
  ∀ (s : State) (x : Sample), ∃ lb, exec (.lineAppend x) s = .next { s with lineBuf := lb }
    ∧ (s.lineBuf.length < 4096 → lb.length = s.lineBuf.length + 1 ∧ lb[s.lineBuf.length]? = some x
        ∧ ∀ k < s.lineBuf.length, lb[k]? = s.lineBuf[k]?)
    ∧ (4096 ≤ s.lineBuf.length → lb = s.lineBuf)

/-- PIXEL (46_line_decoder.md R212, R213, R214): the mean of the samples present at the indices `src − 5 … src + 5`,
placed between black and white on 0 … 255, floored and clamped; 0 where there is none or no scale. In
UNKNOWN, for which 00_scope.md R9 gives no active window and no line is decoded, the window is log entry 3's. -/
def Obligations.PixelIsTheNormalisedBoxMean : Prop :=
  ∀ (s : State) (c : Nat),
    let src : Int := s.geom.activeStart + c * s.geom.activeCount / 720
    let present := (Finset.range s.lineBuf.length).filter fun k : Nat => src - 5 ≤ k ∧ (k : Int) ≤ src + 5
    let sum := present.sum fun k => (s.lineBuf.getD k 0).toInt
    let v := ((sum : ℚ) / present.card - valueOf s.levels.black) * 255
      / (valueOf s.levels.white - valueOf s.levels.black)
    (present = ∅ ∨ s.levels.white ≤ s.levels.black → s.linePixel c = 0)
    ∧ (present ≠ ∅ → s.levels.black < s.levels.white → ((s.linePixel c).toNat : Int) = min (max ⌊v⌋ 0) 255)

/-- LINE_DECODE (46_line_decoder.md R211, R216): an active line writes the `W` pixels of its row of the current field
and no other byte, and counts; every line clears the line buffer. -/
def Obligations.LineDecodeWritesTheActiveRow : Prop :=
  ∀ s : State,
    let line := s.lines.currentLine.toNat
    let first := s.geom.firstActive
    let b := s.lines.currentField
    (first ≤ line ∧ line < first + s.geom.fieldHeight → ∃ m,
        exec .lineDecode s = .next { s.withFieldMem b m with
          lines := { s.lines with linesDecoded := BitVec.ofNat 32 (sat32 (s.lines.linesDecoded.toNat + 1)) }
          lineBuf := [] }
        ∧ ∀ a, Memory.read m a =
            let start := fieldBase b + (line - first) * 720
            if start ≤ a ∧ a < start + 720 then s.linePixel (a - start) else (s.fieldMem b).read a)
    ∧ (¬ (first ≤ line ∧ line < first + s.geom.fieldHeight) → exec .lineDecode s = .next { s with lineBuf := [] })

/-! ## The assembler -/

/-- DEINTERLACE_CORE with both fields ready weaves (47_assembler.md R232), row by row; every other byte of the frame
window's buffer is unchanged. -/
def Obligations.WeaveInterleavesTheFields : Prop :=
  ∀ s : State, s.asm.ready0 = true → s.asm.ready1 = true → ∃ m,
    exec .deinterlaceCore s = .next { s with frame := m }
    ∧ (∀ i c, i < s.geom.fieldHeight → c < 720 →
        State.framePixel { s with frame := m } (2 * i) c = s.fieldPixel .zero i c
        ∧ State.framePixel { s with frame := m } (2 * i + 1) c = s.fieldPixel .one i c)
    ∧ ∀ a, ¬ (0x100000 ≤ a ∧ a < 0x100000 + 2 * s.geom.fieldHeight * 720) → Memory.read m a = s.frame.read a

/-- DEINTERLACE_CORE with only field 0 ready bobs from it (47_assembler.md R233). -/
def Obligations.BobFromFieldZeroAverages : Prop :=
  ∀ s : State, s.asm.ready0 = true → s.asm.ready1 = false → ∃ m,
    exec .deinterlaceCore s = .next { s with frame := m }
    ∧ (∀ i c, i < s.geom.fieldHeight → c < 720 →
        State.framePixel { s with frame := m } (2 * i) c = s.fieldPixel .zero i c
        ∧ (i + 1 < s.geom.fieldHeight → (State.framePixel { s with frame := m } (2 * i + 1) c).toNat
            = ((s.fieldPixel .zero i c).toNat + (s.fieldPixel .zero (i + 1) c).toNat) / 2)
        ∧ (i + 1 = s.geom.fieldHeight → State.framePixel { s with frame := m } (2 * i + 1) c = s.fieldPixel .zero i c))
    ∧ ∀ a, ¬ (0x100000 ≤ a ∧ a < 0x100000 + 2 * s.geom.fieldHeight * 720) → Memory.read m a = s.frame.read a

/-- DEINTERLACE_CORE with only field 1 ready bobs from it; with neither ready it changes nothing
(47_assembler.md R234). -/
def Obligations.BobFromFieldOneAverages : Prop :=
  ∀ s : State, s.asm.ready0 = false →
    (s.asm.ready1 = true → ∃ m,
      exec .deinterlaceCore s = .next { s with frame := m }
      ∧ (∀ i c, i < s.geom.fieldHeight → c < 720 →
          State.framePixel { s with frame := m } (2 * i + 1) c = s.fieldPixel .one i c
          ∧ (0 < i → (State.framePixel { s with frame := m } (2 * i) c).toNat
              = ((s.fieldPixel .one (i - 1) c).toNat + (s.fieldPixel .one i c).toNat) / 2)
          ∧ (i = 0 → State.framePixel { s with frame := m } 0 c = s.fieldPixel .one 0 c))
      ∧ ∀ a, ¬ (0x100000 ≤ a ∧ a < 0x100000 + 2 * s.geom.fieldHeight * 720) → Memory.read m a = s.frame.read a)
    ∧ (s.asm.ready1 = false → exec .deinterlaceCore s = .next s)

/-- DISPLAY_COPY (47_assembler.md R235). -/
def Obligations.DisplayCopyPublishesTheFrame : Prop :=
  ∀ s : State, ∃ m,
    exec .displayCopy s = .next { s with
      display := m
      asm := { s.asm with displayReady := true, displayGen := BitVec.ofNat 32 ((s.asm.displayGen.toNat + 1) % 2 ^ 32) } }
    ∧ (∀ r c, r < s.geom.frameHeight → c < 720 →
        State.displayPixel { s with display := m } r c = s.framePixel r c)
    ∧ ∀ a, ¬ (0x180000 ≤ a ∧ a < 0x180000 + s.geom.frameHeight * 720) → Memory.read m a = s.display.read a

/-- START_NEW_FIELD (47_assembler.md R230): a field below half of its lines is discarded; another is marked ready,
deinterlaced, published and counted where both are ready; either way the levels are committed and the next field
begins. The PLL is untouched (45_pll.md R198). -/
def Obligations.NewFieldAssemblesOrDiscards : Prop :=
  ∀ s : State,
    let cf := s.lines.currentField
    let begun := fun u : State => Host.Outcome.next (φ := Fault) (ρ := Refusal) { u with lines :=
      { currentLine := 0, linesDecoded := 0, currentField := if cf = .zero then .one else .zero } }
    (2 * s.lines.linesDecoded.toNat < s.geom.fieldHeight →
      ∃ u, exec .levelCommit s = .next u ∧ exec .startNewField s = begun u)
    ∧ (s.geom.fieldHeight ≤ 2 * s.lines.linesDecoded.toNat → ∃ a b u,
        exec .deinterlaceCore { s with asm := { s.asm with
          ready0 := if cf = .zero then true else s.asm.ready0
          ready1 := if cf = .one then true else s.asm.ready1 } } = .next a
        ∧ exec .displayCopy a = .next b
        ∧ exec .levelCommit { b with diag := { b.diag with
            framesDecoded := if a.asm.ready0 = true ∧ a.asm.ready1 = true
              then BitVec.ofNat 32 (sat32 (s.diag.framesDecoded.toNat + 1)) else s.diag.framesDecoded } } = .next u
        ∧ exec .startNewField s = begun u)

/-! ## The sample step -/

/-- SAMPLE_STEP (40_sample_step.md R122): its ten steps in order, each on the state the one before it left. What
EDGE_CLASSIFY, VSYNC_EDGE and HSYNC_EDGE give back is named through the model's `returned`, which the step itself leaves
as it was (log entry 5). That it answers a next state in UNKNOWN too, on an event or not, is the model's choice: `P` is
undefined there (00_scope.md R8), the period is a free value (log entry 2), and the wrap a closed form (log entry 16). -/
def Obligations.SampleStepRunsTheUnitsInOrder : Prop :=
  ∀ (s : State) (x : Sample), ∃ (s1 s2 s4 s5 s6 s7 s8 s9 : State) (e : Edges) (done event : Bool),
    exec (.lpFilter x) s = .next s1
    ∧ (s.samplePos.toNat % 16 = 0 → exec (.levelAccumulate s1.filter.lpY) s1 = .next s2)
    ∧ (s.samplePos.toNat % 16 ≠ 0 → s2 = s1)
    ∧ exec (.edgeClassify s2.filter.lpY) s2 = .next { s2 with returned := .edges e }
    ∧ exec (.vsyncEdge e.fall s.samplePos) s2 = .next { s4 with returned := .completion done }
    ∧ s4.returned = s.returned
    ∧ exec (.hsyncEdge e.fall e.rise s.samplePos) s4 = .next { s5 with returned := .event event }
    ∧ s5.returned = s.returned
    ∧ (event = true → exec .pllEvent s5 = .next s6) ∧ (event = false → s6 = s5)
    ∧ exec (.lineAppend x) s6 = .next s7
    ∧ exec .pllAdvance s7 = .next s8
    ∧ (done = true → exec .startNewField s8 = .next s9) ∧ (done = false → s9 = s8)
    ∧ exec (.sampleStep x) s = .next { s9 with
        filter := { s9.filter with prevAbove := e.above }
        samplePos := BitVec.ofNat 64 ((s.samplePos.toNat + 1) % 2 ^ 64) }

/-! ## The whole machine -/

/-- Every step, of a command, of a bus access or of an internal operation by itself, keeps every buffer in canonical
form and inside its own bytes of the address map (20_memory.md R61). -/
def Obligations.EveryStepKeepsTheBuffersCanonical : Prop :=
  ∀ s t : State, s.BuffersCanonical → step s = .next t → t.BuffersCanonical

/-- Every step of the machine as the spec has it keeps a sound state sound: the phase range of 45_pll.md R199, the
pulse pairing of 44_hsync.md R181, the line count behind 47_assembler.md R231, the filter range of 41_filter_edge.md
R142, the clamped integral of R29, the zero levels of R27, the zero rows of 93_implementation_defined.md U19, and
that the host never brings about an internal operation's call (30_encoding.md R95). -/
def Obligations.EveryStepKeepsTheStateSound : Prop :=
  ∀ s t : State, s.Sound → step s = .next t → t.Sound

/-- The reset state is sound. -/
def Obligations.ResetStateIsSound : Prop := State.reset.Sound

/-- The diagnostic counters never decrease, except at RESET (48_host_commands.md R258). -/
def Obligations.DiagnosticCountersNeverDecrease : Prop :=
  ∀ s t : State, step s = .next t →
    (s.callPort = [] → ∀ rest, s.pending ≠ commandWrite 0x03000000#32 :: rest) →
    s.diag.framesDecoded.toNat ≤ t.diag.framesDecoded.toNat ∧ s.diag.syncErrors.toNat ≤ t.diag.syncErrors.toNat
    ∧ s.diag.formatChanges.toNat ≤ t.diag.formatChanges.toNat

/-- Only SET_FORMAT and RESET change the format (48_host_commands.md R259). -/
def Obligations.OnlySetFormatAndResetChangeTheFormat : Prop :=
  ∀ s t : State, step s = .next t → t.format ≠ s.format →
    s.callPort = [] ∧ ∃ rest, (t.format = .unknown ∧ s.pending = commandWrite 0x03000000#32 :: rest)
      ∨ (t.format ≠ .unknown
          ∧ s.pending = commandWrite (0x02000000#32 ||| (formatCode t.format).setWidth 32) :: rest)

/-- A bus access that is no CMD write does not change `result` (60_exceptions.md R280). Neither does an internal operation
run by itself, in the model's call port (log entry 4): that only a command writes `result` (48_host_commands.md R251) is
read by inference for it, log entry 25. -/
def Obligations.OnlyCommandsChangeTheResult : Prop :=
  ∀ s t : State, step s = .next t → t.host.result ≠ s.host.result →
    s.callPort = [] ∧ ∃ w rest, s.pending = commandWrite w :: rest

/-- SECAM behaves as PAL in every rule (00_scope.md R8, 48_host_commands.md R250): every instruction but the two that
write `format` does the same in both. -/
def Obligations.SecamBehavesAsPal : Prop :=
  ∀ (i : Instr) (s t : State), (∀ f, i ≠ .setFormat f) → i ≠ .reset → s.format = .pal → exec i s = .next t →
    exec i { s with format := .secam } = .next { t with format := .secam }

/-- The lock state is a status output: whatever it holds, no instruction does anything else differently
(46_line_decoder.md R215, 10_state.md R30). -/
def Obligations.LockStateIsOutputOnly : Prop :=
  ∀ (i : Instr) (s t : State) (l : Lock), exec i s = .next t →
    ∃ l', exec i { s with lock := l } = .next { t with lock := l' }
end

