-- ==== Sys2Proof/Laws/Decode.lean ====
section
/-! SUPPORT. What the decoders can give: a command word decodes to a host command only, a call record to an internal
operation only (30_encoding.md R93, R95). -/

namespace Sys2Proof

/-! ## Fields of words -/

theorem extract_append_low {n m : Nat} (a : BitVec n) (b : BitVec m) : (a ++ b).extractLsb' 0 m = b := by
  ext i hi
  rw [BitVec.getElem_extractLsb', BitVec.getLsbD_append]; simp [hi]

theorem extract_append_high {n m : Nat} (a : BitVec n) (b : BitVec m) : (a ++ b).extractLsb' m n = a := by
  ext i hi
  rw [BitVec.getElem_extractLsb', BitVec.getLsbD_append]; simp [hi]

theorem append_extract {n m : Nat} (v : BitVec (n + m)) : v.extractLsb' m n ++ v.extractLsb' 0 m = v := by
  ext i hi
  rw [BitVec.getElem_append]
  split
  · simp [BitVec.getLsbD_eq_getElem hi]
  · have e : m + (i - m) = i := by omega
    simp [e, BitVec.getLsbD_eq_getElem hi]

theorem append_inj {n m : Nat} {a b : BitVec n} {c d : BitVec m} (h : a ++ c = b ++ d) : a = b ∧ c = d := by
  constructor
  · rw [← extract_append_high a c, h, extract_append_high]
  · rw [← extract_append_low a c, h, extract_append_low]

theorem sampleOperand_sampleWord (x : Sample) : sampleOperand (sampleWord x) = x := extract_append_low 0#16 x

theorem wideOperand_extract (v : BitVec 64) : wideOperand (v.extractLsb' 0 32) (v.extractLsb' 32 32) = v :=
  append_extract (n := 32) (m := 32) v

theorem opcodeOf_append (o : BitVec 8) (c : BitVec 24) : opcodeOf (o ++ c : BitVec (8 + 24)) = o :=
  extract_append_high o c

theorem operandOf_append (o : BitVec 8) (c : BitVec 24) : operandOf (o ++ c : BitVec (8 + 24)) = c :=
  extract_append_low o c

/-- A word is its opcode and its operand field (30_encoding.md R90). -/
theorem opcode_append_operand (w : Word) : (opcodeOf w ++ operandOf w : BitVec (8 + 24)) = w :=
  append_extract (n := 8) (m := 24) w

/-- The opcode bits of a word, the others cleared. -/
theorem and_opcodeMask (w : Word) : w &&& 0xFF000000#32 = headWord (opcodeOf w) := by
  have h : ∀ (o : BitVec 8) (c : BitVec 24), (o ++ c) &&& (BitVec.allOnes 8 ++ 0#24) = o ++ 0#24 := by
    intro o c
    rw [BitVec.and_append, BitVec.and_allOnes]; simp
  have := h (opcodeOf w) (operandOf w)
  conv_lhs => rw [← opcode_append_operand w]
  exact this

/-- The opcode and the bits 23:2 of a word, the two low ones cleared. -/
theorem and_reservedMask (w : Word) :
    w &&& 0xFFFFFFFC#32 = (opcodeOf w ++ (reservedAboveTwo w ++ 0#2 : BitVec (22 + 2)) : BitVec (8 + 24)) := by
  have e1 : operandOf w = (reservedAboveTwo w ++ w.extractLsb' 0 2 : BitVec (22 + 2)) := by
    have h := append_extract (n := 22) (m := 2) (operandOf w)
    rw [← h]
    congr 1
    · unfold operandOf reservedAboveTwo; ext i hi; simp
    · unfold operandOf; ext i hi; simp
  have h : ∀ (o : BitVec 8) (c : BitVec 22) (d : BitVec 2),
      (o ++ (c ++ d)) &&& (BitVec.allOnes 8 ++ (BitVec.allOnes 22 ++ 0#2)) = o ++ (c ++ 0#2) := by
    intro o c d
    rw [BitVec.and_append, BitVec.and_append, BitVec.and_allOnes, BitVec.and_allOnes]; simp
  have e := (opcode_append_operand w).symm
  rw [e1] at e
  have := h (opcodeOf w) (reservedAboveTwo w) (w.extractLsb' 0 2)
  conv_lhs => rw [e]
  exact this

/-! ## What the decoders answer -/

theorem whenReservedClear_ok {n : Nat} {r : BitVec n} {i j : Instr} (h : whenReservedClear r i = .ok j) :
    r = 0 ∧ j = i := by
  unfold whenReservedClear at h
  split at h
  · cases h; exact ⟨‹_›, rfl⟩
  · cases h

theorem withSample_ok {ops : List Word} {f : Sample → Instr} {i : Instr} (h : withSample ops f = .ok i) :
    ∃ x, i = f x := by
  unfold withSample at h
  split at h
  · cases h; exact ⟨_, rfl⟩
  · cases h

theorem withFixed_ok {ops : List Word} {f : Int → Instr} {i : Instr} (h : withFixed ops f = .ok i) :
    ∃ y, i = f y := by
  unfold withFixed at h
  split at h
  · cases h; exact ⟨_, rfl⟩
  · cases h

theorem withFlagsAndPosition_ok {ops : List Word} {f : Word → Position → Instr} {i : Instr}
    (h : withFlagsAndPosition ops f = .ok i) : ∃ w p, i = f w p := by
  unfold withFlagsAndPosition at h
  split at h
  · cases h; exact ⟨_, _, rfl⟩
  · cases h

/-- A command word decodes to a host command. -/
theorem decodeCommand_isCommand {w : Word} {i : Instr} (h : decodeCommand w = .ok i) : i.isCommand = true := by
  unfold decodeCommand at h
  split at h
  case h_2 => cases h; rfl
  case h_8 => cases h
  all_goals obtain ⟨-, rfl⟩ := whenReservedClear_ok h; rfl

/-- A command word that decodes has one of the seven opcodes. -/
theorem decodeCommand_opcode {w : Word} {i : Instr} (h : decodeCommand w = .ok i) : (opcodeOf w).toNat ≤ 6 := by
  unfold decodeCommand at h
  split at h
  case h_8 => cases h
  all_goals (rename_i e; rw [e]; decide)

/-- A call record decodes to an internal operation. -/
theorem decodeCall_isCall {opc : BitVec 8} {ops : List Word} {i : Instr} (h : decodeCall opc ops = .ok i) :
    i.isCommand = false := by
  unfold decodeCall at h
  split at h
  case h_6 =>
    split at h
    · cases h; rfl
    · cases h
  case h_22 => cases h
  all_goals first
    | (cases h; rfl)
    | (obtain ⟨_, rfl⟩ := withSample_ok h; rfl)
    | (obtain ⟨_, rfl⟩ := withFixed_ok h; rfl)
    | (obtain ⟨_, _, rfl⟩ := withFlagsAndPosition_ok h; rfl)

/-- Words that decode to a host command are decoded by the command decoder. -/
theorem decode_command {w : Word} {ops : List Word} {i : Instr} (h : decode (w :: ops) = .ok i)
    (hi : i.isCommand = true) : decodeCommand w = .ok i := by
  simp only [decode] at h
  split at h
  · rw [decodeCall_isCall h] at hi; cases hi
  · exact h

/-- Words that decode to an internal operation are decoded by the call decoder. -/
theorem decode_call {w : Word} {ops : List Word} {i : Instr} (h : decode (w :: ops) = .ok i)
    (hi : i.isCommand = false) : decodeCall (opcodeOf w) ops = .ok i := by
  simp only [decode] at h
  split at h
  · exact h
  · rw [decodeCommand_isCommand h] at hi; cases hi

end Sys2Proof
end

