-- ==== Sys2Proof/Laws/State.lean ====
section
/-! SUPPORT. What the shared updates of State leave alone: for each named update one lemma per field, true by `rfl`,
so that no later proof unfolds a record update. -/

namespace Sys2Proof.Machine

variable (s : State)

/-! ## `setResult` (60_exceptions.md R280) -/

@[simp] theorem setResult_format (r : Result) : (setResult r s).format = s.format := rfl
@[simp] theorem setResult_samplePos (r : Result) : (setResult r s).samplePos = s.samplePos := rfl
@[simp] theorem setResult_filter (r : Result) : (setResult r s).filter = s.filter := rfl
@[simp] theorem setResult_hsync (r : Result) : (setResult r s).hsync = s.hsync := rfl
@[simp] theorem setResult_vsync (r : Result) : (setResult r s).vsync = s.vsync := rfl
@[simp] theorem setResult_levels (r : Result) : (setResult r s).levels = s.levels := rfl
@[simp] theorem setResult_acc (r : Result) : (setResult r s).acc = s.acc := rfl
@[simp] theorem setResult_pll (r : Result) : (setResult r s).pll = s.pll := rfl
@[simp] theorem setResult_lock (r : Result) : (setResult r s).lock = s.lock := rfl
@[simp] theorem setResult_lines (r : Result) : (setResult r s).lines = s.lines := rfl
@[simp] theorem setResult_asm (r : Result) : (setResult r s).asm = s.asm := rfl
@[simp] theorem setResult_diag (r : Result) : (setResult r s).diag = s.diag := rfl
@[simp] theorem setResult_lineBuf (r : Result) : (setResult r s).lineBuf = s.lineBuf := rfl
@[simp] theorem setResult_field0 (r : Result) : (setResult r s).field0 = s.field0 := rfl
@[simp] theorem setResult_field1 (r : Result) : (setResult r s).field1 = s.field1 := rfl
@[simp] theorem setResult_frame (r : Result) : (setResult r s).frame = s.frame := rfl
@[simp] theorem setResult_display (r : Result) : (setResult r s).display = s.display := rfl
@[simp] theorem setResult_chunk (r : Result) : (setResult r s).chunk = s.chunk := rfl
@[simp] theorem setResult_pending (r : Result) : (setResult r s).pending = s.pending := rfl
@[simp] theorem setResult_readData (r : Result) : (setResult r s).readData = s.readData := rfl
@[simp] theorem setResult_callPort (r : Result) : (setResult r s).callPort = s.callPort := rfl
@[simp] theorem setResult_returned (r : Result) : (setResult r s).returned = s.returned := rfl
@[simp] theorem setResult_result (r : Result) : (setResult r s).host.result = r := rfl
@[simp] theorem setResult_irqEn (r : Result) : (setResult r s).host.irqEn = s.host.irqEn := rfl
@[simp] theorem setResult_busErr (r : Result) : (setResult r s).host.busErr = s.host.busErr := rfl

/-! ## `raiseBusErr` (20_memory.md R68) -/

@[simp] theorem raiseBusErr_format : (raiseBusErr s).format = s.format := rfl
@[simp] theorem raiseBusErr_samplePos : (raiseBusErr s).samplePos = s.samplePos := rfl
@[simp] theorem raiseBusErr_filter : (raiseBusErr s).filter = s.filter := rfl
@[simp] theorem raiseBusErr_hsync : (raiseBusErr s).hsync = s.hsync := rfl
@[simp] theorem raiseBusErr_vsync : (raiseBusErr s).vsync = s.vsync := rfl
@[simp] theorem raiseBusErr_levels : (raiseBusErr s).levels = s.levels := rfl
@[simp] theorem raiseBusErr_acc : (raiseBusErr s).acc = s.acc := rfl
@[simp] theorem raiseBusErr_pll : (raiseBusErr s).pll = s.pll := rfl
@[simp] theorem raiseBusErr_lock : (raiseBusErr s).lock = s.lock := rfl
@[simp] theorem raiseBusErr_lines : (raiseBusErr s).lines = s.lines := rfl
@[simp] theorem raiseBusErr_asm : (raiseBusErr s).asm = s.asm := rfl
@[simp] theorem raiseBusErr_diag : (raiseBusErr s).diag = s.diag := rfl
@[simp] theorem raiseBusErr_lineBuf : (raiseBusErr s).lineBuf = s.lineBuf := rfl
@[simp] theorem raiseBusErr_field0 : (raiseBusErr s).field0 = s.field0 := rfl
@[simp] theorem raiseBusErr_field1 : (raiseBusErr s).field1 = s.field1 := rfl
@[simp] theorem raiseBusErr_frame : (raiseBusErr s).frame = s.frame := rfl
@[simp] theorem raiseBusErr_display : (raiseBusErr s).display = s.display := rfl
@[simp] theorem raiseBusErr_chunk : (raiseBusErr s).chunk = s.chunk := rfl
@[simp] theorem raiseBusErr_pending : (raiseBusErr s).pending = s.pending := rfl
@[simp] theorem raiseBusErr_readData : (raiseBusErr s).readData = s.readData := rfl
@[simp] theorem raiseBusErr_callPort : (raiseBusErr s).callPort = s.callPort := rfl
@[simp] theorem raiseBusErr_returned : (raiseBusErr s).returned = s.returned := rfl
@[simp] theorem raiseBusErr_result : (raiseBusErr s).host.result = s.host.result := rfl
@[simp] theorem raiseBusErr_irqEn : (raiseBusErr s).host.irqEn = s.host.irqEn := rfl
@[simp] theorem raiseBusErr_busErr : (raiseBusErr s).host.busErr = true := rfl

/-! ## `returnWord` (20_memory.md R70) -/

@[simp] theorem returnWord_format (v : Word) : (returnWord v s).format = s.format := rfl
@[simp] theorem returnWord_samplePos (v : Word) : (returnWord v s).samplePos = s.samplePos := rfl
@[simp] theorem returnWord_filter (v : Word) : (returnWord v s).filter = s.filter := rfl
@[simp] theorem returnWord_hsync (v : Word) : (returnWord v s).hsync = s.hsync := rfl
@[simp] theorem returnWord_vsync (v : Word) : (returnWord v s).vsync = s.vsync := rfl
@[simp] theorem returnWord_levels (v : Word) : (returnWord v s).levels = s.levels := rfl
@[simp] theorem returnWord_acc (v : Word) : (returnWord v s).acc = s.acc := rfl
@[simp] theorem returnWord_pll (v : Word) : (returnWord v s).pll = s.pll := rfl
@[simp] theorem returnWord_lock (v : Word) : (returnWord v s).lock = s.lock := rfl
@[simp] theorem returnWord_lines (v : Word) : (returnWord v s).lines = s.lines := rfl
@[simp] theorem returnWord_asm (v : Word) : (returnWord v s).asm = s.asm := rfl
@[simp] theorem returnWord_diag (v : Word) : (returnWord v s).diag = s.diag := rfl
@[simp] theorem returnWord_host (v : Word) : (returnWord v s).host = s.host := rfl
@[simp] theorem returnWord_lineBuf (v : Word) : (returnWord v s).lineBuf = s.lineBuf := rfl
@[simp] theorem returnWord_field0 (v : Word) : (returnWord v s).field0 = s.field0 := rfl
@[simp] theorem returnWord_field1 (v : Word) : (returnWord v s).field1 = s.field1 := rfl
@[simp] theorem returnWord_frame (v : Word) : (returnWord v s).frame = s.frame := rfl
@[simp] theorem returnWord_display (v : Word) : (returnWord v s).display = s.display := rfl
@[simp] theorem returnWord_chunk (v : Word) : (returnWord v s).chunk = s.chunk := rfl
@[simp] theorem returnWord_pending (v : Word) : (returnWord v s).pending = s.pending := rfl
@[simp] theorem returnWord_callPort (v : Word) : (returnWord v s).callPort = s.callPort := rfl
@[simp] theorem returnWord_returned (v : Word) : (returnWord v s).returned = s.returned := rfl
@[simp] theorem returnWord_readData (v : Word) : (returnWord v s).readData = v := rfl

/-! ## `withFieldMem` (20_memory.md R65) -/

@[simp] theorem withFieldMem_format (b : FieldId) (m : Memory) : (s.withFieldMem b m).format = s.format := by
  cases b <;> rfl
@[simp] theorem withFieldMem_samplePos (b : FieldId) (m : Memory) : (s.withFieldMem b m).samplePos = s.samplePos := by
  cases b <;> rfl
@[simp] theorem withFieldMem_filter (b : FieldId) (m : Memory) : (s.withFieldMem b m).filter = s.filter := by
  cases b <;> rfl
@[simp] theorem withFieldMem_hsync (b : FieldId) (m : Memory) : (s.withFieldMem b m).hsync = s.hsync := by
  cases b <;> rfl
@[simp] theorem withFieldMem_vsync (b : FieldId) (m : Memory) : (s.withFieldMem b m).vsync = s.vsync := by
  cases b <;> rfl
@[simp] theorem withFieldMem_levels (b : FieldId) (m : Memory) : (s.withFieldMem b m).levels = s.levels := by
  cases b <;> rfl
@[simp] theorem withFieldMem_acc (b : FieldId) (m : Memory) : (s.withFieldMem b m).acc = s.acc := by
  cases b <;> rfl
@[simp] theorem withFieldMem_pll (b : FieldId) (m : Memory) : (s.withFieldMem b m).pll = s.pll := by
  cases b <;> rfl
@[simp] theorem withFieldMem_lock (b : FieldId) (m : Memory) : (s.withFieldMem b m).lock = s.lock := by
  cases b <;> rfl
@[simp] theorem withFieldMem_lines (b : FieldId) (m : Memory) : (s.withFieldMem b m).lines = s.lines := by
  cases b <;> rfl
@[simp] theorem withFieldMem_asm (b : FieldId) (m : Memory) : (s.withFieldMem b m).asm = s.asm := by
  cases b <;> rfl
@[simp] theorem withFieldMem_diag (b : FieldId) (m : Memory) : (s.withFieldMem b m).diag = s.diag := by
  cases b <;> rfl
@[simp] theorem withFieldMem_host (b : FieldId) (m : Memory) : (s.withFieldMem b m).host = s.host := by
  cases b <;> rfl
@[simp] theorem withFieldMem_lineBuf (b : FieldId) (m : Memory) : (s.withFieldMem b m).lineBuf = s.lineBuf := by
  cases b <;> rfl
@[simp] theorem withFieldMem_frame (b : FieldId) (m : Memory) : (s.withFieldMem b m).frame = s.frame := by
  cases b <;> rfl
@[simp] theorem withFieldMem_display (b : FieldId) (m : Memory) : (s.withFieldMem b m).display = s.display := by
  cases b <;> rfl
@[simp] theorem withFieldMem_chunk (b : FieldId) (m : Memory) : (s.withFieldMem b m).chunk = s.chunk := by
  cases b <;> rfl
@[simp] theorem withFieldMem_pending (b : FieldId) (m : Memory) : (s.withFieldMem b m).pending = s.pending := by
  cases b <;> rfl
@[simp] theorem withFieldMem_readData (b : FieldId) (m : Memory) : (s.withFieldMem b m).readData = s.readData := by
  cases b <;> rfl
@[simp] theorem withFieldMem_callPort (b : FieldId) (m : Memory) : (s.withFieldMem b m).callPort = s.callPort := by
  cases b <;> rfl
@[simp] theorem withFieldMem_returned (b : FieldId) (m : Memory) : (s.withFieldMem b m).returned = s.returned := by
  cases b <;> rfl

@[simp] theorem withFieldMem_geom (b : FieldId) (m : Memory) : (s.withFieldMem b m).geom = s.geom := by
  cases b <;> rfl

/-- The field buffer a replacement leaves in each of the two places. -/
theorem withFieldMem_fieldMem (b c : FieldId) (m : Memory) :
    (s.withFieldMem b m).fieldMem c = if c = b then m else s.fieldMem c := by
  cases b <;> cases c <;> rfl

/-- Replacing a field buffer by itself changes nothing. -/
theorem withFieldMem_self (b : FieldId) : s.withFieldMem b (s.fieldMem b) = s := by cases b <;> rfl

end Sys2Proof.Machine
end

