-- ==== Sys2Proof/Laws/Step.lean ====
section
/-! SUPPORT. What one step can do, said once: the map's windows, every answer of the bus, and every answer of `step`,
so that no later proof unfolds them (20_memory.md R61, R70 to R75, R80; 30_encoding.md R91). -/

namespace Sys2Proof.Machine

/-! ## The windows (20_memory.md R61) -/

theorem windowOf_regs {a : Nat} (h : a < 0x100) : windowOf a = .regs := by
  unfold windowOf; simp [h]

theorem windowOf_chunk {a : Nat} (h : 0x010000 ≤ a) (h2 : a < 0x030000) : windowOf a = .chunk := by
  unfold windowOf; repeat' split
  all_goals first | rfl | omega

theorem windowOf_field {a : Nat} (b : FieldId) (h : fieldBase b ≤ a) (h2 : a < fieldBase b + 0x40000) :
    windowOf a = .field b := by
  cases b <;> simp only [fieldBase] at h h2 <;> unfold windowOf <;> repeat' split
  all_goals first | rfl | omega

theorem windowOf_frame {a : Nat} (h : 0x100000 ≤ a) (h2 : a < 0x180000) : windowOf a = .frame := by
  unfold windowOf; repeat' split
  all_goals first | rfl | omega

theorem windowOf_display {a : Nat} (h : 0x180000 ≤ a) (h2 : a < 0x200000) : windowOf a = .display := by
  unfold windowOf; repeat' split
  all_goals first | rfl | omega

theorem windowOf_unmapped {a : Nat} (h : (0x100 ≤ a ∧ a < 0x010000) ∨ (0x030000 ≤ a ∧ a < 0x040000)
    ∨ (0x0C0000 ≤ a ∧ a < 0x100000)) : windowOf a = .unmapped := by
  unfold windowOf; repeat' split
  all_goals first | rfl | omega

theorem windowOf_eq_field {a : Nat} {b : FieldId} (h : windowOf a = .field b) :
    fieldBase b ≤ a ∧ a < fieldBase b + 0x40000 := by
  revert h; unfold windowOf; repeat' split
  all_goals intro h
  all_goals first
    | (cases h; simp only [fieldBase]; omega)
    | cases h

theorem windowOf_eq_chunk {a : Nat} (h : windowOf a = .chunk) : chunkBase ≤ a ∧ a < chunkBase + chunkBytes := by
  revert h; unfold windowOf chunkBase chunkBytes; repeat' split
  all_goals intro h
  all_goals first
    | (simp only [Config.chunkCap]; omega)
    | cases h

/-! ## The bus -/

/-- A read answers a word, and at most raises the bus error. -/
theorem memRead_cases (a : Nat) (s : State) :
    ∃ v, memRead a s = returnWord v s ∨ memRead a s = returnWord v (raiseBusErr s) := by
  unfold memRead
  split <;> exact ⟨_, by first | exact .inl rfl | exact .inr rfl⟩

/-- Everything a served access can be: idle data given to the host, a discarded access, a register, a chunk word, a
field word, or a command. -/
inductive Served (a : BusAccess) (s t : State) : Prop
  | answered (v : Word) (h : t = returnWord v s)
  | unanswered (v : Word) (h : t = returnWord v (raiseBusErr s))
  | discarded (h : t = raiseBusErr s)
  | register (o : Nat) (v : Word) (ho : o ≠ 0x04) (h : t = writeRegister o v s)
  | chunk (addr : BitVec 21) (v : Word) (ha : addr.toNat % 4 = 0) (hw : windowOf addr.toNat = .chunk)
      (h : t = { s with chunk := s.chunk.writeLanes addr.toNat v fun _ => true })
  | field (b : FieldId) (addr : BitVec 21) (v : Word) (ha : addr.toNat % 4 = 0) (hw : windowOf addr.toNat = .field b)
      (h : t = writeField b addr.toNat v s)
  | rejected (w : Word) (r : Result) (hc : a = commandWrite w) (hr : r = .badOpcode ∨ r = .badOperand)
      (h : t = setResult r s)
  | command (w : Word) (i : Instr) (hc : a = commandWrite w) (hd : decodeCommand w = .ok i) (h : exec i s = .next t)

/-- A word rejected by the decoder only writes `result`. -/
theorem rejectCommand_eq (e : Reject) (s : State) :
    ∃ r, (r = .badOpcode ∨ r = .badOperand) ∧ rejectCommand e s = setResult r s := by
  cases e <;> exact ⟨_, by first | exact .inl rfl | exact .inr rfl, rfl⟩

/-- Every answer of the bus. -/
theorem serve_cases {a : BusAccess} {s t : State} (h : serve a s = .next t) : Served a s t := by
  unfold serve at h
  split at h
  · rename_i addr width
    split at h
    · cases h
      obtain ⟨v, hv | hv⟩ := memRead_cases addr.toNat s
      · exact .answered v hv
      · exact .unanswered v hv
    · cases h; exact .unanswered 0 rfl
  · rename_i addr width data
    split at h
    · rename_i al
      obtain ⟨hw, ha⟩ : width = .word ∧ addr.toNat % 4 = 0 := by simpa [isAligned] using al
      unfold memWrite at h
      split at h
      · split at h
        · rename_i h4
          have hc : BusAccess.write addr width data = commandWrite data := by
            have : addr = cmdAddress := BitVec.eq_of_toNat_eq (by rw [h4]; rfl)
            rw [this, hw]; rfl
          unfold execCommand at h
          split at h
          · exact .command data _ hc ‹_› h
          · cases h
            obtain ⟨r, hr, e⟩ := rejectCommand_eq ‹_› s
            exact .rejected data r hc hr e
        · cases h; exact .register _ data ‹_› rfl
      · cases h; exact .chunk addr data ha ‹_› rfl
      · cases h; exact .field _ addr data ha ‹_› rfl
      all_goals (cases h; exact .discarded rfl)
    · cases h; exact .discarded rfl

/-- A command write is served by executing its word (30_encoding.md R91). -/
theorem serve_commandWrite (w : Word) (s : State) : serve (commandWrite w) s = execCommand w s := by
  simp [serve, commandWrite, isAligned, cmdAddress, memWrite, windowOf]

/-! ## The step -/

/-- Everything a step can be: idle, an internal operation run by itself, or a served access. -/
inductive Stepped (s t : State) : Prop
  | idle (hc : s.callPort = []) (hp : s.pending = []) (h : t = s)
  | called (w : Word) (ops : List Word) (i : Instr) (hc : s.callPort = w :: ops)
      (hd : decodeCall (opcodeOf w) ops = .ok i) (h : exec i { s with callPort := [] } = .next t)
  | served (a : BusAccess) (rest : List BusAccess) (hc : s.callPort = []) (hp : s.pending = a :: rest)
      (h : Served a { s with pending := rest } t)

/-- Every answer of the step. -/
theorem step_cases {s t : State} (h : step s = .next t) : Stepped s t := by
  unfold step at h
  split at h
  · rename_i hc
    unfold serveNext at h
    split at h
    · cases h; exact .idle hc ‹_› rfl
    · exact .served _ _ hc ‹_› (serve_cases h)
  · rename_i hc
    simp only [runCall, hc] at h
    split at h
    · exact .called _ _ _ hc ‹_› h
    · cases h

end Sys2Proof.Machine
end

