-- ==== Sys2Proof/Laws/Bytes.lean ====
section
/-! SUPPORT. The byte order of the bus: lanes, halves and words are taken apart and put together without loss
(20_memory.md R69). -/

namespace Sys2Proof.Machine

theorem extract_append_of_low {n m : Nat} (x : BitVec n) (y : BitVec m) {a k : Nat} (h : a + k ≤ m) :
    (x ++ y).extractLsb' a k = y.extractLsb' a k := by
  ext i hi
  rw [BitVec.getElem_extractLsb', BitVec.getElem_extractLsb', BitVec.getLsbD_append, if_pos (by omega)]

theorem extract_append_of_high {n m : Nat} (x : BitVec n) (y : BitVec m) {a k : Nat} (h : m ≤ a) :
    (x ++ y).extractLsb' a k = x.extractLsb' (a - m) k := by
  ext i hi
  rw [BitVec.getElem_extractLsb', BitVec.getElem_extractLsb', BitVec.getLsbD_append, if_neg (by omega)]
  congr 1
  omega

theorem extract_self {n : Nat} (x : BitVec n) : x.extractLsb' 0 n = x := by
  ext i hi
  simp

/-- Lane 0 of a word made of four bytes. -/
theorem laneOf_joinWord_zero (b0 b1 b2 b3 : Byte) : laneOf (joinWord b0 b1 b2 b3) 0 = b0 :=
  extract_append_low (b3 ++ b2 ++ b1 : BitVec (8 + 8 + 8)) b0

/-- Lane 1 of a word made of four bytes. -/
theorem laneOf_joinWord_one (b0 b1 b2 b3 : Byte) : laneOf (joinWord b0 b1 b2 b3) 1 = b1 :=
  (extract_append_of_high (b3 ++ b2 ++ b1 : BitVec (8 + 8 + 8)) b0 (a := 8) (k := 8) (by omega)).trans
    (extract_append_low (b3 ++ b2 : BitVec (8 + 8)) b1)

/-- Lane 2 of a word made of four bytes. -/
theorem laneOf_joinWord_two (b0 b1 b2 b3 : Byte) : laneOf (joinWord b0 b1 b2 b3) 2 = b2 :=
  (extract_append_of_high (b3 ++ b2 ++ b1 : BitVec (8 + 8 + 8)) b0 (a := 16) (k := 8) (by omega)).trans
    ((extract_append_of_high (b3 ++ b2 : BitVec (8 + 8)) b1 (a := 8) (k := 8) (by omega)).trans
      (extract_append_low b3 b2))

/-- Lane 3 of a word made of four bytes. -/
theorem laneOf_joinWord_three (b0 b1 b2 b3 : Byte) : laneOf (joinWord b0 b1 b2 b3) 3 = b3 :=
  (extract_append_of_high (b3 ++ b2 ++ b1 : BitVec (8 + 8 + 8)) b0 (a := 24) (k := 8) (by omega)).trans
    ((extract_append_of_high (b3 ++ b2 : BitVec (8 + 8)) b1 (a := 16) (k := 8) (by omega)).trans
      (extract_append_high b3 b2))

/-- A word whose lanes are given by a function has those lanes. -/
theorem laneOf_joinWord (b : Nat → Byte) {j : Nat} (hj : j < 4) :
    laneOf (joinWord (b 0) (b 1) (b 2) (b 3)) j = b j := by
  obtain rfl | rfl | rfl | rfl : j = 0 ∨ j = 1 ∨ j = 2 ∨ j = 3 := by omega
  · exact laneOf_joinWord_zero _ _ _ _
  · exact laneOf_joinWord_one _ _ _ _
  · exact laneOf_joinWord_two _ _ _ _
  · exact laneOf_joinWord_three _ _ _ _

theorem extract_append_append {n m k : Nat} (x : BitVec n) (y : BitVec m) (z : BitVec k) :
    (x ++ y ++ z).extractLsb' 0 (m + k) = y ++ z := by
  ext i hi
  rw [BitVec.getElem_extractLsb', BitVec.getLsbD_append, BitVec.getElem_append]
  split
  · rw [dif_pos (by omega), BitVec.getLsbD_eq_getElem (by omega)]; simp
  · rw [dif_neg (by omega), BitVec.getLsbD_append, if_pos (by omega), BitVec.getLsbD_eq_getElem (by omega)]; simp

/-- The low half of a word made of four bytes. -/
theorem joinWord_low (b0 b1 b2 b3 : Byte) : (joinWord b0 b1 b2 b3).extractLsb' 0 16 = joinHalf b0 b1 :=
  extract_append_append (b3 ++ b2 : BitVec (8 + 8)) b1 b0

/-- The high half of a word made of four bytes. -/
theorem joinWord_high (b0 b1 b2 b3 : Byte) : (joinWord b0 b1 b2 b3).extractLsb' 16 16 = joinHalf b2 b3 :=
  (extract_append_of_high (b3 ++ b2 ++ b1 : BitVec (8 + 8 + 8)) b0 (a := 16) (k := 16) (by omega)).trans
    ((extract_append_of_high (b3 ++ b2 : BitVec (8 + 8)) b1 (a := 8) (k := 16) (by omega)).trans
      (extract_self (b3 ++ b2)))

theorem extract_append_extract {w : Nat} (v : BitVec w) (a n m : Nat) :
    v.extractLsb' (a + m) n ++ v.extractLsb' a m = v.extractLsb' a (n + m) := by
  ext i hi
  rw [BitVec.getElem_append, BitVec.getElem_extractLsb']
  split
  · rw [BitVec.getElem_extractLsb']
  · rw [BitVec.getElem_extractLsb']; congr 1; omega

/-- A word is made of its lanes. -/
theorem joinWord_laneOf (v : Word) : joinWord (laneOf v 0) (laneOf v 1) (laneOf v 2) (laneOf v 3) = v := by
  have h2 := extract_append_extract v 16 8 8
  have h1 := extract_append_extract v 8 16 8
  have h0 := extract_append_extract v 0 24 8
  unfold joinWord laneOf
  exact (congrArg (· ++ v.extractLsb' 0 8) ((congrArg (· ++ v.extractLsb' 8 8) h2).trans h1)).trans
    (h0.trans (extract_self v))

/-- The low half of a word is its two low lanes. -/
theorem joinHalf_laneOf_low (v : Word) : joinHalf (laneOf v 0) (laneOf v 1) = v.extractLsb' 0 16 :=
  extract_append_extract v 0 8 8

/-- The high half of a word is its two high lanes. -/
theorem joinHalf_laneOf_high (v : Word) : joinHalf (laneOf v 2) (laneOf v 3) = v.extractLsb' 16 16 :=
  extract_append_extract v 16 8 8

/-- The lanes of the bus word at an address are the bytes from there on. -/
theorem laneOf_busWord (s : State) (a : Nat) {j : Nat} (hj : j < 4) : laneOf (s.busWord a) j = s.busByte (a + j) :=
  laneOf_joinWord (fun k => s.busByte (a + k)) hj

end Sys2Proof.Machine
end

