-- ==== Sys2Proof/Laws/Frames.lean ====
section
/-! SUPPORT. The frame of each operation: the records and buffers it leaves as they were, one lemma an operation,
its conjuncts used by `simp` one by one. Each lists exactly the fields that no rule of the operation names under
"State written". -/

namespace Sys2Proof.Machine

variable (s : State)

@[simp] theorem lpFilter_frame (x : Sample) :
    (lpFilter x s).format = s.format ∧ (lpFilter x s).samplePos = s.samplePos ∧ (lpFilter x s).hsync = s.hsync
    ∧ (lpFilter x s).vsync = s.vsync ∧ (lpFilter x s).levels = s.levels ∧ (lpFilter x s).acc = s.acc
    ∧ (lpFilter x s).pll = s.pll ∧ (lpFilter x s).lock = s.lock ∧ (lpFilter x s).lines = s.lines
    ∧ (lpFilter x s).asm = s.asm ∧ (lpFilter x s).diag = s.diag ∧ (lpFilter x s).host = s.host
    ∧ (lpFilter x s).lineBuf = s.lineBuf ∧ (lpFilter x s).field0 = s.field0 ∧ (lpFilter x s).field1 = s.field1
    ∧ (lpFilter x s).frame = s.frame ∧ (lpFilter x s).display = s.display ∧ (lpFilter x s).chunk = s.chunk
    ∧ (lpFilter x s).pending = s.pending ∧ (lpFilter x s).readData = s.readData
    ∧ (lpFilter x s).callPort = s.callPort ∧ (lpFilter x s).returned = s.returned
    ∧ (lpFilter x s).geom = s.geom :=
  ⟨rfl, rfl, rfl, rfl, rfl, rfl, rfl, rfl, rfl, rfl, rfl, rfl, rfl, rfl, rfl, rfl, rfl, rfl, rfl, rfl, rfl,
   rfl, rfl⟩

@[simp] theorem levelDerive_frame :
    (levelDerive s).format = s.format ∧ (levelDerive s).samplePos = s.samplePos
    ∧ (levelDerive s).filter = s.filter ∧ (levelDerive s).hsync = s.hsync ∧ (levelDerive s).vsync = s.vsync
    ∧ (levelDerive s).acc = s.acc ∧ (levelDerive s).pll = s.pll ∧ (levelDerive s).lock = s.lock
    ∧ (levelDerive s).lines = s.lines ∧ (levelDerive s).asm = s.asm ∧ (levelDerive s).diag = s.diag
    ∧ (levelDerive s).host = s.host ∧ (levelDerive s).lineBuf = s.lineBuf ∧ (levelDerive s).field0 = s.field0
    ∧ (levelDerive s).field1 = s.field1 ∧ (levelDerive s).frame = s.frame ∧ (levelDerive s).display = s.display
    ∧ (levelDerive s).chunk = s.chunk ∧ (levelDerive s).pending = s.pending
    ∧ (levelDerive s).readData = s.readData ∧ (levelDerive s).callPort = s.callPort
    ∧ (levelDerive s).returned = s.returned ∧ (levelDerive s).geom = s.geom :=
  ⟨rfl, rfl, rfl, rfl, rfl, rfl, rfl, rfl, rfl, rfl, rfl, rfl, rfl, rfl, rfl, rfl, rfl, rfl, rfl, rfl, rfl,
   rfl, rfl⟩

@[simp] theorem levelBootstrap_frame (mn mx : Int) :
    (levelBootstrap mn mx s).format = s.format ∧ (levelBootstrap mn mx s).samplePos = s.samplePos
    ∧ (levelBootstrap mn mx s).filter = s.filter ∧ (levelBootstrap mn mx s).hsync = s.hsync
    ∧ (levelBootstrap mn mx s).vsync = s.vsync ∧ (levelBootstrap mn mx s).pll = s.pll
    ∧ (levelBootstrap mn mx s).lock = s.lock ∧ (levelBootstrap mn mx s).lines = s.lines
    ∧ (levelBootstrap mn mx s).asm = s.asm ∧ (levelBootstrap mn mx s).diag = s.diag
    ∧ (levelBootstrap mn mx s).host = s.host ∧ (levelBootstrap mn mx s).lineBuf = s.lineBuf
    ∧ (levelBootstrap mn mx s).field0 = s.field0 ∧ (levelBootstrap mn mx s).field1 = s.field1
    ∧ (levelBootstrap mn mx s).frame = s.frame ∧ (levelBootstrap mn mx s).display = s.display
    ∧ (levelBootstrap mn mx s).chunk = s.chunk ∧ (levelBootstrap mn mx s).pending = s.pending
    ∧ (levelBootstrap mn mx s).readData = s.readData ∧ (levelBootstrap mn mx s).callPort = s.callPort
    ∧ (levelBootstrap mn mx s).returned = s.returned ∧ (levelBootstrap mn mx s).geom = s.geom :=
  ⟨rfl, rfl, rfl, rfl, rfl, rfl, rfl, rfl, rfl, rfl, rfl, rfl, rfl, rfl, rfl, rfl, rfl, rfl, rfl, rfl, rfl, rfl⟩

@[simp] theorem levelCommit_frame :
    (levelCommit s).format = s.format ∧ (levelCommit s).samplePos = s.samplePos
    ∧ (levelCommit s).filter = s.filter ∧ (levelCommit s).hsync = s.hsync ∧ (levelCommit s).vsync = s.vsync
    ∧ (levelCommit s).pll = s.pll ∧ (levelCommit s).lock = s.lock ∧ (levelCommit s).lines = s.lines
    ∧ (levelCommit s).asm = s.asm ∧ (levelCommit s).diag = s.diag ∧ (levelCommit s).host = s.host
    ∧ (levelCommit s).lineBuf = s.lineBuf ∧ (levelCommit s).field0 = s.field0
    ∧ (levelCommit s).field1 = s.field1 ∧ (levelCommit s).frame = s.frame ∧ (levelCommit s).display = s.display
    ∧ (levelCommit s).chunk = s.chunk ∧ (levelCommit s).pending = s.pending
    ∧ (levelCommit s).readData = s.readData ∧ (levelCommit s).callPort = s.callPort
    ∧ (levelCommit s).returned = s.returned ∧ (levelCommit s).geom = s.geom :=
  ⟨rfl, rfl, rfl, rfl, rfl, rfl, rfl, rfl, rfl, rfl, rfl, rfl, rfl, rfl, rfl, rfl, rfl, rfl, rfl, rfl, rfl, rfl⟩

@[simp] theorem levelAccumulate_frame (y : Int) :
    (levelAccumulate y s).format = s.format ∧ (levelAccumulate y s).samplePos = s.samplePos
    ∧ (levelAccumulate y s).filter = s.filter ∧ (levelAccumulate y s).hsync = s.hsync
    ∧ (levelAccumulate y s).vsync = s.vsync ∧ (levelAccumulate y s).levels = s.levels
    ∧ (levelAccumulate y s).pll = s.pll ∧ (levelAccumulate y s).lock = s.lock
    ∧ (levelAccumulate y s).lines = s.lines ∧ (levelAccumulate y s).asm = s.asm
    ∧ (levelAccumulate y s).diag = s.diag ∧ (levelAccumulate y s).host = s.host
    ∧ (levelAccumulate y s).lineBuf = s.lineBuf ∧ (levelAccumulate y s).field0 = s.field0
    ∧ (levelAccumulate y s).field1 = s.field1 ∧ (levelAccumulate y s).frame = s.frame
    ∧ (levelAccumulate y s).display = s.display ∧ (levelAccumulate y s).chunk = s.chunk
    ∧ (levelAccumulate y s).pending = s.pending ∧ (levelAccumulate y s).readData = s.readData
    ∧ (levelAccumulate y s).callPort = s.callPort ∧ (levelAccumulate y s).returned = s.returned
    ∧ (levelAccumulate y s).geom = s.geom :=
  ⟨rfl, rfl, rfl, rfl, rfl, rfl, rfl, rfl, rfl, rfl, rfl, rfl, rfl, rfl, rfl, rfl, rfl, rfl, rfl, rfl, rfl,
   rfl, rfl⟩

@[simp] theorem phaseError_frame :
    (phaseError s).format = s.format ∧ (phaseError s).samplePos = s.samplePos
    ∧ (phaseError s).filter = s.filter ∧ (phaseError s).hsync = s.hsync ∧ (phaseError s).vsync = s.vsync
    ∧ (phaseError s).levels = s.levels ∧ (phaseError s).acc = s.acc ∧ (phaseError s).lock = s.lock
    ∧ (phaseError s).lines = s.lines ∧ (phaseError s).asm = s.asm ∧ (phaseError s).diag = s.diag
    ∧ (phaseError s).host = s.host ∧ (phaseError s).lineBuf = s.lineBuf ∧ (phaseError s).field0 = s.field0
    ∧ (phaseError s).field1 = s.field1 ∧ (phaseError s).frame = s.frame ∧ (phaseError s).display = s.display
    ∧ (phaseError s).chunk = s.chunk ∧ (phaseError s).pending = s.pending
    ∧ (phaseError s).readData = s.readData ∧ (phaseError s).callPort = s.callPort
    ∧ (phaseError s).returned = s.returned ∧ (phaseError s).geom = s.geom :=
  ⟨rfl, rfl, rfl, rfl, rfl, rfl, rfl, rfl, rfl, rfl, rfl, rfl, rfl, rfl, rfl, rfl, rfl, rfl, rfl, rfl, rfl,
   rfl, rfl⟩

@[simp] theorem lockUpdate_frame :
    (lockUpdate s).format = s.format ∧ (lockUpdate s).samplePos = s.samplePos
    ∧ (lockUpdate s).filter = s.filter ∧ (lockUpdate s).hsync = s.hsync ∧ (lockUpdate s).vsync = s.vsync
    ∧ (lockUpdate s).levels = s.levels ∧ (lockUpdate s).acc = s.acc ∧ (lockUpdate s).pll = s.pll
    ∧ (lockUpdate s).lines = s.lines ∧ (lockUpdate s).asm = s.asm ∧ (lockUpdate s).diag = s.diag
    ∧ (lockUpdate s).host = s.host ∧ (lockUpdate s).lineBuf = s.lineBuf ∧ (lockUpdate s).field0 = s.field0
    ∧ (lockUpdate s).field1 = s.field1 ∧ (lockUpdate s).frame = s.frame ∧ (lockUpdate s).display = s.display
    ∧ (lockUpdate s).chunk = s.chunk ∧ (lockUpdate s).pending = s.pending
    ∧ (lockUpdate s).readData = s.readData ∧ (lockUpdate s).callPort = s.callPort
    ∧ (lockUpdate s).returned = s.returned ∧ (lockUpdate s).geom = s.geom :=
  ⟨rfl, rfl, rfl, rfl, rfl, rfl, rfl, rfl, rfl, rfl, rfl, rfl, rfl, rfl, rfl, rfl, rfl, rfl, rfl, rfl, rfl,
   rfl, rfl⟩

@[simp] theorem pllCorrect_frame :
    (pllCorrect s).format = s.format ∧ (pllCorrect s).samplePos = s.samplePos
    ∧ (pllCorrect s).filter = s.filter ∧ (pllCorrect s).hsync = s.hsync ∧ (pllCorrect s).vsync = s.vsync
    ∧ (pllCorrect s).levels = s.levels ∧ (pllCorrect s).acc = s.acc ∧ (pllCorrect s).lock = s.lock
    ∧ (pllCorrect s).lines = s.lines ∧ (pllCorrect s).asm = s.asm ∧ (pllCorrect s).diag = s.diag
    ∧ (pllCorrect s).host = s.host ∧ (pllCorrect s).lineBuf = s.lineBuf ∧ (pllCorrect s).field0 = s.field0
    ∧ (pllCorrect s).field1 = s.field1 ∧ (pllCorrect s).frame = s.frame ∧ (pllCorrect s).display = s.display
    ∧ (pllCorrect s).chunk = s.chunk ∧ (pllCorrect s).pending = s.pending
    ∧ (pllCorrect s).readData = s.readData ∧ (pllCorrect s).callPort = s.callPort
    ∧ (pllCorrect s).returned = s.returned ∧ (pllCorrect s).geom = s.geom :=
  ⟨rfl, rfl, rfl, rfl, rfl, rfl, rfl, rfl, rfl, rfl, rfl, rfl, rfl, rfl, rfl, rfl, rfl, rfl, rfl, rfl, rfl,
   rfl, rfl⟩

@[simp] theorem pllEvent_frame :
    (pllEvent s).format = s.format ∧ (pllEvent s).samplePos = s.samplePos ∧ (pllEvent s).filter = s.filter
    ∧ (pllEvent s).hsync = s.hsync ∧ (pllEvent s).vsync = s.vsync ∧ (pllEvent s).levels = s.levels
    ∧ (pllEvent s).acc = s.acc ∧ (pllEvent s).lines = s.lines ∧ (pllEvent s).asm = s.asm
    ∧ (pllEvent s).diag = s.diag ∧ (pllEvent s).host = s.host ∧ (pllEvent s).lineBuf = s.lineBuf
    ∧ (pllEvent s).field0 = s.field0 ∧ (pllEvent s).field1 = s.field1 ∧ (pllEvent s).frame = s.frame
    ∧ (pllEvent s).display = s.display ∧ (pllEvent s).chunk = s.chunk ∧ (pllEvent s).pending = s.pending
    ∧ (pllEvent s).readData = s.readData ∧ (pllEvent s).callPort = s.callPort
    ∧ (pllEvent s).returned = s.returned ∧ (pllEvent s).geom = s.geom := by
  simp only [pllEvent]; split <;> simp

@[simp] theorem vsyncEdge_frame (fall : Bool) (p : Position) :
    ((vsyncEdge fall p s).2).format = s.format ∧ ((vsyncEdge fall p s).2).samplePos = s.samplePos
    ∧ ((vsyncEdge fall p s).2).filter = s.filter ∧ ((vsyncEdge fall p s).2).hsync = s.hsync
    ∧ ((vsyncEdge fall p s).2).levels = s.levels ∧ ((vsyncEdge fall p s).2).acc = s.acc
    ∧ ((vsyncEdge fall p s).2).pll = s.pll ∧ ((vsyncEdge fall p s).2).lock = s.lock
    ∧ ((vsyncEdge fall p s).2).lines = s.lines ∧ ((vsyncEdge fall p s).2).asm = s.asm
    ∧ ((vsyncEdge fall p s).2).diag = s.diag ∧ ((vsyncEdge fall p s).2).host = s.host
    ∧ ((vsyncEdge fall p s).2).lineBuf = s.lineBuf ∧ ((vsyncEdge fall p s).2).field0 = s.field0
    ∧ ((vsyncEdge fall p s).2).field1 = s.field1 ∧ ((vsyncEdge fall p s).2).frame = s.frame
    ∧ ((vsyncEdge fall p s).2).display = s.display ∧ ((vsyncEdge fall p s).2).chunk = s.chunk
    ∧ ((vsyncEdge fall p s).2).pending = s.pending ∧ ((vsyncEdge fall p s).2).readData = s.readData
    ∧ ((vsyncEdge fall p s).2).callPort = s.callPort ∧ ((vsyncEdge fall p s).2).returned = s.returned
    ∧ ((vsyncEdge fall p s).2).geom = s.geom := by
  cases fall <;> simp [vsyncEdge, State.geom]

@[simp] theorem hsyncEdge_frame (fall rise : Bool) (p : Position) :
    ((hsyncEdge fall rise p s).2).format = s.format ∧ ((hsyncEdge fall rise p s).2).samplePos = s.samplePos
    ∧ ((hsyncEdge fall rise p s).2).filter = s.filter ∧ ((hsyncEdge fall rise p s).2).vsync = s.vsync
    ∧ ((hsyncEdge fall rise p s).2).levels = s.levels ∧ ((hsyncEdge fall rise p s).2).acc = s.acc
    ∧ ((hsyncEdge fall rise p s).2).pll = s.pll ∧ ((hsyncEdge fall rise p s).2).lock = s.lock
    ∧ ((hsyncEdge fall rise p s).2).lines = s.lines ∧ ((hsyncEdge fall rise p s).2).asm = s.asm
    ∧ ((hsyncEdge fall rise p s).2).diag = s.diag ∧ ((hsyncEdge fall rise p s).2).host = s.host
    ∧ ((hsyncEdge fall rise p s).2).lineBuf = s.lineBuf ∧ ((hsyncEdge fall rise p s).2).field0 = s.field0
    ∧ ((hsyncEdge fall rise p s).2).field1 = s.field1 ∧ ((hsyncEdge fall rise p s).2).frame = s.frame
    ∧ ((hsyncEdge fall rise p s).2).display = s.display ∧ ((hsyncEdge fall rise p s).2).chunk = s.chunk
    ∧ ((hsyncEdge fall rise p s).2).pending = s.pending ∧ ((hsyncEdge fall rise p s).2).readData = s.readData
    ∧ ((hsyncEdge fall rise p s).2).callPort = s.callPort ∧ ((hsyncEdge fall rise p s).2).returned = s.returned
    ∧ ((hsyncEdge fall rise p s).2).geom = s.geom := by
  simp only [hsyncEdge]; split
  · simp [State.geom]
  · split <;> simp [State.geom]

@[simp] theorem lineAppend_frame (x : Sample) :
    (lineAppend x s).format = s.format ∧ (lineAppend x s).samplePos = s.samplePos
    ∧ (lineAppend x s).filter = s.filter ∧ (lineAppend x s).hsync = s.hsync ∧ (lineAppend x s).vsync = s.vsync
    ∧ (lineAppend x s).levels = s.levels ∧ (lineAppend x s).acc = s.acc ∧ (lineAppend x s).pll = s.pll
    ∧ (lineAppend x s).lock = s.lock ∧ (lineAppend x s).lines = s.lines ∧ (lineAppend x s).asm = s.asm
    ∧ (lineAppend x s).diag = s.diag ∧ (lineAppend x s).host = s.host ∧ (lineAppend x s).field0 = s.field0
    ∧ (lineAppend x s).field1 = s.field1 ∧ (lineAppend x s).frame = s.frame
    ∧ (lineAppend x s).display = s.display ∧ (lineAppend x s).chunk = s.chunk
    ∧ (lineAppend x s).pending = s.pending ∧ (lineAppend x s).readData = s.readData
    ∧ (lineAppend x s).callPort = s.callPort ∧ (lineAppend x s).returned = s.returned
    ∧ (lineAppend x s).geom = s.geom := by
  simp only [lineAppend]; split <;> simp [State.geom]

@[simp] theorem writeLineRow_frame :
    (writeLineRow s).format = s.format ∧ (writeLineRow s).samplePos = s.samplePos
    ∧ (writeLineRow s).filter = s.filter ∧ (writeLineRow s).hsync = s.hsync ∧ (writeLineRow s).vsync = s.vsync
    ∧ (writeLineRow s).levels = s.levels ∧ (writeLineRow s).acc = s.acc ∧ (writeLineRow s).pll = s.pll
    ∧ (writeLineRow s).lock = s.lock ∧ (writeLineRow s).lines = s.lines ∧ (writeLineRow s).asm = s.asm
    ∧ (writeLineRow s).diag = s.diag ∧ (writeLineRow s).host = s.host ∧ (writeLineRow s).lineBuf = s.lineBuf
    ∧ (writeLineRow s).frame = s.frame ∧ (writeLineRow s).display = s.display
    ∧ (writeLineRow s).chunk = s.chunk ∧ (writeLineRow s).pending = s.pending
    ∧ (writeLineRow s).readData = s.readData ∧ (writeLineRow s).callPort = s.callPort
    ∧ (writeLineRow s).returned = s.returned ∧ (writeLineRow s).geom = s.geom := by
  simp [writeLineRow]

@[simp] theorem lineDecode_frame :
    (lineDecode s).format = s.format ∧ (lineDecode s).samplePos = s.samplePos
    ∧ (lineDecode s).filter = s.filter ∧ (lineDecode s).hsync = s.hsync ∧ (lineDecode s).vsync = s.vsync
    ∧ (lineDecode s).levels = s.levels ∧ (lineDecode s).acc = s.acc ∧ (lineDecode s).pll = s.pll
    ∧ (lineDecode s).lock = s.lock ∧ (lineDecode s).asm = s.asm ∧ (lineDecode s).diag = s.diag
    ∧ (lineDecode s).host = s.host ∧ (lineDecode s).frame = s.frame ∧ (lineDecode s).display = s.display
    ∧ (lineDecode s).chunk = s.chunk ∧ (lineDecode s).pending = s.pending
    ∧ (lineDecode s).readData = s.readData ∧ (lineDecode s).callPort = s.callPort
    ∧ (lineDecode s).returned = s.returned ∧ (lineDecode s).geom = s.geom := by
  simp only [lineDecode]; split <;> simp [State.geom]

@[simp] theorem lineBoundary_frame :
    (lineBoundary s).format = s.format ∧ (lineBoundary s).samplePos = s.samplePos
    ∧ (lineBoundary s).filter = s.filter ∧ (lineBoundary s).hsync = s.hsync ∧ (lineBoundary s).vsync = s.vsync
    ∧ (lineBoundary s).levels = s.levels ∧ (lineBoundary s).acc = s.acc ∧ (lineBoundary s).lock = s.lock
    ∧ (lineBoundary s).asm = s.asm ∧ (lineBoundary s).diag = s.diag ∧ (lineBoundary s).host = s.host
    ∧ (lineBoundary s).frame = s.frame ∧ (lineBoundary s).display = s.display
    ∧ (lineBoundary s).chunk = s.chunk ∧ (lineBoundary s).pending = s.pending
    ∧ (lineBoundary s).readData = s.readData ∧ (lineBoundary s).callPort = s.callPort
    ∧ (lineBoundary s).returned = s.returned ∧ (lineBoundary s).geom = s.geom := by
  simp [lineBoundary, State.geom]

@[simp] theorem pllAdvance_frame :
    (pllAdvance s).format = s.format ∧ (pllAdvance s).samplePos = s.samplePos
    ∧ (pllAdvance s).filter = s.filter ∧ (pllAdvance s).hsync = s.hsync ∧ (pllAdvance s).vsync = s.vsync
    ∧ (pllAdvance s).levels = s.levels ∧ (pllAdvance s).acc = s.acc ∧ (pllAdvance s).lock = s.lock
    ∧ (pllAdvance s).asm = s.asm ∧ (pllAdvance s).diag = s.diag ∧ (pllAdvance s).host = s.host
    ∧ (pllAdvance s).frame = s.frame ∧ (pllAdvance s).display = s.display ∧ (pllAdvance s).chunk = s.chunk
    ∧ (pllAdvance s).pending = s.pending ∧ (pllAdvance s).readData = s.readData
    ∧ (pllAdvance s).callPort = s.callPort ∧ (pllAdvance s).returned = s.returned
    ∧ (pllAdvance s).geom = s.geom := by
  simp only [pllAdvance]; split <;> simp [State.geom]

@[simp] theorem withFrameRows_frame (f : Nat → Nat → Byte) :
    (s.withFrameRows f).format = s.format ∧ (s.withFrameRows f).samplePos = s.samplePos
    ∧ (s.withFrameRows f).filter = s.filter ∧ (s.withFrameRows f).hsync = s.hsync
    ∧ (s.withFrameRows f).vsync = s.vsync ∧ (s.withFrameRows f).levels = s.levels
    ∧ (s.withFrameRows f).acc = s.acc ∧ (s.withFrameRows f).pll = s.pll ∧ (s.withFrameRows f).lock = s.lock
    ∧ (s.withFrameRows f).lines = s.lines ∧ (s.withFrameRows f).asm = s.asm ∧ (s.withFrameRows f).diag = s.diag
    ∧ (s.withFrameRows f).host = s.host ∧ (s.withFrameRows f).lineBuf = s.lineBuf
    ∧ (s.withFrameRows f).field0 = s.field0 ∧ (s.withFrameRows f).field1 = s.field1
    ∧ (s.withFrameRows f).display = s.display ∧ (s.withFrameRows f).chunk = s.chunk
    ∧ (s.withFrameRows f).pending = s.pending ∧ (s.withFrameRows f).readData = s.readData
    ∧ (s.withFrameRows f).callPort = s.callPort ∧ (s.withFrameRows f).returned = s.returned
    ∧ (s.withFrameRows f).geom = s.geom :=
  ⟨rfl, rfl, rfl, rfl, rfl, rfl, rfl, rfl, rfl, rfl, rfl, rfl, rfl, rfl, rfl, rfl, rfl, rfl, rfl, rfl, rfl,
   rfl, rfl⟩

@[simp] theorem deinterlaceCore_frame :
    (deinterlaceCore s).format = s.format ∧ (deinterlaceCore s).samplePos = s.samplePos
    ∧ (deinterlaceCore s).filter = s.filter ∧ (deinterlaceCore s).hsync = s.hsync
    ∧ (deinterlaceCore s).vsync = s.vsync ∧ (deinterlaceCore s).levels = s.levels
    ∧ (deinterlaceCore s).acc = s.acc ∧ (deinterlaceCore s).pll = s.pll ∧ (deinterlaceCore s).lock = s.lock
    ∧ (deinterlaceCore s).lines = s.lines ∧ (deinterlaceCore s).asm = s.asm ∧ (deinterlaceCore s).diag = s.diag
    ∧ (deinterlaceCore s).host = s.host ∧ (deinterlaceCore s).lineBuf = s.lineBuf
    ∧ (deinterlaceCore s).field0 = s.field0 ∧ (deinterlaceCore s).field1 = s.field1
    ∧ (deinterlaceCore s).display = s.display ∧ (deinterlaceCore s).chunk = s.chunk
    ∧ (deinterlaceCore s).pending = s.pending ∧ (deinterlaceCore s).readData = s.readData
    ∧ (deinterlaceCore s).callPort = s.callPort ∧ (deinterlaceCore s).returned = s.returned
    ∧ (deinterlaceCore s).geom = s.geom := by
  simp only [deinterlaceCore]; split
  · simp
  · split
    · simp
    · split <;> simp

@[simp] theorem displayCopy_frame :
    (displayCopy s).format = s.format ∧ (displayCopy s).samplePos = s.samplePos
    ∧ (displayCopy s).filter = s.filter ∧ (displayCopy s).hsync = s.hsync ∧ (displayCopy s).vsync = s.vsync
    ∧ (displayCopy s).levels = s.levels ∧ (displayCopy s).acc = s.acc ∧ (displayCopy s).pll = s.pll
    ∧ (displayCopy s).lock = s.lock ∧ (displayCopy s).lines = s.lines ∧ (displayCopy s).diag = s.diag
    ∧ (displayCopy s).host = s.host ∧ (displayCopy s).lineBuf = s.lineBuf ∧ (displayCopy s).field0 = s.field0
    ∧ (displayCopy s).field1 = s.field1 ∧ (displayCopy s).frame = s.frame ∧ (displayCopy s).chunk = s.chunk
    ∧ (displayCopy s).pending = s.pending ∧ (displayCopy s).readData = s.readData
    ∧ (displayCopy s).callPort = s.callPort ∧ (displayCopy s).returned = s.returned
    ∧ (displayCopy s).geom = s.geom :=
  ⟨rfl, rfl, rfl, rfl, rfl, rfl, rfl, rfl, rfl, rfl, rfl, rfl, rfl, rfl, rfl, rfl, rfl, rfl, rfl, rfl, rfl, rfl⟩

@[simp] theorem markReady_frame (b : FieldId) :
    (markReady b s).format = s.format ∧ (markReady b s).samplePos = s.samplePos
    ∧ (markReady b s).filter = s.filter ∧ (markReady b s).hsync = s.hsync ∧ (markReady b s).vsync = s.vsync
    ∧ (markReady b s).levels = s.levels ∧ (markReady b s).acc = s.acc ∧ (markReady b s).pll = s.pll
    ∧ (markReady b s).lock = s.lock ∧ (markReady b s).lines = s.lines ∧ (markReady b s).diag = s.diag
    ∧ (markReady b s).host = s.host ∧ (markReady b s).lineBuf = s.lineBuf ∧ (markReady b s).field0 = s.field0
    ∧ (markReady b s).field1 = s.field1 ∧ (markReady b s).frame = s.frame ∧ (markReady b s).display = s.display
    ∧ (markReady b s).chunk = s.chunk ∧ (markReady b s).pending = s.pending
    ∧ (markReady b s).readData = s.readData ∧ (markReady b s).callPort = s.callPort
    ∧ (markReady b s).returned = s.returned ∧ (markReady b s).geom = s.geom := by
  cases b <;> simp [markReady, State.geom]

@[simp] theorem countFrame_frame :
    (countFrame s).format = s.format ∧ (countFrame s).samplePos = s.samplePos
    ∧ (countFrame s).filter = s.filter ∧ (countFrame s).hsync = s.hsync ∧ (countFrame s).vsync = s.vsync
    ∧ (countFrame s).levels = s.levels ∧ (countFrame s).acc = s.acc ∧ (countFrame s).pll = s.pll
    ∧ (countFrame s).lock = s.lock ∧ (countFrame s).lines = s.lines ∧ (countFrame s).asm = s.asm
    ∧ (countFrame s).host = s.host ∧ (countFrame s).lineBuf = s.lineBuf ∧ (countFrame s).field0 = s.field0
    ∧ (countFrame s).field1 = s.field1 ∧ (countFrame s).frame = s.frame ∧ (countFrame s).display = s.display
    ∧ (countFrame s).chunk = s.chunk ∧ (countFrame s).pending = s.pending
    ∧ (countFrame s).readData = s.readData ∧ (countFrame s).callPort = s.callPort
    ∧ (countFrame s).returned = s.returned ∧ (countFrame s).geom = s.geom := by
  simp only [countFrame]; split <;> simp [State.geom]

@[simp] theorem assembleField_frame :
    (assembleField s).format = s.format ∧ (assembleField s).samplePos = s.samplePos
    ∧ (assembleField s).filter = s.filter ∧ (assembleField s).hsync = s.hsync
    ∧ (assembleField s).vsync = s.vsync ∧ (assembleField s).levels = s.levels ∧ (assembleField s).acc = s.acc
    ∧ (assembleField s).pll = s.pll ∧ (assembleField s).lock = s.lock ∧ (assembleField s).lines = s.lines
    ∧ (assembleField s).host = s.host ∧ (assembleField s).lineBuf = s.lineBuf
    ∧ (assembleField s).field0 = s.field0 ∧ (assembleField s).field1 = s.field1
    ∧ (assembleField s).chunk = s.chunk ∧ (assembleField s).pending = s.pending
    ∧ (assembleField s).readData = s.readData ∧ (assembleField s).callPort = s.callPort
    ∧ (assembleField s).returned = s.returned ∧ (assembleField s).geom = s.geom := by
  simp [assembleField]

@[simp] theorem startNewField_frame :
    (startNewField s).format = s.format ∧ (startNewField s).samplePos = s.samplePos
    ∧ (startNewField s).filter = s.filter ∧ (startNewField s).hsync = s.hsync
    ∧ (startNewField s).vsync = s.vsync ∧ (startNewField s).pll = s.pll ∧ (startNewField s).lock = s.lock
    ∧ (startNewField s).host = s.host ∧ (startNewField s).lineBuf = s.lineBuf
    ∧ (startNewField s).field0 = s.field0 ∧ (startNewField s).field1 = s.field1
    ∧ (startNewField s).chunk = s.chunk ∧ (startNewField s).pending = s.pending
    ∧ (startNewField s).readData = s.readData ∧ (startNewField s).callPort = s.callPort
    ∧ (startNewField s).returned = s.returned ∧ (startNewField s).geom = s.geom := by
  simp only [startNewField]; split <;> simp [State.geom]

@[simp] theorem filterAndAccumulate_frame (x : Sample) :
    (filterAndAccumulate x s).format = s.format ∧ (filterAndAccumulate x s).samplePos = s.samplePos
    ∧ (filterAndAccumulate x s).hsync = s.hsync ∧ (filterAndAccumulate x s).vsync = s.vsync
    ∧ (filterAndAccumulate x s).levels = s.levels ∧ (filterAndAccumulate x s).pll = s.pll
    ∧ (filterAndAccumulate x s).lock = s.lock ∧ (filterAndAccumulate x s).lines = s.lines
    ∧ (filterAndAccumulate x s).asm = s.asm ∧ (filterAndAccumulate x s).diag = s.diag
    ∧ (filterAndAccumulate x s).host = s.host ∧ (filterAndAccumulate x s).lineBuf = s.lineBuf
    ∧ (filterAndAccumulate x s).field0 = s.field0 ∧ (filterAndAccumulate x s).field1 = s.field1
    ∧ (filterAndAccumulate x s).frame = s.frame ∧ (filterAndAccumulate x s).display = s.display
    ∧ (filterAndAccumulate x s).chunk = s.chunk ∧ (filterAndAccumulate x s).pending = s.pending
    ∧ (filterAndAccumulate x s).readData = s.readData ∧ (filterAndAccumulate x s).callPort = s.callPort
    ∧ (filterAndAccumulate x s).returned = s.returned ∧ (filterAndAccumulate x s).geom = s.geom := by
  simp only [filterAndAccumulate]; split <;> simp

@[simp] theorem appendAndAdvance_frame (x : Sample) :
    (appendAndAdvance x s).format = s.format ∧ (appendAndAdvance x s).samplePos = s.samplePos
    ∧ (appendAndAdvance x s).filter = s.filter ∧ (appendAndAdvance x s).hsync = s.hsync
    ∧ (appendAndAdvance x s).vsync = s.vsync ∧ (appendAndAdvance x s).levels = s.levels
    ∧ (appendAndAdvance x s).acc = s.acc ∧ (appendAndAdvance x s).lock = s.lock
    ∧ (appendAndAdvance x s).asm = s.asm ∧ (appendAndAdvance x s).diag = s.diag
    ∧ (appendAndAdvance x s).host = s.host ∧ (appendAndAdvance x s).frame = s.frame
    ∧ (appendAndAdvance x s).display = s.display ∧ (appendAndAdvance x s).chunk = s.chunk
    ∧ (appendAndAdvance x s).pending = s.pending ∧ (appendAndAdvance x s).readData = s.readData
    ∧ (appendAndAdvance x s).callPort = s.callPort ∧ (appendAndAdvance x s).returned = s.returned
    ∧ (appendAndAdvance x s).geom = s.geom := by
  simp [appendAndAdvance]

@[simp] theorem sampleStep_frame (x : Sample) :
    (sampleStep x s).format = s.format ∧ (sampleStep x s).host = s.host ∧ (sampleStep x s).chunk = s.chunk
    ∧ (sampleStep x s).pending = s.pending ∧ (sampleStep x s).readData = s.readData
    ∧ (sampleStep x s).callPort = s.callPort ∧ (sampleStep x s).returned = s.returned
    ∧ (sampleStep x s).geom = s.geom := by
  simp only [sampleStep]; split <;> split <;> simp [State.geom]

@[simp] theorem sampleSteps_frame (xs : List Sample) :
    (sampleSteps xs s).format = s.format ∧ (sampleSteps xs s).host = s.host
    ∧ (sampleSteps xs s).chunk = s.chunk ∧ (sampleSteps xs s).pending = s.pending
    ∧ (sampleSteps xs s).readData = s.readData ∧ (sampleSteps xs s).callPort = s.callPort
    ∧ (sampleSteps xs s).returned = s.returned ∧ (sampleSteps xs s).geom = s.geom := by
  induction xs generalizing s with
  | nil => simp [sampleSteps]
  | cons x xs ih => simpa [sampleSteps] using ih (sampleStep x s)

@[simp] theorem bootstrapOnce_frame (xs : List Sample) :
    (bootstrapOnce xs s).format = s.format ∧ (bootstrapOnce xs s).samplePos = s.samplePos
    ∧ (bootstrapOnce xs s).filter = s.filter ∧ (bootstrapOnce xs s).hsync = s.hsync
    ∧ (bootstrapOnce xs s).vsync = s.vsync ∧ (bootstrapOnce xs s).pll = s.pll
    ∧ (bootstrapOnce xs s).lock = s.lock ∧ (bootstrapOnce xs s).lines = s.lines
    ∧ (bootstrapOnce xs s).asm = s.asm ∧ (bootstrapOnce xs s).diag = s.diag
    ∧ (bootstrapOnce xs s).host = s.host ∧ (bootstrapOnce xs s).lineBuf = s.lineBuf
    ∧ (bootstrapOnce xs s).field0 = s.field0 ∧ (bootstrapOnce xs s).field1 = s.field1
    ∧ (bootstrapOnce xs s).frame = s.frame ∧ (bootstrapOnce xs s).display = s.display
    ∧ (bootstrapOnce xs s).chunk = s.chunk ∧ (bootstrapOnce xs s).pending = s.pending
    ∧ (bootstrapOnce xs s).readData = s.readData ∧ (bootstrapOnce xs s).callPort = s.callPort
    ∧ (bootstrapOnce xs s).returned = s.returned ∧ (bootstrapOnce xs s).geom = s.geom := by
  simp only [bootstrapOnce]; split <;> simp

@[simp] theorem countSyncError_frame :
    (countSyncError s).format = s.format ∧ (countSyncError s).samplePos = s.samplePos
    ∧ (countSyncError s).filter = s.filter ∧ (countSyncError s).hsync = s.hsync
    ∧ (countSyncError s).vsync = s.vsync ∧ (countSyncError s).levels = s.levels
    ∧ (countSyncError s).acc = s.acc ∧ (countSyncError s).pll = s.pll ∧ (countSyncError s).lock = s.lock
    ∧ (countSyncError s).lines = s.lines ∧ (countSyncError s).asm = s.asm ∧ (countSyncError s).host = s.host
    ∧ (countSyncError s).lineBuf = s.lineBuf ∧ (countSyncError s).field0 = s.field0
    ∧ (countSyncError s).field1 = s.field1 ∧ (countSyncError s).frame = s.frame
    ∧ (countSyncError s).display = s.display ∧ (countSyncError s).chunk = s.chunk
    ∧ (countSyncError s).pending = s.pending ∧ (countSyncError s).readData = s.readData
    ∧ (countSyncError s).callPort = s.callPort ∧ (countSyncError s).returned = s.returned
    ∧ (countSyncError s).geom = s.geom :=
  ⟨rfl, rfl, rfl, rfl, rfl, rfl, rfl, rfl, rfl, rfl, rfl, rfl, rfl, rfl, rfl, rfl, rfl, rfl, rfl, rfl, rfl,
   rfl, rfl⟩

@[simp] theorem formatReset_frame :
    (formatReset s).format = s.format ∧ (formatReset s).diag = s.diag ∧ (formatReset s).host = s.host
    ∧ (formatReset s).chunk = s.chunk ∧ (formatReset s).pending = s.pending
    ∧ (formatReset s).readData = s.readData ∧ (formatReset s).callPort = s.callPort
    ∧ (formatReset s).returned = s.returned ∧ (formatReset s).geom = s.geom :=
  ⟨rfl, rfl, rfl, rfl, rfl, rfl, rfl, rfl, rfl⟩

@[simp] theorem selectFormat_frame (f : Format) :
    (selectFormat f s).samplePos = s.samplePos ∧ (selectFormat f s).filter = s.filter
    ∧ (selectFormat f s).hsync = s.hsync ∧ (selectFormat f s).vsync = s.vsync
    ∧ (selectFormat f s).levels = s.levels ∧ (selectFormat f s).acc = s.acc ∧ (selectFormat f s).pll = s.pll
    ∧ (selectFormat f s).lock = s.lock ∧ (selectFormat f s).lines = s.lines ∧ (selectFormat f s).asm = s.asm
    ∧ (selectFormat f s).host = s.host ∧ (selectFormat f s).lineBuf = s.lineBuf
    ∧ (selectFormat f s).field0 = s.field0 ∧ (selectFormat f s).field1 = s.field1
    ∧ (selectFormat f s).frame = s.frame ∧ (selectFormat f s).display = s.display
    ∧ (selectFormat f s).chunk = s.chunk ∧ (selectFormat f s).pending = s.pending
    ∧ (selectFormat f s).readData = s.readData ∧ (selectFormat f s).callPort = s.callPort
    ∧ (selectFormat f s).returned = s.returned :=
  ⟨rfl, rfl, rfl, rfl, rfl, rfl, rfl, rfl, rfl, rfl, rfl, rfl, rfl, rfl, rfl, rfl, rfl, rfl, rfl, rfl, rfl⟩

@[simp] theorem ackFlags_frame (d e : Bool) :
    (ackFlags d e s).format = s.format ∧ (ackFlags d e s).samplePos = s.samplePos
    ∧ (ackFlags d e s).filter = s.filter ∧ (ackFlags d e s).hsync = s.hsync ∧ (ackFlags d e s).vsync = s.vsync
    ∧ (ackFlags d e s).levels = s.levels ∧ (ackFlags d e s).acc = s.acc ∧ (ackFlags d e s).pll = s.pll
    ∧ (ackFlags d e s).lock = s.lock ∧ (ackFlags d e s).lines = s.lines ∧ (ackFlags d e s).diag = s.diag
    ∧ (ackFlags d e s).lineBuf = s.lineBuf ∧ (ackFlags d e s).field0 = s.field0
    ∧ (ackFlags d e s).field1 = s.field1 ∧ (ackFlags d e s).frame = s.frame
    ∧ (ackFlags d e s).display = s.display ∧ (ackFlags d e s).chunk = s.chunk
    ∧ (ackFlags d e s).pending = s.pending ∧ (ackFlags d e s).readData = s.readData
    ∧ (ackFlags d e s).callPort = s.callPort ∧ (ackFlags d e s).returned = s.returned
    ∧ (ackFlags d e s).geom = s.geom :=
  ⟨rfl, rfl, rfl, rfl, rfl, rfl, rfl, rfl, rfl, rfl, rfl, rfl, rfl, rfl, rfl, rfl, rfl, rfl, rfl, rfl, rfl, rfl⟩

@[simp] theorem setFieldReady_frame (r0 r1 : Bool) :
    (setFieldReady r0 r1 s).format = s.format ∧ (setFieldReady r0 r1 s).samplePos = s.samplePos
    ∧ (setFieldReady r0 r1 s).filter = s.filter ∧ (setFieldReady r0 r1 s).hsync = s.hsync
    ∧ (setFieldReady r0 r1 s).vsync = s.vsync ∧ (setFieldReady r0 r1 s).levels = s.levels
    ∧ (setFieldReady r0 r1 s).acc = s.acc ∧ (setFieldReady r0 r1 s).pll = s.pll
    ∧ (setFieldReady r0 r1 s).lock = s.lock ∧ (setFieldReady r0 r1 s).lines = s.lines
    ∧ (setFieldReady r0 r1 s).diag = s.diag ∧ (setFieldReady r0 r1 s).host = s.host
    ∧ (setFieldReady r0 r1 s).lineBuf = s.lineBuf ∧ (setFieldReady r0 r1 s).field0 = s.field0
    ∧ (setFieldReady r0 r1 s).field1 = s.field1 ∧ (setFieldReady r0 r1 s).frame = s.frame
    ∧ (setFieldReady r0 r1 s).display = s.display ∧ (setFieldReady r0 r1 s).chunk = s.chunk
    ∧ (setFieldReady r0 r1 s).pending = s.pending ∧ (setFieldReady r0 r1 s).readData = s.readData
    ∧ (setFieldReady r0 r1 s).callPort = s.callPort ∧ (setFieldReady r0 r1 s).returned = s.returned
    ∧ (setFieldReady r0 r1 s).geom = s.geom :=
  ⟨rfl, rfl, rfl, rfl, rfl, rfl, rfl, rfl, rfl, rfl, rfl, rfl, rfl, rfl, rfl, rfl, rfl, rfl, rfl, rfl, rfl,
   rfl, rfl⟩

end Sys2Proof.Machine
end

