-- ==== Sys2Proof/Laws/Memory.lean ====
section
/-! SUPPORT. The laws of the buffers: what reading gives after a write and after a fill, that both keep the canonical
form and stay within a range, and that equal reads mean equal buffers. -/

namespace Sys2Proof.Machine

@[simp] theorem Memory.read_nil (a : Nat) : Memory.read [] a = Config.unlistedByte := rfl

theorem Memory.read_cons (k : Nat) (v : Byte) (m : Memory) (a : Nat) :
    Memory.read ((k, v) :: m) a = if k = a then v else Memory.read m a := rfl

theorem Memory.read_eq_unlisted {m : Memory} {a : Nat} (h : ∀ c ∈ m, c.1 ≠ a) :
    Memory.read m a = Config.unlistedByte := by
  induction m with
  | nil => rfl
  | cons c m ih =>
    rw [Memory.read_cons c.1 c.2 m a, if_neg (h c (by simp)), ih fun d hd => h d (by simp [hd])]

theorem Memory.read_append (m n : Memory) (a : Nat) :
    Memory.read (m ++ n) a = if ∃ c ∈ m, c.1 = a then Memory.read m a else Memory.read n a := by
  induction m with
  | nil => simp
  | cons c m ih =>
    rw [List.cons_append, Memory.read_cons c.1 c.2 (m ++ n) a, Memory.read_cons c.1 c.2 m a, ih]
    by_cases hc : c.1 = a <;> simp [hc]

/-- Reading skips the cells a filter on addresses drops, where it keeps the address read. -/
theorem Memory.read_filter_keep (m : Memory) (p : Nat → Bool) (a : Nat) (ha : p a = true) :
    Memory.read (m.filter fun c => p c.1) a = Memory.read m a := by
  induction m with
  | nil => rfl
  | cons c m ih =>
    rw [List.filter_cons, Memory.read_cons c.1 c.2 m a]
    by_cases hp : p c.1 = true
    · rw [if_pos hp, Memory.read_cons c.1 c.2 _ a, ih]
    · rw [if_neg hp, ih, if_neg (by rintro rfl; exact hp ha)]

theorem Memory.read_filter_drop (m : Memory) (p : Nat → Bool) (a : Nat) (ha : p a = false) :
    Memory.read (m.filter fun c => p c.1) a = Config.unlistedByte := by
  refine Memory.read_eq_unlisted fun c hc => ?_
  rintro rfl
  simp_all

/-! ## Cells -/

theorem Memory.mem_cells {base len : Nat} {f : Nat → Byte} {c : Host.Cell} :
    c ∈ Memory.cells base len f ↔
      base ≤ c.1 ∧ c.1 < base + len ∧ c.2 = f (c.1 - base) ∧ c.2 ≠ Config.unlistedByte := by
  obtain ⟨k, v⟩ := c
  simp only [Memory.cells, List.mem_filterMap, List.mem_range]
  constructor
  · rintro ⟨j, hj, h⟩
    split at h
    · cases h
    · rename_i hne
      simp only [Option.some.injEq, Prod.mk.injEq] at h
      obtain ⟨rfl, rfl⟩ := h
      exact ⟨by omega, by omega, by simp, hne⟩
  · rintro ⟨h1, h2, h3, h4⟩
    refine ⟨k - base, by omega, ?_⟩
    rw [if_neg (by rw [← h3]; exact h4), h3]
    simp only [Option.some.injEq, Prod.mk.injEq, and_true]
    omega

theorem Memory.cells_wf (base len : Nat) (f : Nat → Byte) : Memory.wf (Memory.cells base len f) := by
  refine ⟨?_, fun c hc => (Memory.mem_cells.1 hc).2.2.2⟩
  rw [Memory.cells, List.pairwise_filterMap]
  refine List.pairwise_lt_range.imp ?_
  intro i j hij c hc d hd
  split at hc
  · cases hc
  · split at hd
    · cases hd
    · cases hc; cases hd; simp only; omega

/-! ## Reading in canonical form -/

theorem Memory.read_of_mem {m : Memory} (h : m.wf) {c : Host.Cell} (hc : c ∈ m) : Memory.read m c.1 = c.2 := by
  induction m with
  | nil => cases hc
  | cons d m ih =>
    rw [Memory.read_cons d.1 d.2 m c.1]
    obtain ⟨hp, hv⟩ := h
    rw [List.pairwise_cons] at hp
    rcases List.mem_cons.1 hc with rfl | hc'
    · simp
    · rw [if_neg (by have := hp.1 c hc'; omega)]
      exact ih ⟨hp.2, fun e he => hv e (by simp [he])⟩ hc'

theorem Memory.mem_iff_read {m : Memory} (h : m.wf) {a : Nat} {v : Byte} :
    (a, v) ∈ m ↔ Memory.read m a = v ∧ v ≠ Config.unlistedByte := by
  constructor
  · intro hc; exact ⟨Memory.read_of_mem h hc, h.2 _ hc⟩
  · rintro ⟨hr, hv⟩
    by_contra hn
    apply hv
    rw [← hr]
    refine Memory.read_eq_unlisted ?_
    rintro ⟨k, u⟩ hc rfl
    have := Memory.read_of_mem h hc
    simp only at this
    rw [hr] at this
    exact hn (this ▸ hc)

/-- Equal reads mean equal buffers: the canonical form is one. -/
theorem Memory.ext_of_read {m n : Memory} (hm : m.wf) (hn : n.wf) (h : ∀ a, Memory.read m a = Memory.read n a) :
    m = n := by
  have hmem : ∀ c : Host.Cell, c ∈ m ↔ c ∈ n := by
    rintro ⟨a, v⟩
    rw [Memory.mem_iff_read hm, Memory.mem_iff_read hn, h a]
  have hmn : m.Nodup := hm.1.imp (fun {c d} hcd => by rintro rfl; omega)
  have hnn : n.Nodup := hn.1.imp (fun {c d} hcd => by rintro rfl; omega)
  exact ((List.perm_ext_iff_of_nodup hmn hnn).2 hmem).eq_of_pairwise
    (le := fun c d : Host.Cell => c.1 < d.1) (fun a b _ _ h1 h2 => absurd h1 (by omega)) hm.1 hn.1

/-! ## Filling -/

/-- Everything a fill does to a byte. -/
theorem Memory.read_fill (m : Memory) (base len : Nat) (f : Nat → Byte) (a : Nat) :
    Memory.read (m.fill base len f) a =
      if base ≤ a ∧ a < base + len then f (a - base) else Memory.read m a := by
  rw [Memory.fill, Memory.read_append, Memory.read_append]
  by_cases hlo : a < base
  · have hno : ¬ ∃ c ∈ Memory.cells base len f, c.1 = a := by
      rintro ⟨c, hc, rfl⟩; have := (Memory.mem_cells.1 hc).1; omega
    have hk := Memory.read_filter_keep m (fun k => decide (k < base)) a (by simpa using hlo)
    have hd := Memory.read_filter_drop m (fun k => decide (base + len ≤ k)) a (by simp; omega)
    have hc0 : Memory.read (Memory.cells base len f) a = Config.unlistedByte :=
      Memory.read_eq_unlisted fun c hc hca => hno ⟨c, hc, hca⟩
    rw [if_neg (by omega : ¬ (base ≤ a ∧ a < base + len))]
    by_cases hex : ∃ c ∈ m.filter (fun c => decide (c.1 < base)), c.1 = a
    · rw [if_pos (by obtain ⟨c, hc, hca⟩ := hex; exact ⟨c, List.mem_append_left _ hc, hca⟩), if_pos hex]
      exact hk
    · have hm0 : Memory.read m a = Config.unlistedByte := by
        rw [← hk]; exact Memory.read_eq_unlisted fun c hc hca => hex ⟨c, hc, hca⟩
      split
      · rw [hc0, hm0]
      · rw [hd, hm0]
  · have hno : ¬ ∃ c ∈ m.filter (fun c => decide (c.1 < base)), c.1 = a := by
      rintro ⟨c, hc, rfl⟩; simp at hc; omega
    by_cases hin : a < base + len
    · rw [if_pos (by omega : base ≤ a ∧ a < base + len)]
      have hd := Memory.read_filter_drop m (fun k => decide (base + len ≤ k)) a (by simp; omega)
      by_cases hz : f (a - base) = Config.unlistedByte
      · have hnc : ¬ ∃ c ∈ Memory.cells base len f, c.1 = a := by
          rintro ⟨c, hc, rfl⟩
          have := Memory.mem_cells.1 hc
          exact this.2.2.2 (this.2.2.1.trans hz)
        rw [if_neg (by
          rintro ⟨c, hc, hca⟩
          rcases List.mem_append.1 hc with hc | hc
          · exact hno ⟨c, hc, hca⟩
          · exact hnc ⟨c, hc, hca⟩), hd, hz]
      · have hmem : ((a, f (a - base)) : Host.Cell) ∈ Memory.cells base len f :=
          Memory.mem_cells.2 ⟨by simp only; omega, by simp only; omega, rfl, hz⟩
        rw [if_pos ⟨_, List.mem_append_right _ hmem, rfl⟩, if_neg hno]
        exact Memory.read_of_mem (Memory.cells_wf base len f) hmem
    · have hno2 : ¬ ∃ c ∈ m.filter (fun c => decide (c.1 < base)) ++ Memory.cells base len f, c.1 = a := by
        rintro ⟨c, hc, hca⟩
        rcases List.mem_append.1 hc with hc | hc
        · exact hno ⟨c, hc, hca⟩
        · have := (Memory.mem_cells.1 hc).2.1; omega
      rw [if_neg hno2, if_neg (by omega : ¬ (base ≤ a ∧ a < base + len))]
      exact Memory.read_filter_keep m (fun k => decide (base + len ≤ k)) a (by simp; omega)

/-- A fill keeps the canonical form. -/
theorem Memory.fill_wf {m : Memory} (h : m.wf) (base len : Nat) (f : Nat → Byte) : (m.fill base len f).wf := by
  obtain ⟨hp, hv⟩ := h
  refine ⟨?_, ?_⟩
  · rw [Memory.fill, List.append_assoc, List.pairwise_append, List.pairwise_append]
    refine ⟨hp.filter _, ⟨(Memory.cells_wf base len f).1, hp.filter _, ?_⟩, ?_⟩
    · intro c hc d hd
      have h1 := (Memory.mem_cells.1 hc).2.1
      simp at hd; omega
    · intro c hc d hd
      simp at hc
      rcases List.mem_append.1 hd with hd | hd
      · have h1 := (Memory.mem_cells.1 hd).1; omega
      · simp at hd; omega
  · intro c hc
    rw [Memory.fill, List.append_assoc, List.mem_append, List.mem_append] at hc
    rcases hc with hc | hc | hc
    · exact hv c (List.mem_of_mem_filter hc)
    · exact (Memory.mem_cells.1 hc).2.2.2
    · exact hv c (List.mem_of_mem_filter hc)

/-- A fill inside a range lists nothing outside it. -/
theorem Memory.fill_within {m : Memory} {lo hi base len : Nat} {f : Nat → Byte} (h : m.within lo hi)
    (hlo : lo ≤ base) (hhi : base + len ≤ hi) : (m.fill base len f).within lo hi := by
  intro c hc
  rw [Memory.fill, List.append_assoc, List.mem_append, List.mem_append] at hc
  rcases hc with hc | hc | hc
  · exact h c (List.mem_of_mem_filter hc)
  · have h1 := Memory.mem_cells.1 hc; omega
  · exact h c (List.mem_of_mem_filter hc)

/-! ## Writing one byte -/

theorem Memory.read_consCell (a : Nat) (v : Byte) (m : Memory) (b : Nat) (h : ∀ c ∈ m, c.1 ≠ a) :
    Memory.read (Memory.consCell a v m) b = if b = a then v else Memory.read m b := by
  rw [Memory.consCell]
  split
  · rename_i hv
    split
    · rename_i hb; rw [hb, hv]; exact Memory.read_eq_unlisted h
    · rfl
  · rw [Memory.read_cons]
    by_cases hb : b = a
    · simp [hb]
    · rw [if_neg (fun h => hb h.symm), if_neg hb]

/-- Everything a write does to a byte. -/
theorem Memory.read_write {m : Memory} (h : m.wf) (a : Nat) (v : Byte) (b : Nat) :
    Memory.read (m.write a v) b = if b = a then v else Memory.read m b := by
  induction m with
  | nil => exact Memory.read_consCell a v [] b (by simp)
  | cons c m ih =>
    obtain ⟨k, u⟩ := c
    obtain ⟨hp, hv⟩ := h
    rw [List.pairwise_cons] at hp
    have hm : Memory.wf m := ⟨hp.2, fun e he => hv e (by simp [he])⟩
    rw [Memory.write]
    split
    · rename_i hak
      refine Memory.read_consCell a v _ b ?_
      intro c hc
      rcases List.mem_cons.1 hc with rfl | hc
      · simp only; omega
      · have := hp.1 c hc; simp only at this; omega
    · split
      · rename_i _ hak
        subst hak
        rw [Memory.read_consCell a v m b (fun c hc => by have := hp.1 c hc; simp only at this; omega)]
        by_cases hb : b = a
        · simp [hb]
        · rw [if_neg hb, if_neg hb, Memory.read_cons, if_neg (fun h => hb h.symm)]
      · rename_i _ hak
        rw [Memory.read_cons, Memory.read_cons, ih hm]
        by_cases hb : b = a
        · rw [if_pos hb, if_pos hb, if_neg (by omega)]
        · rw [if_neg hb, if_neg hb]

theorem Memory.mem_consCell {a : Nat} {v : Byte} {m : Memory} {c : Host.Cell} (h : c ∈ Memory.consCell a v m) :
    (c = (a, v) ∧ v ≠ Config.unlistedByte) ∨ c ∈ m := by
  rw [Memory.consCell] at h
  split at h
  · exact .inr h
  · rename_i hv
    rcases List.mem_cons.1 h with rfl | h
    · exact .inl ⟨rfl, hv⟩
    · exact .inr h

theorem Memory.mem_write {m : Memory} {a : Nat} {v : Byte} {c : Host.Cell} (h : c ∈ m.write a v) :
    (c = (a, v) ∧ v ≠ Config.unlistedByte) ∨ c ∈ m := by
  induction m with
  | nil => exact Memory.mem_consCell h
  | cons d m ih =>
    rw [Memory.write] at h
    split at h
    · exact Memory.mem_consCell h
    · split at h
      · rcases Memory.mem_consCell h with h | h
        · exact .inl h
        · exact .inr (by simp [h])
      · rcases List.mem_cons.1 h with rfl | h
        · exact .inr (by simp)
        · rcases ih h with h | h
          · exact .inl h
          · exact .inr (by simp [h])

theorem Memory.consCell_wf {a : Nat} {v : Byte} {m : Memory} (h : m.wf) (ha : ∀ c ∈ m, a < c.1) :
    (Memory.consCell a v m).wf := by
  rw [Memory.consCell]
  split
  · exact h
  · rename_i hv
    refine ⟨List.pairwise_cons.2 ⟨ha, h.1⟩, ?_⟩
    intro c hc
    rcases List.mem_cons.1 hc with rfl | hc
    · exact hv
    · exact h.2 c hc

/-- A write keeps the canonical form. -/
theorem Memory.write_wf {m : Memory} (h : m.wf) (a : Nat) (v : Byte) : (m.write a v).wf := by
  induction m with
  | nil => exact Memory.consCell_wf h (by simp)
  | cons d m ih =>
    obtain ⟨k, u⟩ := d
    have hall := h
    obtain ⟨hp, hv⟩ := h
    rw [List.pairwise_cons] at hp
    have hm : Memory.wf m := ⟨hp.2, fun e he => hv e (by simp [he])⟩
    rw [Memory.write]
    split
    · rename_i hak
      refine Memory.consCell_wf hall fun c hc => ?_
      rcases List.mem_cons.1 hc with rfl | hc
      · exact hak
      · have := hp.1 c hc; simp only at this; omega
    · split
      · rename_i _ hak
        exact Memory.consCell_wf hm fun c hc => by have := hp.1 c hc; simp only at this; omega
      · rename_i h1 h2
        refine ⟨List.pairwise_cons.2 ⟨fun c hc => ?_, (ih hm).1⟩, fun c hc => ?_⟩
        · rcases Memory.mem_write hc with ⟨rfl, _⟩ | hc
          · simp only; omega
          · exact hp.1 c hc
        · rcases List.mem_cons.1 hc with rfl | hc
          · exact hv _ (by simp)
          · exact (ih hm).2 c hc

/-- A write inside a range lists nothing outside it. -/
theorem Memory.write_within {m : Memory} {lo hi a : Nat} {v : Byte} (h : m.within lo hi) (hlo : lo ≤ a)
    (hhi : a < hi) : (m.write a v).within lo hi := by
  intro c hc
  rcases Memory.mem_write hc with ⟨rfl, _⟩ | hc
  · exact ⟨hlo, hhi⟩
  · exact h c hc

/-! ## Writing the lanes of a word -/

theorem Memory.writeLanes_eq (m : Memory) (a : Nat) (v : Word) (stored : Nat → Bool) :
    m.writeLanes a v stored =
      (let w := fun (m : Memory) (j : Nat) => if stored (a + j) then m.write (a + j) (laneOf v j) else m
       w (w (w (w m 0) 1) 2) 3) := rfl

/-- A lane that is stored or skipped. -/
theorem Memory.writeLane_wf {m : Memory} (h : m.wf) (p : Bool) (a : Nat) (v : Byte) :
    Memory.wf (if p then m.write a v else m) := by
  split
  · exact Memory.write_wf h a v
  · exact h

/-- Writing a word keeps the canonical form. -/
theorem Memory.writeLanes_wf {m : Memory} (h : m.wf) (a : Nat) (v : Word) (stored : Nat → Bool) :
    (m.writeLanes a v stored).wf := by
  rw [Memory.writeLanes_eq]
  exact Memory.writeLane_wf (Memory.writeLane_wf (Memory.writeLane_wf (Memory.writeLane_wf h ..) ..) ..) ..

theorem Memory.writeLane_within {m : Memory} {lo hi : Nat} (h : m.within lo hi) (p : Bool) (a : Nat) (v : Byte)
    (hlo : p = true → lo ≤ a) (hhi : p = true → a < hi) : Memory.within (if p then m.write a v else m) lo hi := by
  split
  · rename_i hp; exact Memory.write_within h (hlo hp) (hhi hp)
  · exact h

/-- Writing a word whose stored lanes lie inside a range lists nothing outside it. -/
theorem Memory.writeLanes_within {m : Memory} {lo hi : Nat} (h : m.within lo hi) (a : Nat) (v : Word)
    (stored : Nat → Bool) (hs : ∀ k, a ≤ k → k < a + 4 → stored k = true → lo ≤ k ∧ k < hi) :
    (m.writeLanes a v stored).within lo hi := by
  have hl : ∀ j, j < 4 → stored (a + j) = true → lo ≤ a + j ∧ a + j < hi :=
    fun j hj hp => hs _ (by omega) (by omega) hp
  rw [Memory.writeLanes_eq]
  exact Memory.writeLane_within (Memory.writeLane_within (Memory.writeLane_within (Memory.writeLane_within h _ _ _
      (fun hp => (hl 0 (by omega) hp).1) fun hp => (hl 0 (by omega) hp).2)
      _ _ _ (fun hp => (hl 1 (by omega) hp).1) fun hp => (hl 1 (by omega) hp).2)
      _ _ _ (fun hp => (hl 2 (by omega) hp).1) fun hp => (hl 2 (by omega) hp).2)
      _ _ _ (fun hp => (hl 3 (by omega) hp).1) fun hp => (hl 3 (by omega) hp).2

theorem Memory.read_writeLane {m : Memory} (h : m.wf) (p : Bool) (a : Nat) (v : Byte) (b : Nat) :
    Memory.read (if p then m.write a v else m) b = if b = a ∧ p = true then v else Memory.read m b := by
  cases p
  · simp
  · simp [Memory.read_write h]

/-- Everything writing a word does to a byte: a stored lane holds its byte of the word, all else is unchanged. -/
theorem Memory.read_writeLanes {m : Memory} (h : m.wf) (a : Nat) (v : Word) (stored : Nat → Bool) (b : Nat) :
    Memory.read (m.writeLanes a v stored) b =
      if (a ≤ b ∧ b < a + 4) ∧ stored b = true then laneOf v (b - a) else Memory.read m b := by
  have w0 := Memory.writeLane_wf h (stored (a + 0)) (a + 0) (laneOf v 0)
  have w1 := Memory.writeLane_wf w0 (stored (a + 1)) (a + 1) (laneOf v 1)
  have w2 := Memory.writeLane_wf w1 (stored (a + 2)) (a + 2) (laneOf v 2)
  rw [Memory.writeLanes_eq]
  simp only [Memory.read_writeLane w2, Memory.read_writeLane w1, Memory.read_writeLane w0, Memory.read_writeLane h]
  by_cases hin : a ≤ b ∧ b < a + 4
  · obtain ⟨j, rfl⟩ : ∃ j, b = a + j := ⟨b - a, by omega⟩
    have hj : j = 0 ∨ j = 1 ∨ j = 2 ∨ j = 3 := by omega
    rcases hj with rfl | rfl | rfl | rfl <;> simp
  · rw [if_neg (by omega), if_neg (by omega), if_neg (by omega), if_neg (by omega), if_neg (by tauto)]

end Sys2Proof.Machine
end

