-- ==== Sys2Proof/Laws/Numbers.lean ====
section
/-! SUPPORT. What the shared number operations answer: saturating counters, clamping, and the integer divisions of
the units read as the floor of an exact rational (00_scope.md R10, R11). -/

namespace Sys2Proof.Machine

/-- `satSucc` is `sat32(n + 1)` (00_scope.md R11). -/
theorem satSucc_eq (n : Counter) : satSucc n = BitVec.ofNat 32 (sat32 (n.toNat + 1)) := by
  unfold satSucc sat32
  split
  · subst n; decide
  · rename_i h
    apply BitVec.eq_of_toNat_eq
    have h2 : n.toNat ≠ 2 ^ 32 - 1 := fun e => h (BitVec.eq_of_toNat_eq (by simpa using e))
    have := n.isLt
    simp [BitVec.toNat_add]; omega

/-- The value of a counter after it counted. -/
theorem satSucc_toNat (n : Counter) : (satSucc n).toNat = sat32 (n.toNat + 1) := by
  rw [satSucc_eq, BitVec.toNat_ofNat, Nat.mod_eq_of_lt]
  unfold sat32
  omega

/-- A counter never decreases by counting. -/
theorem le_satSucc (n : Counter) : n.toNat ≤ (satSucc n).toNat := by
  have := n.isLt
  rw [satSucc_toNat]
  unfold sat32
  omega

/-- The value of a counter that was written as `sat32`. -/
@[simp] theorem ofNat_sat32_toNat (n : Nat) : (BitVec.ofNat 32 (sat32 n)).toNat = sat32 n := by
  rw [BitVec.toNat_ofNat, Nat.mod_eq_of_lt]
  unfold sat32
  omega

/-- `clamp` stays within its bounds. -/
theorem clamp_mem {v lo hi : Int} (h : lo ≤ hi) : lo ≤ clamp v lo hi ∧ clamp v lo hi ≤ hi := by
  unfold clamp
  omega

/-- A rounded quotient of counts is the integer quotient (00_scope.md R10). -/
theorem quantize_div (n : Int) (d : Nat) : quantize ((n : ℚ) / (65536 * d)) = n / d := by
  unfold quantize
  rcases Nat.eq_zero_or_pos d with rfl | hd
  · simp
  have : (n : ℚ) / (65536 * d) * 65536 = (n : ℚ) / d := by field_simp
  rw [this]
  exact Rat.floor_intCast_div_natCast n d

/-- To round the value `v` to a count, write it as a quotient of counts. -/
theorem quantize_eq {v : ℚ} (n : Int) (d : Nat) (h : v = (n : ℚ) / (65536 * d)) : quantize v = n / d := by
  rw [h, quantize_div]

/-- Rounding a count's own value gives the count. -/
@[simp] theorem quantize_valueOf (n : Int) : quantize (valueOf n) = n := by
  rw [quantize_eq n 1 (by unfold valueOf; ring)]; simp

/-- Values compare as their counts do. -/
@[simp] theorem valueOf_lt {a b : Int} : valueOf a < valueOf b ↔ a < b := by
  unfold valueOf
  rw [div_lt_div_iff_of_pos_right (by norm_num)]
  exact Int.cast_lt

/-- Values compare as their counts do. -/
@[simp] theorem valueOf_le {a b : Int} : valueOf a ≤ valueOf b ↔ a ≤ b := by
  unfold valueOf
  rw [div_le_div_iff_of_pos_right (by norm_num)]
  exact Int.cast_le

/-- Nine times the count of the line period, as a value: `9 · P · ONE` (45_pll.md). -/
theorem period9_eq (g : Geometry) : (g.period9 : ℚ) = 9 * 65536 * g.period := by
  unfold Geometry.period9 Geometry.period
  simp only [Config.one]
  push_cast
  ring

end Sys2Proof.Machine
end

