-- ==== Sys2Proof/Laws/PerInstr.lean ====
section
/-! SUPPORT. Statements made for every instruction, one lemma for each constructor. -/

namespace Sys2Proof.Laws.EncodingHead

/-- The first word of an instruction's encoding fits its row of the opcode map, and a host command has no other word
(30_encoding.md R90, R93, R95). -/
def Statement (i : Instr) : Prop :=
  ∃ w ops, encode i = w :: ops ∧ w &&& (opcodeRow i).mask = (opcodeRow i).pattern ∧ (i.isCommand = true → ops = [])

/-- A command word with two operand bits keeps its opcode and its cleared reserved bits. -/
theorem twoBitCommand_fits (o : BitVec 8) (v : BitVec 2) :
    twoBitCommand o v &&& 0xFFFFFFFC#32 = (o ++ 0#24 : BitVec (8 + 24)) := by
  rw [and_reservedMask]
  have h1 : opcodeOf (twoBitCommand o v) = o := opcodeOf_append o _
  have h2 : reservedAboveTwo (twoBitCommand o v) = 0 := by revert v; unfold twoBitCommand reservedAboveTwo; decide +revert
  rw [h1, h2]
  rfl

theorem nop : Statement .nop := ⟨_, _, rfl, rfl, fun _ => rfl⟩

theorem processBuffer (count : BitVec 24) : Statement (.processBuffer count) := by
  refine ⟨_, _, rfl, ?_, fun _ => rfl⟩
  exact (and_opcodeMask _).trans (congrArg headWord (opcodeOf_append 0x01#8 count))

theorem setFormat (fmt : BitVec 2) : Statement (.setFormat fmt) := ⟨_, _, rfl, twoBitCommand_fits _ _, fun _ => rfl⟩

theorem reset : Statement .reset := ⟨_, _, rfl, rfl, fun _ => rfl⟩

theorem ack (d e : Bool) : Statement (.ack d e) := ⟨_, _, rfl, twoBitCommand_fits _ _, fun _ => rfl⟩

theorem deinterlace : Statement .deinterlace := ⟨_, _, rfl, rfl, fun _ => rfl⟩

theorem setFieldReady (r0 r1 : Bool) : Statement (.setFieldReady r0 r1) := ⟨_, _, rfl, twoBitCommand_fits _ _, fun _ => rfl⟩

theorem sampleStep (x : Sample) : Statement (.sampleStep x) :=
  ⟨_, _, rfl, (and_opcodeMask _).trans (congrArg headWord (opcodeOf_append 0x80#8 0#24)), fun h => by cases h⟩

theorem lpFilter (x : Sample) : Statement (.lpFilter x) :=
  ⟨_, _, rfl, (and_opcodeMask _).trans (congrArg headWord (opcodeOf_append 0x81#8 0#24)), fun h => by cases h⟩

theorem edgeClassify (y : Int) : Statement (.edgeClassify y) :=
  ⟨_, _, rfl, (and_opcodeMask _).trans (congrArg headWord (opcodeOf_append 0x82#8 0#24)), fun h => by cases h⟩

theorem levelAccumulate (y : Int) : Statement (.levelAccumulate y) :=
  ⟨_, _, rfl, (and_opcodeMask _).trans (congrArg headWord (opcodeOf_append 0x83#8 0#24)), fun h => by cases h⟩

theorem levelCommit : Statement .levelCommit := ⟨_, _, rfl, rfl, fun h => by cases h⟩

theorem levelBootstrap (mn mx : Sample) : Statement (.levelBootstrap mn mx) :=
  ⟨_, _, rfl, (and_opcodeMask _).trans (congrArg headWord (opcodeOf_append 0x85#8 0#24)), fun h => by cases h⟩

theorem vsyncEdge (fall : Bool) (p : Position) : Statement (.vsyncEdge fall p) :=
  ⟨_, _, rfl, (and_opcodeMask _).trans (congrArg headWord (opcodeOf_append 0x86#8 0#24)), fun h => by cases h⟩

theorem hsyncEdge (fall rise : Bool) (p : Position) : Statement (.hsyncEdge fall rise p) :=
  ⟨_, _, rfl, (and_opcodeMask _).trans (congrArg headWord (opcodeOf_append 0x87#8 0#24)), fun h => by cases h⟩

theorem pllEvent : Statement .pllEvent := ⟨_, _, rfl, rfl, fun h => by cases h⟩

theorem phaseError : Statement .phaseError := ⟨_, _, rfl, rfl, fun h => by cases h⟩

theorem lockUpdate : Statement .lockUpdate := ⟨_, _, rfl, rfl, fun h => by cases h⟩

theorem pllCorrect : Statement .pllCorrect := ⟨_, _, rfl, rfl, fun h => by cases h⟩

theorem pllAdvance : Statement .pllAdvance := ⟨_, _, rfl, rfl, fun h => by cases h⟩

theorem lineBoundary : Statement .lineBoundary := ⟨_, _, rfl, rfl, fun h => by cases h⟩

theorem lineAppend (x : Sample) : Statement (.lineAppend x) :=
  ⟨_, _, rfl, (and_opcodeMask _).trans (congrArg headWord (opcodeOf_append 0x8E#8 0#24)), fun h => by cases h⟩

theorem lineDecode : Statement .lineDecode := ⟨_, _, rfl, rfl, fun h => by cases h⟩

theorem startNewField : Statement .startNewField := ⟨_, _, rfl, rfl, fun h => by cases h⟩

theorem deinterlaceCore : Statement .deinterlaceCore := ⟨_, _, rfl, rfl, fun h => by cases h⟩

theorem displayCopy : Statement .displayCopy := ⟨_, _, rfl, rfl, fun h => by cases h⟩

theorem formatReset : Statement .formatReset := ⟨_, _, rfl, rfl, fun h => by cases h⟩

theorem levelDerive : Statement .levelDerive := ⟨_, _, rfl, rfl, fun h => by cases h⟩

end Sys2Proof.Laws.EncodingHead
end

