-- ==== Sys2Proof/Laws/Units.lean ====
section
/-! SUPPORT. What the shared operations of the units answer: the extremes of a chunk, the box-filter window, averaged
pixels, the rows of a frame, and the arithmetic of the levels and the phase wrap. -/

namespace Sys2Proof.Machine

/-! ## The extremes of a chunk (40_sample_step.md R120) -/

theorem foldl_min_spec (t : List Sample) : ∀ m : Int,
    let r := t.foldl (fun m y => min m y.toInt) m
    r ≤ m ∧ (∀ y ∈ t, r ≤ y.toInt) ∧ (r = m ∨ ∃ y ∈ t, r = y.toInt) := by
  induction t with
  | nil => intro m; simp
  | cons y t ih =>
    intro m
    obtain ⟨h1, h2, h3⟩ := ih (min m y.toInt)
    simp only [List.foldl_cons]
    refine ⟨by omega, ?_, ?_⟩
    · intro z hz
      rcases List.mem_cons.1 hz with rfl | hz
      · omega
      · exact h2 z hz
    · rcases h3 with h3 | ⟨z, hz, h3⟩
      · rcases le_total m y.toInt with h | h
        · left; omega
        · right; exact ⟨y, by simp, by omega⟩
      · right; exact ⟨z, by simp [hz], h3⟩

theorem foldl_max_spec (t : List Sample) : ∀ m : Int,
    let r := t.foldl (fun m y => max m y.toInt) m
    m ≤ r ∧ (∀ y ∈ t, y.toInt ≤ r) ∧ (r = m ∨ ∃ y ∈ t, r = y.toInt) := by
  induction t with
  | nil => intro m; simp
  | cons y t ih =>
    intro m
    obtain ⟨h1, h2, h3⟩ := ih (max m y.toInt)
    simp only [List.foldl_cons]
    refine ⟨by omega, ?_, ?_⟩
    · intro z hz
      rcases List.mem_cons.1 hz with rfl | hz
      · omega
      · exact h2 z hz
    · rcases h3 with h3 | ⟨z, hz, h3⟩
      · rcases le_total y.toInt m with h | h
        · left; omega
        · right; exact ⟨y, by simp, by omega⟩
      · right; exact ⟨z, by simp [hz], h3⟩

/-- The least sample of a chunk is one of its samples, and no sample lies below it. -/
theorem minSample_spec {xs : List Sample} (h : xs ≠ []) :
    (∃ x ∈ xs, minSample xs = x.toInt) ∧ ∀ x ∈ xs, minSample xs ≤ x.toInt := by
  cases xs with
  | nil => exact absurd rfl h
  | cons x t =>
    obtain ⟨h1, h2, h3⟩ := foldl_min_spec t x.toInt
    refine ⟨?_, fun z hz => ?_⟩
    · rcases h3 with h3 | ⟨z, hz, h3⟩
      · exact ⟨x, by simp, h3⟩
      · exact ⟨z, by simp [hz], h3⟩
    · rcases List.mem_cons.1 hz with rfl | hz
      · exact h1
      · exact h2 z hz

/-- The greatest sample of a chunk is one of its samples, and no sample lies above it. -/
theorem maxSample_spec {xs : List Sample} (h : xs ≠ []) :
    (∃ x ∈ xs, maxSample xs = x.toInt) ∧ ∀ x ∈ xs, x.toInt ≤ maxSample xs := by
  cases xs with
  | nil => exact absurd rfl h
  | cons x t =>
    obtain ⟨h1, h2, h3⟩ := foldl_max_spec t x.toInt
    refine ⟨?_, fun z hz => ?_⟩
    · rcases h3 with h3 | ⟨z, hz, h3⟩
      · exact ⟨x, by simp, h3⟩
      · exact ⟨z, by simp [hz], h3⟩
    · rcases List.mem_cons.1 hz with rfl | hz
      · exact h1
      · exact h2 z hz

/-- The samples a call processes. -/
theorem mem_chunkSamples {s : State} {n : Nat} {x : Sample} : x ∈ s.chunkSamples n ↔ ∃ i < n, s.chunkSample i = x := by
  simp [State.chunkSamples]

/-! ## The line decoder -/

/-- The box window is the part of the line buffer between its two ends (46_line_decoder.md R213). -/
theorem boxWindow_spec (lb : List Sample) (src : Nat) :
    let present := (Finset.range lb.length).filter fun k : Nat => (src : Int) - 5 ≤ k ∧ (k : Int) ≤ src + 5
    (boxWindow lb src).length = present.card
    ∧ sumSamples (boxWindow lb src) = present.sum fun k => (lb.getD k 0).toInt := by
  intro present
  have gen : ∀ n lo : Nat,
      ((lb.drop lo).take n).length = (Finset.Ico lo (min (lo + n) lb.length)).card
      ∧ sumSamples ((lb.drop lo).take n)
          = (Finset.Ico lo (min (lo + n) lb.length)).sum fun k => (lb.getD k 0).toInt := by
    intro n lo
    refine ⟨by simp; omega, ?_⟩
    induction n generalizing lo with
    | zero => simp [sumSamples]
    | succ n ih =>
      by_cases h : lo < lb.length
      · rw [List.drop_eq_getElem_cons h, List.take_succ_cons]
        have := ih (lo + 1)
        simp only [sumSamples, List.map_cons, List.sum_cons] at this ⊢
        conv_rhs => rw [Finset.sum_eq_sum_Ico_succ_bot (show lo < min (lo + (n + 1)) lb.length by omega)]
        rw [this, show lo + 1 + n = lo + (n + 1) by omega]
        simp [h]
      · rw [List.drop_eq_nil_of_le (by omega), Finset.Ico_eq_empty (by omega)]
        simp [sumSamples]
  have hp : present = Finset.Ico (src - 5) (min (src - 5 + (src + 6 - (src - 5))) lb.length) := by
    ext k; simp [present]; omega
  rw [hp]
  exact gen _ _

@[simp] theorem lineDecode_currentLine (s : State) : (lineDecode s).lines.currentLine = s.lines.currentLine := by
  unfold lineDecode; split <;> rfl

@[simp] theorem lineDecode_currentField (s : State) : (lineDecode s).lines.currentField = s.lines.currentField := by
  unfold lineDecode; split <;> rfl

@[simp] theorem lineDecode_lineBuf (s : State) : (lineDecode s).lineBuf = [] := by
  unfold lineDecode; split <;> rfl

/-! ## The assembler -/

/-- The average of two pixels, rounded down (47_assembler.md R233). -/
theorem averagePixel_toNat (a b : Byte) : (averagePixel a b).toNat = (a.toNat + b.toNat) / 2 := by
  unfold averagePixel
  rw [BitVec.toNat_ofNat]
  have := a.isLt
  have := b.isLt
  omega

/-- A written frame's rows are the given pixels. -/
theorem framePixel_withFrameRows (s : State) (f : Nat → Nat → Byte) {r c : Nat} (hr : r < 2 * s.geom.fieldHeight)
    (hc : c < 720) : (s.withFrameRows f).framePixel r c = f r c := by
  unfold State.framePixel State.withFrameRows
  simp only [Config.frameWidth]
  rw [Memory.read_fill, if_pos ⟨by omega, by nlinarith⟩]
  have e0 : frameBase + r * 720 + c - frameBase = r * 720 + c := by omega
  have e1 : (r * 720 + c) / 720 = r := by omega
  have e2 : (r * 720 + c) % 720 = c := by omega
  rw [e0, e1, e2]

/-- Writing a frame's rows changes no other byte. -/
theorem read_withFrameRows_outside (s : State) (f : Nat → Nat → Byte) {a : Nat}
    (h : ¬ (frameBase ≤ a ∧ a < frameBase + 2 * s.geom.fieldHeight * 720)) :
    (s.withFrameRows f).frame.read a = s.frame.read a := by
  unfold State.withFrameRows
  simp only [Config.frameWidth]
  rw [Memory.read_fill, if_neg h]

/-! ## The PLL -/

/-- Rounding keeps order. -/
theorem quantize_mono : Monotone quantize := by
  intro a b h
  unfold quantize
  apply Int.floor_le_floor
  linarith

/-- The absolute value of a register, from its count. -/
theorem abs_valueOf (n : Int) : |valueOf n| = ((n.natAbs : Int) : ℚ) / 65536 := by
  unfold valueOf
  rw [abs_div, Int.natCast_natAbs]
  push_cast
  norm_num

/-! ## The levels (42_levels.md R151, R153, R155) -/

@[simp] theorem deriveLevels_valid (l : Levels) : (deriveLevels l).valid = l.valid := rfl
@[simp] theorem deriveLevels_syncTip (l : Levels) : (deriveLevels l).syncTip = l.syncTip := rfl
@[simp] theorem deriveLevels_white (l : Levels) : (deriveLevels l).white = l.white := rfl

/-- One average from above a target stays above it and takes a tenth of the distance, floored, at least one count. -/
theorem emaCount_from_above {m l : Int} (h : m ≤ l) :
    m ≤ emaCount m l ∧ 10 * (emaCount m l - m) ≤ 9 * (l - m) ∧ (m < l → emaCount m l < l) := by
  unfold emaCount; omega

/-- One average from 9 counts or more below a target does the same towards 9 counts below it. -/
theorem emaCount_from_below {m l : Int} (h : l ≤ m - 9) :
    emaCount m l ≤ m - 9 ∧ 10 * (m - 9 - emaCount m l) ≤ 9 * (m - 9 - l) ∧ (l < m - 9 → l < emaCount m l) := by
  unfold emaCount; omega

/-- From 1 to 9 counts below a target an average stays. -/
theorem emaCount_rest {m l : Int} (h1 : m - 9 ≤ l) (h2 : l ≤ m - 1) : emaCount m l = l := by
  unfold emaCount; omega

/-- The levels of a commit that finds accumulated samples and valid levels. -/
theorem levelCommit_levels {s : State} (ha : s.acc.valid = true) (hl : s.levels.valid = true) :
    (levelCommit s).levels = deriveLevels { s.levels with
      syncTip := emaCount s.acc.min s.levels.syncTip, white := emaCount s.acc.max s.levels.white } := by
  simp [levelCommit, blendLevels, ha, hl]

/-! ## The vsync run (43_vsync.md R171) -/

/-- A falling edge a half line after the last one counts, and enters vsync with the sixth. -/
theorem vsyncFall_halfLine {p : Position} {v : Vsync} (hv : v.lastEdgeValid = true)
    (h : isHalfLine (p - v.lastEdgePos) = true) :
    vsyncFall p v = (false, { halfLineCount := satSucc v.halfLineCount
                              inVsync := v.inVsync || decide (6 ≤ (satSucc v.halfLineCount).toNat)
                              lastEdgeValid := true, lastEdgePos := p }) := by
  simp [vsyncFall, classifyInterval, hv, h]

/-! ## The phase wrap (45_pll.md R191) -/

/-- The wrap in closed form takes a whole number of periods off and ends between the half periods; each end is kept on
the side it is approached from (45_pll.md R191, log entry 16). -/
theorem wrapPhase_spec (e p : Int) (hp : 0 < p) : ∃ k : Int, wrapPhase e p = e - k * p
    ∧ -p ≤ 2 * (e - k * p) ∧ 2 * (e - k * p) ≤ p ∧ (-p ≤ 2 * e → 2 * e ≤ p → k = 0)
    ∧ (p < 2 * e → -p < 2 * (e - k * p)) ∧ (2 * e < -p → 2 * (e - k * p) < p) := by
  have ediv : ∀ a : Int, 2 * p * (a / (2 * p)) ≤ a ∧ a < 2 * p * (a / (2 * p)) + 2 * p := by
    intro a
    have h1 := Int.mul_ediv_add_emod a (2 * p)
    have h2 := Int.emod_nonneg a (by omega : 2 * p ≠ 0)
    have h3 := Int.emod_lt_of_pos a (by omega : 0 < 2 * p)
    constructor <;> omega
  unfold wrapPhase
  split
  · have := ediv (p - 2 * e)
    refine ⟨wrapSteps (2 * e) p, rfl, ?_⟩
    unfold wrapSteps
    generalize (p - 2 * e) / (2 * p) = q at *
    rw [show 2 * (e - -q * p) = 2 * e + 2 * p * q by ring]
    exact ⟨by omega, by omega, by omega, by omega, by omega⟩
  · split
    · have := ediv (p - -(2 * e))
      refine ⟨-wrapSteps (-(2 * e)) p, by ring, ?_⟩
      unfold wrapSteps
      generalize (p - -(2 * e)) / (2 * p) = q at *
      rw [show 2 * (e - - -q * p) = 2 * e - 2 * p * q by ring]
      exact ⟨by omega, by omega, by omega, by omega, by omega⟩
    · exact ⟨0, by ring, by omega, by omega, fun _ _ => rfl, by omega, by omega⟩

end Sys2Proof.Machine
end

