-- ==== Sys2Proof/Machine/HostProgram.lean ====
section
/-! DEFINITION. The host's side of the spec: the command mnemonics of 30_encoding.md R101, and the host-program
pseudo-instructions of R102 with the bus accesses each expands into. -/

namespace Sys2Proof.Machine

/-! ## Assembler syntax (30_encoding.md R101, log entry 22) -/

/-- A blank inside a line. -/
def isBlank (c : Char) : Bool := c == ' ' || c == '\t' || c == '\r'

/-- A line without its comment: everything from the first `;` on is dropped (R101). -/
def dropComment (line : List Char) : List Char := line.takeWhile (· != ';')

/-- A text without the blanks at its two ends. -/
def trimBlanks (t : List Char) : List Char := ((t.dropWhile isBlank).reverse.dropWhile isBlank).reverse

/-- Cut a text at every comma (R101: operands separated by commas). -/
def splitCommas : List Char → List (List Char)
  | [] => [[]]
  | c :: t =>
    if c == ',' then [] :: splitCommas t
    else
      match splitCommas t with
      | [] => [[c]]
      | first :: rest => (c :: first) :: rest

/-- The value of a digit below `base`. -/
def digitValue (base : Nat) (c : Char) : Option Nat :=
  let n := c.toNat
  let v :=
    if 48 ≤ n ∧ n ≤ 57 then n - 48
    else if 65 ≤ n ∧ n ≤ 70 then n - 55
    else if 97 ≤ n ∧ n ≤ 102 then n - 87
    else base
  if v < base then some v else none

/-- A non-empty text of digits. -/
def digits (base : Nat) (t : List Char) : Option Nat :=
  if t = [] then none
  else t.foldl (fun acc c => acc.bind fun n => (digitValue base c).map fun d => base * n + d) (some 0)

/-- A number: decimal, or hexadecimal after `0x` (R101). -/
def number (t : List Char) : Option Nat :=
  match t with
  | '0' :: 'x' :: h => digits 16 h
  | _ => digits 10 t

/-- A number that fits a field of `width` bits; the assembler refuses another (R101). -/
def fittingNumber (width : Nat) (t : List Char) : Option (BitVec width) :=
  (number t).bind fun n => if n < 2 ^ width then some (BitVec.ofNat width n) else none

/-- SET_FORMAT's operand: a format's name or a number below 4 (R101). -/
def formatOperand (t : List Char) : Option (BitVec 2) :=
  if t = ['P', 'A', 'L'] then some 1
  else if t = ['N', 'T', 'S', 'C'] then some 2
  else if t = ['S', 'E', 'C', 'A', 'M'] then some 3
  else fittingNumber 2 t

/-- ACK's operands: DISPLAY, BUSERR, both in that order, or none (R101); BUSERR alone may keep its comma
(log entry 22). -/
def ackOperands (ops : List (List Char)) : Option Instr :=
  let display := ['D', 'I', 'S', 'P', 'L', 'A', 'Y']
  let buserr := ['B', 'U', 'S', 'E', 'R', 'R']
  if ops = [] then some (.ack false false)
  else if ops = [display] then some (.ack true false)
  else if ops = [buserr] ∨ ops = [[], buserr] then some (.ack false true)
  else if ops = [display, buserr] then some (.ack true true)
  else none

/-- A command that takes no operand. -/
def withoutOperands (ops : List (List Char)) (i : Instr) : Option Instr := if ops = [] then some i else none

/-- A command that takes one operand. -/
def withOneOperand {α : Type} (ops : List (List Char)) (read : List Char → Option α) (f : α → Instr) : Option Instr :=
  match ops with
  | [t] => (read t).map f
  | _ => none

/-- The command a mnemonic and its operands name (R101). The internal operations' names are refused. -/
def parseCommand (mnemonic : List Char) (ops : List (List Char)) : Option Instr :=
  if mnemonic = ['N', 'O', 'P'] then withoutOperands ops .nop
  else if mnemonic = ['P', 'R', 'O', 'C', 'E', 'S', 'S', '_', 'B', 'U', 'F', 'F', 'E', 'R'] then
    withOneOperand ops (fittingNumber 24) .processBuffer
  else if mnemonic = ['S', 'E', 'T', '_', 'F', 'O', 'R', 'M', 'A', 'T'] then
    withOneOperand ops formatOperand .setFormat
  else if mnemonic = ['R', 'E', 'S', 'E', 'T'] then withoutOperands ops .reset
  else if mnemonic = ['A', 'C', 'K'] then ackOperands ops
  else if mnemonic = ['D', 'E', 'I', 'N', 'T', 'E', 'R', 'L', 'A', 'C', 'E'] then withoutOperands ops .deinterlace
  else if mnemonic = ['S', 'E', 'T', '_', 'F', 'I', 'E', 'L', 'D', '_', 'R', 'E', 'A', 'D', 'Y'] then
    withOneOperand ops (fittingNumber 2) fun m => .setFieldReady (m.getLsbD 0) (m.getLsbD 1)
  else none

/-- The operands of a line: the text after the mnemonic, cut at commas; none where it is blank. -/
def operandTexts (t : List Char) : List (List Char) :=
  if trimBlanks t = [] then [] else (splitCommas t).map trimBlanks

/-- Assemble one line of host source to its command word (R101). A line with no command, or one that is refused,
gives none. The mnemonic ends at the first blank or comma (log entry 22). -/
def assembleLine (line : List Char) : Option Word :=
  let body := trimBlanks (dropComment line)
  let mnemonic := body.takeWhile fun c => !isBlank c && c != ','
  ((parseCommand mnemonic (operandTexts (body.drop mnemonic.length))).map encode).bind List.head?

/-! ## Host-program pseudo-instructions (30_encoding.md R102) -/

/-- A host-program line (R102). -/
inductive HostOp
  /-- `WR addr, word`. -/
  | wr (addr : BitVec 21) (v : Word)
  /-- `RD addr`. -/
  | rd (addr : BitVec 21)
  /-- `CMD <command>`. -/
  | cmd (i : Instr)
  /-- `LOADS s[0..n−1]`. -/
  | loads (samples : List Sample)
  /-- `WRPIX b, r, c, p0, p1, p2, p3`; it requires `(r·W + c) mod 4 = 0`. -/
  | wrPix (b : FieldId) (r c : Nat) (p0 p1 p2 p3 : Byte)
  /-- `RDPIX FRAME, r, c`; it requires `(r·W + c) mod 4 = 0`. -/
  | rdPixFrame (r c : Nat)
  /-- `RDPIX DISPLAY, r, c`; it requires `(r·W + c) mod 4 = 0`. -/
  | rdPixDisplay (r c : Nat)
deriving DecidableEq, Repr

/-- A 32-bit write. -/
def wordWrite (addr : Nat) (v : Word) : BusAccess := .write (BitVec.ofNat 21 addr) .word v

/-- A 32-bit read. -/
def wordRead (addr : Nat) : BusAccess := .read (BitVec.ofNat 21 addr) .word

/-- The writes that load samples two to a word from address `addr` on; a last odd one is paired with 0 (R102). -/
def loadWords (addr : Nat) : List Sample → List BusAccess
  | [] => []
  | [x] => [wordWrite addr (0#16 ++ x : BitVec (16 + 16))]
  | x :: y :: t => wordWrite addr (y ++ x : BitVec (16 + 16)) :: loadWords (addr + 4) t

/-- The bus accesses a host-program line expands into (R102). -/
def HostOp.expand : HostOp → List BusAccess
  | .wr addr v => [.write addr .word v]
  | .rd addr => [.read addr .word]
  | .cmd i => (encode i).take 1 |>.map commandWrite
  | .loads samples => loadWords chunkBase samples
  | .wrPix b r c p0 p1 p2 p3 => [wordWrite (fieldBase b + r * Config.frameWidth + c) (joinWord p0 p1 p2 p3)]
  | .rdPixFrame r c => [wordRead (frameBase + r * Config.frameWidth + c)]
  | .rdPixDisplay r c => [wordRead (displayBase + r * Config.frameWidth + c)]

end Sys2Proof.Machine
end

