-- ==== Sys2Proof/Tests/Slice0.lean ====
section
/-! SUPPORT. The model's own tests. Expected results are those of spec/95_test_vectors.md (named V-…) or hand
calculation from the rule named. The last part shows, for each statement with hypotheses, states and operands that
meet them, at the ends of their ranges. -/

namespace Sys2Proof.Machine.Tests

/-! ## Helpers -/

/-- The next state of an outcome; reset where it stops (no test relies on that). -/
def nextOf (o : Host.Outcome State Fault Refusal) : State :=
  match o with
  | .next t => t
  | .fault _ => State.reset
  | .refused _ => State.reset

/-- The state after one instruction. -/
def run (i : Instr) (s : State) : State := nextOf (exec i s)

/-- The state after one bus access. -/
def access (a : BusAccess) (s : State) : State := nextOf (serve a s)

/-- A state with a format selected, all else as after reset. -/
def inFormat (f : Format) : State := { State.reset with format := f }

/-- A PAL state with the given PLL counts and lock counts. -/
def pal (phase integral : Int) (good bad : Counter) (locked : Bool) : State :=
  { inFormat .pal with
    pll := { phase := phase, integral := integral, freqAdjust := integral, error := 0 }
    lock := { good := good, bad := bad, locked := locked } }

/-- Levels of V-LV-1. -/
def levelsOne : Levels :=
  { valid := true, syncTip := -39321600, white := 26214400, threshold := -22937600, blanking := -20971520
    black := -18350080 }

/-- The vsync start state of section 2.5. -/
def atVsync (inVsync : Bool) (count : Counter) : State :=
  { State.reset with
    vsync := { halfLineCount := count, inVsync := inVsync, lastEdgeValid := true, lastEdgePos := 10000 } }

/-- A PAL state at line `l` with the given line buffer and the levels black 0, white 255. -/
def atLine (l : Counter) (lb : List Sample) : State :=
  { inFormat .pal with
    lines := { Lines.powerOn with currentLine := l }
    lineBuf := lb
    levels := { Levels.powerOn with white := 255 * 65536 } }

/-- A PAL state with ready flags and two pixels in each field buffer: row 0 column 0 and row 1 column 0. -/
def fields (r0 r1 : Bool) : State :=
  { inFormat .pal with
    asm := { Assembler.powerOn with ready0 := r0, ready1 := r1 }
    field0 := [(0x040000, 255), (0x0402D0, 8)]
    field1 := [(0x080000, 10), (0x0802D0, 11)] }

/-! ## Well-formedness: each check refuses an ill-formed term -/

theorem test_wellFormed_refuses_wide_edge_operand :
    WellFormed (.edgeClassify (2 ^ 63)) = false ∧ WellFormed (.edgeClassify (-2 ^ 63 - 1)) = false := by decide

theorem test_wellFormed_refuses_wide_level_operand :
    WellFormed (.levelAccumulate (2 ^ 63)) = false ∧ WellFormed (.levelAccumulate (-2 ^ 63 - 1)) = false := by decide

theorem test_wellFormed_accepts_the_ends :
    WellFormed (.edgeClassify (2 ^ 63 - 1)) = true ∧ WellFormed (.levelAccumulate (-2 ^ 63)) = true := by decide

/-! ## Decoding, from words written out (30_encoding.md R93, R95; log entry 4 for the operand words) -/

theorem test_decode_commands :
    decode [0x00000000#32] = .ok .nop ∧ decode [0x01000064#32] = .ok (.processBuffer 100)
    ∧ decode [0x02000003#32] = .ok (.setFormat 3) ∧ decode [0x03000000#32] = .ok .reset
    ∧ decode [0x04000002#32] = .ok (.ack false true) ∧ decode [0x05000000#32] = .ok .deinterlace
    ∧ decode [0x06000001#32] = .ok (.setFieldReady true false) := by decide

theorem test_decode_sample_calls :
    decode [0x80000000#32, 0x00007FFF#32] = .ok (.sampleStep 32767)
    ∧ decode [0x81000000#32, 0x00008000#32] = .ok (.lpFilter (BitVec.ofInt 16 (-32768)))
    ∧ decode [0x8E000000#32, 0x00000001#32] = .ok (.lineAppend 1)
    ∧ decode [0x85000000#32, 0x0000FDA8#32, 0x00000190#32] = .ok (.levelBootstrap (BitVec.ofInt 16 (-600)) 400) := by
  decide

theorem test_decode_count_calls :
    decode [0x82000000#32, 0xFFFFFFFB#32, 0xFFFFFFFF#32] = .ok (.edgeClassify (-5))
    ∧ decode [0x83000000#32, 0x00000005#32, 0x00000001#32] = .ok (.levelAccumulate 4294967301) := by decide

theorem test_decode_edge_calls :
    decode [0x86000000#32, 0x00000001#32, 0x00000500#32, 0x00000001#32] = .ok (.vsyncEdge true 4294968576)
    ∧ decode [0x87000000#32, 0x00000002#32, 0x000001EB#32, 0x00000000#32] = .ok (.hsyncEdge false true 491) := by decide

theorem test_decode_plain_calls :
    decode [0x84000000#32] = .ok .levelCommit ∧ decode [0x88000000#32] = .ok .pllEvent
    ∧ decode [0x89000000#32] = .ok .phaseError ∧ decode [0x8A000000#32] = .ok .lockUpdate
    ∧ decode [0x8B000000#32] = .ok .pllCorrect ∧ decode [0x8C000000#32] = .ok .pllAdvance
    ∧ decode [0x8D000000#32] = .ok .lineBoundary ∧ decode [0x8F000000#32] = .ok .lineDecode
    ∧ decode [0x90000000#32] = .ok .startNewField ∧ decode [0x91000000#32] = .ok .deinterlaceCore
    ∧ decode [0x92000000#32] = .ok .displayCopy ∧ decode [0x93000000#32] = .ok .formatReset
    ∧ decode [0x94000000#32] = .ok .levelDerive := by decide

/-- V-ENC-2, 4, 5, 6, 8, 10, 11, 19: rejected words, and the two rejections only a call record can have. -/
theorem test_decode_rejections :
    decode [0x00000001#32] = .error .badOperand ∧ decode [0x02000004#32] = .error .badOperand
    ∧ decode [0x07000000#32] = .error .badOpcode ∧ decodeCommand 0x80000000#32 = .error .badOpcode
    ∧ decode [0xFFFFFFFF#32] = .error .badOpcode ∧ decode [0x03000001#32] = .error .badOperand
    ∧ decode [0x04000004#32] = .error .badOperand ∧ decode [0x06000004#32] = .error .badOperand
    ∧ decode [] = .error .noWords ∧ decode [0x80000000#32] = .error .truncated := by decide

/-- One instruction of each row. -/
def oneOfEach : List Instr :=
  [.nop, .processBuffer 0, .setFormat 0, .reset, .ack false false, .deinterlace, .setFieldReady false false]
  ++ [.sampleStep 0, .lpFilter 0, .edgeClassify 0, .levelAccumulate 0, .levelCommit, .levelBootstrap 0 0]
  ++ [.vsyncEdge false 0, .hsyncEdge false false 0, .pllEvent, .phaseError, .lockUpdate, .pllCorrect, .pllAdvance]
  ++ [.lineBoundary, .lineAppend 0, .lineDecode, .startNewField, .deinterlaceCore, .displayCopy, .formatReset, .levelDerive]

/-- No word fits two rows of the opcode map. -/
theorem test_rows_do_not_overlap : (oneOfEach.map opcodeRow).Pairwise fun a b =>
    (a.pattern ^^^ b.pattern) &&& (a.mask &&& b.mask) ≠ 0 := by decide

/-! ## The fetch -/

theorem test_fetch_runs_a_command :
    (nextOf (step (State.reset.withFetchWord 32 0x02000001))).format = .pal
    ∧ decodeTableWord 32 0x02000001 = some (.setFormat 1) := by decide

theorem test_fetch_runs_a_call :
    (nextOf (step (State.reset.withFetchWord 64 0x0000019081000000))).filter.lpY = 2097152
    ∧ (nextOf (step (State.reset.withFetchWord 64 0x0000019081000000))).callPort = [] := by decide

theorem test_junk_in_the_call_port_faults :
    step { State.reset with callPort := [0x95000000#32] } = .fault .noSuchOperation := rfl

/-! ## The bus (V-BUS) -/

/-- V-BUS-1, 2, 3, 4. -/
theorem test_bus_reads :
    (access (.read 0x000000 .word) State.reset).readData = 0x4D534331
    ∧ (access (.read 0x000002 .word) State.reset).host.busErr = true
    ∧ (access (.read 0x000008 .half) State.reset).host.busErr = true
    ∧ (access (.read 0x000080 .word) State.reset).host.busErr = false := by decide

/-- V-BUS-8, 9. -/
theorem test_bus_chunk_words :
    (access (.write 0x010000 .word 0xFDA80190) State.reset).chunkSample 1 = BitVec.ofInt 16 (-600)
    ∧ (access (.read 0x010000 .word) (access (.write 0x010000 .word 0xFDA80190) State.reset)).readData = 0xFDA80190
    ∧ (access (.write 0x02FFFC .word 0x80007FFF) State.reset).chunkSample 65534 = 32767 := by decide

/-- V-BUS-12, 13, 14, 15. -/
theorem test_bus_field_and_frame :
    (access (.write 0x0402D0 .word 0x08070605) State.reset).fieldPixel .zero 1 2 = 7
    ∧ (access (.write 0x072A00 .word 0xFFFFFFFF) State.reset).field0 = []
    ∧ (access (.read 0x072A00 .word) State.reset).host.busErr = false
    ∧ (access (.write 0x100000 .word 5) State.reset).host.busErr = true := by decide

/-- V-BUS-17, 18, 19, 20, 21. -/
theorem test_bus_views :
    fixedView 98304 = 0x00018000 ∧ fixedView (-39321600) = 0xFDA80000 ∧ fixedView (2 ^ 40) = 0x7FFFFFFF
    ∧ fixedView (-2 ^ 40) = 0x80000000 ∧ (inFormat .pal).register 0x7C = 0x0A000000
    ∧ (inFormat .ntsc).register 0x7C = 0x09EE38E3 ∧ (inFormat .ntsc).register 0x3C = 0x01E002D0 := by decide

/-- V-BUS-7: CTRL keeps bit 0 only. -/
theorem test_bus_ctrl : (access (.write 0x0C .word 0xFFFFFFFF) State.reset).register 0x0C = 1 := by decide

/-! ## Host commands (V-ENC) -/

/-- V-ENC-1 (bus_err kept). -/
theorem test_nop : (run .nop { State.reset with host := { irqEn := true, busErr := true, result := .weak } }).host
    = { irqEn := true, busErr := true, result := .ok } := by decide

/-- V-ENC-14, 15: the order of the checks. -/
theorem test_processBuffer_checks :
    (run (.processBuffer 70000) State.reset).host.result = .badOperand
    ∧ (run (.processBuffer 50) State.reset).host.result = .noFormat
    ∧ (run (.processBuffer 0) (inFormat .pal)).host.result = .short := by decide

/-- A flat chunk is weak and counted (R124). -/
theorem test_processBuffer_weak : (run (.processBuffer 100) (inFormat .pal)).diag.syncErrors = 1
    ∧ (run (.processBuffer 100) (inFormat .pal)).host.result = .weak := by decide +kernel

/-- One chunk of 100 samples, the first of them 100 and the others 0: the levels come from the raw extremes, every
sample takes a step, and with no edge the phase is the sample count (R120, R122). -/
theorem test_processBuffer_ok :
    (fun t : State => (t.host.result, t.samplePos, t.pll.phase, t.lineBuf.length, t.levels.white, t.acc.valid))
      (run (.processBuffer 100) { inFormat .pal with chunk := [(0x010000, 100)] })
    = (.ok, 100, 6553600, 100, 6553600, true) := by decide +kernel

/-- V-ENC-3, and a change of format (R250). -/
theorem test_setFormat :
    (run (.setFormat 0) (inFormat .pal)).host.result = .badOperand
    ∧ (run (.setFormat 2) (inFormat .pal)).diag.formatChanges = 1 ∧ (run (.setFormat 3) State.reset).format = .secam
    ∧ (run (.setFormat 1) (inFormat .pal)).diag.formatChanges = 0 := by decide

/-- RESET keeps the chunk RAM and returns to UNKNOWN (R252). -/
theorem test_reset : (run .reset { inFormat .pal with chunk := [(0x10000, 1)] }).format = .unknown
    ∧ (run .reset { inFormat .pal with chunk := [(0x10000, 1)] }).chunk = [(0x10000, 1)] := by decide

/-- ACK clears what its bits name (R254). -/
theorem test_ack :
    let s : State := { State.reset with asm := ⟨false, false, true, 0⟩, host := ⟨false, true, .ok⟩ }
    (run (.ack true false) s).asm.displayReady = false ∧ (run (.ack true false) s).host.busErr = true
    ∧ (run (.ack false true) s).host.busErr = false := by decide

/-- V-ENC-13, 18. -/
theorem test_deinterlace_refusals : (run .deinterlace State.reset).host.result = .noFormat
    ∧ (run .deinterlace (inFormat .pal)).host.result = .noField
    ∧ (run .deinterlace (fields true false)).asm.displayGen = 1 := by decide

/-- V-ENC-20, and one bit alone. -/
theorem test_setFieldReady : (run (.setFieldReady false true) State.reset).asm
    = { ready0 := false, ready1 := true, displayReady := false, displayGen := 0 } := by decide

/-- FORMAT_RESET keeps the format, the counters and `display_gen` (R251). -/
theorem test_formatReset : (run .formatReset { pal 1 2 3 4 true with asm := ⟨true, true, true, 7⟩ }).asm = ⟨false, false, false, 7⟩
    ∧ (run .formatReset (pal 1 2 3 4 true)).pll = Pll.powerOn := by decide

/-! ## Filter, edges, levels (V-LP, V-EDGE, V-LV) -/

/-- V-LP-1, 3, 5. -/
theorem test_lpFilter :
    (run (.lpFilter 400) State.reset).filter.lpY = 2097152
    ∧ lowpassCount 400 26214388 = 26214388 ∧ lowpassCount (BitVec.ofInt 16 (-32768)) 0 = -171798692 := by decide

/-- V-EDGE-1, 2. -/
theorem test_edgeClassify :
    (run (.edgeClassify (-5)) { State.reset with
      filter := ⟨0, true⟩, levels := { Levels.powerOn with threshold := -5 } }).returned = .edges ⟨false, true, false⟩
    ∧ (run (.edgeClassify (-4)) { State.reset with
      filter := ⟨0, false⟩, levels := { Levels.powerOn with threshold := -5 } }).returned = .edges ⟨true, false, true⟩ := by
  decide

/-- V-LV-8. -/
theorem test_levelAccumulate :
    (run (.levelAccumulate 2) (run (.levelAccumulate (-3)) (run (.levelAccumulate 5) State.reset))).acc = ⟨true, -3, 5⟩ := by
  decide

/-- V-LV-1. -/
theorem test_levelBootstrap : (run (.levelBootstrap (BitVec.ofInt 16 (-600)) 400) State.reset).levels = levelsOne := by
  decide

/-- V-LV-4. -/
theorem test_levelCommit : (run .levelCommit { State.reset with
      levels := levelsOne, acc := ⟨true, -500 * 65536, 500 * 65536⟩ }).levels
    = { valid := true, syncTip := -590 * 65536, white := 410 * 65536, threshold := -340 * 65536
        blanking := -310 * 65536, black := -270 * 65536 } := by decide

/-- V-LV-9. -/
theorem test_levelDerive : (run .levelDerive { State.reset with
      levels := { Levels.powerOn with syncTip := -19660800, white := 45875188 } }).levels
    = { valid := false, syncTip := -19660800, white := 45875188, threshold := -3276803, blanking := -1310724
        black := 1310716 } := by decide

/-! ## Sync detectors (V-VS, V-HS) -/

/-- V-VS-1, 2, 3, 4, 5. -/
theorem test_vsync_half_lines :
    (run (.vsyncEdge true 10999) (atVsync false 3)).vsync.halfLineCount = 0
    ∧ (run (.vsyncEdge true 11000) (atVsync false 3)).vsync.halfLineCount = 4
    ∧ (run (.vsyncEdge true 11600) (atVsync false 3)).vsync.halfLineCount = 4
    ∧ (run (.vsyncEdge true 11601) (atVsync false 3)).vsync.halfLineCount = 0
    ∧ (run (.vsyncEdge true 11280) (atVsync false 5)).vsync.inVsync = true := by decide

/-- V-VS-6, 7, 8, 9. -/
theorem test_vsync_completion :
    (run (.vsyncEdge true 12199) (atVsync true 6)).returned = .completion false
    ∧ (run (.vsyncEdge true 12200) (atVsync true 6)).returned = .completion true
    ∧ (run (.vsyncEdge true 13000) (atVsync true 6)).returned = .completion true
    ∧ (run (.vsyncEdge true 13001) (atVsync true 6)).returned = .completion false := by decide

/-- V-HS-1, 2, 3, 4. -/
theorem test_hsync_widths :
    let s := run (.hsyncEdge true false 0) State.reset
    (run (.hsyncEdge false true 99) s).returned = .event false ∧ (run (.hsyncEdge false true 100) s).returned = .event true
    ∧ (run (.hsyncEdge false true 280) s).returned = .event true
    ∧ (run (.hsyncEdge false true 281) s).returned = .event false := by decide

/-- V-HS-6, 7. -/
theorem test_hsync_other_edges :
    (run (.hsyncEdge true false 20) (run (.hsyncEdge true false 0) State.reset)).hsync = ⟨true, 20⟩
    ∧ (run (.hsyncEdge false true 20) State.reset).hsync = Hsync.powerOn := by decide

/-! ## The PLL (V-PLL) -/

/-- V-PLL-3, 4, 12. -/
theorem test_phaseError :
    (run .phaseError (pal 83886080 0 0 0 false)).pll.error = 83886080
    ∧ (run .phaseError (pal 83886081 0 0 0 false)).pll.error = -83886079
    ∧ (run .phaseError (pal 100663296 0 0 0 false)).pll.error = -67108864 := by decide

/-- V-PLL-6, 7, 14, 16: the lock bound is strict; ten good events lock, five bad ones unlock. -/
theorem test_lockUpdate :
    (run .pllEvent (pal 8388608 0 3 0 false)).lock = ⟨0, 1, false⟩
    ∧ (run .pllEvent (pal 8388607 0 3 0 false)).lock = ⟨4, 0, false⟩
    ∧ (run .pllEvent (pal 34 0 9 0 false)).lock = ⟨10, 0, true⟩
    ∧ (run .lockUpdate { pal 0 0 0 4 true with pll := ⟨0, 0, 0, 19660800⟩ }).lock = ⟨0, 5, false⟩ := by decide

/-- V-PLL-1 and the clamp of V-PLL-9. -/
theorem test_pllCorrect :
    (run .pllCorrect { pal 0 0 0 0 false with pll := ⟨32178176, 0, 0, 32178176⟩ }).pll
      = ⟨27351449, 160890, 160890, 32178176⟩
    ∧ (run .pllCorrect { pal 0 0 0 0 false with pll := ⟨65536000, 3276700, 3276700, 65536000⟩ }).pll.integral
      = 3276800 := by decide

/-- V-PLL-10, 11: the spurious bound is strict. -/
theorem test_pllEvent : (run .pllEvent (pal 67108864 0 0 0 false)).pll.phase = 57042534
    ∧ (run .pllEvent (pal 67108865 0 0 0 false)).pll.phase = 67108865 := by decide

/-- V-PLL-30, 31, 38, 39. -/
theorem test_pllAdvance :
    (run .pllAdvance (pal 167706624 0 0 0 false)).lines.currentLine = 1
    ∧ (run .pllAdvance (pal 167706623 0 0 0 false)).pll.phase = 167772159
    ∧ (run .pllAdvance { pal 166541539 0 0 0 false with format := .ntsc }).lines.currentLine = 0
    ∧ (run .pllAdvance { pal 166541540 0 0 0 false with format := .ntsc }).pll.phase = 0 := by decide

/-- V-PLL-36, from the phase after the advance. -/
theorem test_lineBoundary : (run .lineBoundary (pal (2560 * 65536 + 32768) 0 0 0 false)).pll.phase = 32768
    ∧ (run .lineBoundary (pal (2560 * 65536) 0 0 0 false)).lines.currentLine = 1 := by decide

/-! ## The line decoder (V-LD) -/

theorem test_lineAppend : (run (.lineAppend 7) (atLine 0 [5, 6])).lineBuf = [5, 6, 7] := by decide

/-- V-LD-10, 11, 12: the box filter takes 11 samples, around source index 232. -/
theorem test_linePixel :
    (atLine 0 (List.replicate 232 0 ++ [110] ++ List.replicate 10 0)).linePixel 0 = 10
    ∧ (atLine 0 (List.replicate 226 0 ++ [100, 11] ++ List.replicate 20 0)).linePixel 0 = 1 := by decide

/-- V-LD-13, 14, 15, 16. -/
theorem test_lineDecode :
    (run .lineDecode (atLine 16 [1])).lines.linesDecoded = 0 ∧ (run .lineDecode (atLine 17 [1])).lines.linesDecoded = 1
    ∧ (run .lineDecode (atLine 304 [1])).lines.linesDecoded = 1
    ∧ (run .lineDecode (atLine 305 [1])).lines.linesDecoded = 0 := by decide

/-! ## The assembler (V-AS) -/

/-- The rule's examples: rows of a weave and of the two bobs (R232, R233, R234; V-AS-9). -/
theorem test_deinterlace_rows :
    (fields true true).weavePixel 2 0 = 8 ∧ (fields true true).weavePixel 1 0 = 10
    ∧ (fields true false).bobZeroPixel 288 1 0 = 131 ∧ (fields false true).bobOnePixel 2 0 = 10
    ∧ (fields false true).bobOnePixel 0 0 = 10 := by decide

/-- DEINTERLACE_CORE writes those rows. -/
theorem test_deinterlaceCore : (run .deinterlaceCore (fields true true)).framePixel 1 0 = 10 :=
  (framePixel_withFrameRows (fields true true) _ (by decide) (by decide)).trans (by decide)

/-- DISPLAY_COPY counts, wrapping (V-AS-8). -/
theorem test_displayCopy : (run .displayCopy { State.reset with
    asm := { Assembler.powerOn with displayGen := 0xFFFFFFFF } }).asm = ⟨false, false, true, 0⟩ := by decide

/-- V-AS-1, 2. -/
theorem test_startNewField :
    (run .startNewField { inFormat .pal with lines := ⟨200, 143, .zero⟩ }).asm = Assembler.powerOn
    ∧ (run .startNewField { inFormat .pal with lines := ⟨200, 144, .zero⟩ }).asm = ⟨true, false, true, 1⟩
    ∧ (run .startNewField { inFormat .pal with lines := ⟨200, 144, .zero⟩ }).lines = ⟨0, 0, .one⟩ := by decide

/-- V-AS-7. -/
theorem test_startNewField_weave : (run .startNewField { inFormat .pal with
    lines := ⟨300, 288, .one⟩, asm := ⟨true, false, false, 0⟩ }).diag.framesDecoded = 1 := by decide

/-! ## The sample step -/

/-- The first sample after reset: the filter moves, the accumulators take the filtered value, the sample is kept and the
phase advances by one sample (40_sample_step.md R122). -/
theorem test_sampleStep :
    (run (.sampleStep 400) (inFormat .pal)).filter = ⟨2097152, true⟩
    ∧ (run (.sampleStep 400) (inFormat .pal)).acc = ⟨true, 2097152, 2097152⟩
    ∧ (run (.sampleStep 400) (inFormat .pal)).pll.phase = 65536
    ∧ (run (.sampleStep 400) (inFormat .pal)).lineBuf = [400] ∧ (run (.sampleStep 400) (inFormat .pal)).samplePos = 1 := by
  decide

/-! ## The assembler's syntax (30_encoding.md R101, R102) -/

theorem test_assemble :
    assembleLine "PROCESS_BUFFER 0xC8 ; two hundred".toList = some 0x010000C8#32
    ∧ assembleLine "SET_FORMAT NTSC".toList = some 0x02000002#32
    ∧ assembleLine "ACK DISPLAY, BUSERR".toList = some 0x04000003#32
    ∧ assembleLine "ACK, BUSERR".toList = some 0x04000002#32 ∧ assembleLine "RESET,".toList = none
    ∧ assembleLine "PROCESS_BUFFER 16777216".toList = none ∧ assembleLine "SAMPLE_STEP 1".toList = none := by decide

theorem test_expand :
    (HostOp.loads [400, BitVec.ofInt 16 (-600), 7]).expand
      = [.write 0x010000 .word 0xFDA80190, .write 0x010004 .word 7]
    ∧ (HostOp.rdPixDisplay 1 4).expand = [.read 0x1802D4 .word] := by decide

/-! ## Witnesses: every hypothesis of a statement is met, at the ends of its range -/

/-- A chunk of 100 samples with range exactly 100. -/
def strongChunk : State := { inFormat .pal with chunk := [(0x010000, 100)] }

/-- A PAL state whose next access is a command. -/
def commanded (w : Word) : State := { inFormat .pal with pending := [commandWrite w] }

theorem witness_EncodedInstructionDecodesToItself :
    WellFormed .nop = true ∧ WellFormed (.edgeClassify (-2 ^ 63)) = true
    ∧ WellFormed (.levelAccumulate (2 ^ 63 - 1)) = true := by decide

theorem witness_DecodingFollowsTheOpcodeMap :
    decode [0x0100FFFF#32] = .ok (.processBuffer 65535)
    ∧ 0x94ABCDEF#32 &&& (opcodeRow .levelDerive).mask = (opcodeRow .levelDerive).pattern
    ∧ 0x05000000#32 &&& (opcodeRow .deinterlace).mask = (opcodeRow .deinterlace).pattern := by decide

theorem witness_StepRunsTheDecodedCommand :
    (commanded 0x04000003#32).callPort = [] ∧ (commanded 0x04000003#32).pending = [commandWrite 0x04000003#32]
    ∧ decode [0x04000003#32] = .ok (.ack true true) ∧ Instr.isCommand (.ack true true) = true := by decide

theorem witness_StepRunsTheDecodedCall :
    ({ State.reset with callPort := [0x81000000#32, 400#32] } : State).callPort = [0x81000000#32, 400#32]
    ∧ decode [0x81000000#32, 400#32] = .ok (.lpFilter 400) ∧ Instr.isCommand (.lpFilter 400) = false := by decide

theorem witness_NoAccessStopsTheBlock :
    State.reset.callPort = [] ∧ State.reset.pending = []
    ∧ (commanded 0xFFFFFFFF#32).pending = commandWrite 0xFFFFFFFF#32 :: [] := by decide

/-- Both outcomes of each opcode with reserved bits, and the ends of the last clause. -/
theorem witness_CommandWordDispatch :
    (0x00000000 / 2 ^ 24 = 0 ∧ 0x00000001 % 2 ^ 24 ≠ 0) ∧ 0x01FFFFFF / 2 ^ 24 = 1
    ∧ (0x02000003 / 2 ^ 24 = 2 ∧ 0x02000003 % 2 ^ 24 / 4 = 0 ∧ 0x02000004 % 2 ^ 24 / 4 ≠ 0)
    ∧ 0x03000000 / 2 ^ 24 = 3 ∧ 0x04000003 / 2 ^ 24 = 4 ∧ 0x05FFFFFF / 2 ^ 24 = 5 ∧ 0x06000000 / 2 ^ 24 = 6
    ∧ 7 ≤ 0x07000000 / 2 ^ 24 ∧ 7 ≤ 0xFFFFFFFF / 2 ^ 24 := by decide

/-- The first and last aligned address of each window. -/
theorem witness_AlignedReadReturnsTheWord :
    (∀ a ∈ [0x0, 0xFC, 0x100, 0xFFFC, 0x10000, 0x2FFFC, 0x30000, 0x3FFFC, 0x40000, 0x7FFFC, 0x80000, 0xBFFFC, 0xC0000,
      0xFFFFC, 0x100000, 0x17FFFC, 0x180000, 0x1FFFFC], (BitVec.ofNat 21 a).toNat = a ∧ a % 4 = 0)
    ∧ fieldBase .zero ≤ 0x40000 ∧ 0x7FFFC < fieldBase .zero + 0x40000
    ∧ fieldBase .one ≤ 0x80000 ∧ 0xBFFFC < fieldBase .one + 0x40000 := by decide

theorem witness_ChunkWordHoldsTwoSamples : (0 < 32768 ∧ 32767 < 32768) ∧ strongChunk.chunk.wf := by
  exact ⟨by decide, by decide, by decide⟩

theorem witness_FieldWriteStoresItsPixels :
    (BitVec.ofNat 21 0x72A00).toNat % 4 = 0 ∧ fieldBase .zero ≤ (BitVec.ofNat 21 0x72A00).toNat
    ∧ (BitVec.ofNat 21 0xBFFFC).toNat < fieldBase .one + 0x40000
    ∧ ((fields true true).fieldMem .one).wf := by
  exact ⟨by decide, by decide, by decide, by decide, by decide⟩

theorem witness_MisalignedAccessOnlySetsBusErr :
    (Width.byte ≠ .word ∨ (0#21).toNat % 4 ≠ 0) ∧ (Width.word ≠ .word ∨ (0x1FFFFF#21).toNat % 4 ≠ 0) := by decide

theorem witness_OtherWritesStoreNothingButCtrl :
    (∀ a ∈ [0x100, 0xFFFC, 0x30000, 0x3FFFC, 0xC0000, 0xFFFFC, 0x100000, 0x165400, 0x180000, 0x1E5400, 0x1FFFFC],
      (0x100 ≤ a ∧ a < 0x010000) ∨ (0x030000 ≤ a ∧ a < 0x040000) ∨ 0x0C0000 ≤ a)
    ∧ (∀ a ∈ [0x0, 0x8, 0xC, 0xFC], a < 0x100 ∧ a ≠ 0x04 ∧ a % 4 = 0) := by decide

/-- The line buffer at both ends of its bound. -/
theorem witness_IntegerRegistersShowTheirState :
    State.reset.LineBufferBounded
    ∧ ({ State.reset with lineBuf := List.replicate 4096 0 } : State).LineBufferBounded := by
  exact ⟨by decide, le_of_eq List.length_replicate⟩

theorem witness_InterruptIsLevelAndLoweredByItsClears :
    (1#2 ≠ 0 ∧ 3#2 ≠ 0) ∧ exec (.ack true false) State.reset = .next (run (.ack true false) State.reset)
    ∧ exec (.setFormat 1) State.reset = .next (run (.setFormat 1) State.reset)
    ∧ exec .reset State.reset = .next (run .reset State.reset) :=
  ⟨by decide, rfl, rfl, rfl⟩

theorem witness_ProcessBufferRefusesInCheckOrder :
    65536 < (65537#24).toNat ∧ ((65536#24).toNat ≤ 65536 ∧ State.reset.format = .unknown)
    ∧ ((inFormat .pal).format ≠ .unknown ∧ (99#24).toNat < 100 ∧ 100 ≤ (100#24).toNat)
    ∧ ∀ i < (100#24).toNat, ∀ j < (100#24).toNat,
        ((inFormat .pal).chunkSample i).toInt - ((inFormat .pal).chunkSample j).toInt < 100 := by
  have h : ∀ k, (inFormat .pal).chunkSample k = joinHalf 0 0 := fun _ => rfl
  refine ⟨by decide, by decide, by decide, fun i _ j _ => ?_⟩
  rw [h, h]
  decide

theorem witness_ProcessBufferRunsEverySample :
    strongChunk.format ≠ .unknown ∧ 100 ≤ (100#24).toNat ∧ (65536#24).toNat ≤ 65536
    ∧ (∃ i < (100#24).toNat, (strongChunk.chunkSample i).toInt = 0)
    ∧ (∀ i < (100#24).toNat, 0 ≤ (strongChunk.chunkSample i).toInt)
    ∧ (∃ i < (100#24).toNat, (strongChunk.chunkSample i).toInt = 100)
    ∧ (∀ i < (100#24).toNat, (strongChunk.chunkSample i).toInt ≤ 100) ∧ (100 : Int) ≤ 100 - 0 :=
  ⟨by decide, by decide, by decide, ⟨1, by decide, by decide⟩, by decide +kernel, ⟨0, by decide, by decide⟩,
   by decide +kernel, by decide⟩

/-- Two chunks in a row that are both processed. -/
theorem witness_SplitChunksActAsOneStream :
    ∃ t u : State, exec (.processBuffer 100) strongChunk = .next t ∧ t.host.result = .ok
      ∧ exec (.processBuffer 100) { t with chunk := strongChunk.chunk } = .next u ∧ u.host.result = .ok :=
  ⟨_, _, rfl, by decide +kernel, rfl, by decide +kernel⟩

/-- The first and the last row of the statement's table meet its hypothesis. -/
theorem witness_SetFormatSelectsAndResets :
    ((1 : BitVec 2), Format.pal, 625, 576, 576, 288, (2560 : ℚ), 232, 2080, 17) ∈
        [((1 : BitVec 2), Format.pal, 625, 576, 576, 288, (2560 : ℚ), 232, 2080, 17),
         (2, .ntsc, 525, 480, 480, 240, 22880 / 9, 188, 2106, 11),
         (3, .secam, 625, 576, 576, 288, 2560, 232, 2080, 17)]
    ∧ ((3 : BitVec 2), Format.secam, 625, 576, 576, 288, (2560 : ℚ), 232, 2080, 17) ∈
        [((1 : BitVec 2), Format.pal, 625, 576, 576, 288, (2560 : ℚ), 232, 2080, 17),
         (2, .ntsc, 525, 480, 480, 240, 22880 / 9, 188, 2106, 11),
         (3, .secam, 625, 576, 576, 288, 2560, 232, 2080, 17)] :=
  ⟨.head _, .tail _ (.tail _ (.head _))⟩

theorem witness_DeinterlaceCommandRunsTheDeinterlacer :
    State.reset.format = .unknown
    ∧ ((inFormat .ntsc).format ≠ .unknown ∧ (inFormat .ntsc).asm.ready0 = false ∧ (inFormat .ntsc).asm.ready1 = false)
    ∧ ((fields true false).format ≠ .unknown ∧ (fields true false).asm.ready0 = true)
    ∧ (fields false true).asm.ready1 = true := by decide

theorem witness_FormatRoundTripLeavesAFreshDecoder :
    ∃ a b c r f : State, exec (.setFormat 2) (pal 1 2 3 4 true) = .next a ∧ exec (.setFormat 1) a = .next b
      ∧ exec (.setFormat 2) b = .next c ∧ exec .reset (pal 1 2 3 4 true) = .next r ∧ exec (.setFormat 2) r = .next f :=
  ⟨_, _, _, _, _, rfl, rfl, rfl, rfl, rfl⟩

theorem witness_LowpassStaysWithinItsInputs :
    (-32768 : Int) ≤ (BitVec.ofInt 16 (-32768)).toInt ∧ (BitVec.ofInt 16 (-32768)).toInt ≤ 32767
    ∧ (-32768 : Int) * 65536 ≤ State.reset.filter.lpY ∧ State.reset.filter.lpY ≤ 32767 * 65536
    ∧ exec (.lpFilter (BitVec.ofInt 16 (-32768))) State.reset = .next (run (.lpFilter (BitVec.ofInt 16 (-32768))) State.reset) :=
  ⟨by decide, by decide, by decide, by decide, rfl⟩

theorem witness_AccumulateTracksTheExtremes :
    State.reset.acc.valid = false ∧ (run (.levelAccumulate 5) State.reset).acc.valid = true := by decide

theorem witness_LevelOrderNeedsEnoughRange :
    exec .levelDerive { State.reset with levels := levelsOne }
      = .next (run .levelDerive { State.reset with levels := levelsOne }) := rfl

theorem witness_CommitBlendsTheFieldExtremes :
    State.reset.acc.valid = false
    ∧ ((run (.levelAccumulate 5) State.reset).acc.valid = true ∧ (run (.levelAccumulate 5) State.reset).levels.valid = false)
    ∧ ({ State.reset with levels := levelsOne, acc := ⟨true, 0, 1⟩ } : State).levels.valid = true := by decide

/-- The states before each of a run of commits that all find the extremes 0 and 0, from the levels `tip` and `white`. -/
def commitRun (tip white : Int) : Nat → State
  | 0 => { State.reset with
      levels := { Levels.powerOn with valid := true, syncTip := tip, white := white }, acc := ⟨true, 0, 0⟩ }
  | k + 1 => { run .levelCommit (commitRun tip white k) with acc := ⟨true, 0, 0⟩ }

/-- Every start is met: at the target, and 1, 9 and 10 counts below it. -/
theorem witness_CommittedLevelConverges : ∀ tip white : Int,
    (commitRun tip white 0).levels.valid = true ∧ (∀ k, (commitRun tip white k).acc = ⟨true, 0, 0⟩)
    ∧ (∀ k, ∃ t, exec .levelCommit (commitRun tip white k) = .next t ∧ (commitRun tip white (k + 1)).levels = t.levels)
    ∧ (commitRun 0 (-1) 0).levels.syncTip = 0 ∧ (commitRun 0 (-1) 0).levels.white = -1
    ∧ (commitRun (-9) (-10) 0).levels.syncTip = -9 ∧ (commitRun (-9) (-10) 0).levels.white = -10 :=
  fun _ _ => ⟨rfl, fun k => by cases k <;> rfl, fun _ => ⟨_, rfl, rfl⟩, rfl, rfl, rfl, rfl⟩

/-- Each clause at the ends of its window. -/
theorem witness_VsyncClassifiesTheInterval :
    State.reset.vsync.lastEdgeValid = false
    ∧ (∀ p ∈ [11000, 11600], 1000 ≤ (p + 2 ^ 64 - (atVsync false 5).vsync.lastEdgePos.toNat) % 2 ^ 64
        ∧ (p + 2 ^ 64 - (atVsync false 5).vsync.lastEdgePos.toNat) % 2 ^ 64 ≤ 1600)
    ∧ ((atVsync true 6).vsync.lastEdgeValid = true ∧ (atVsync true 6).vsync.inVsync = true)
    ∧ (∀ p ∈ [12200, 13000], 2200 ≤ (p + 2 ^ 64 - (atVsync true 6).vsync.lastEdgePos.toNat) % 2 ^ 64
        ∧ (p + 2 ^ 64 - (atVsync true 6).vsync.lastEdgePos.toNat) % 2 ^ 64 ≤ 3000)
    ∧ (∀ d ∈ [0, 999, 1601, 2199, 3001, 2 ^ 64 - 1], ¬ (1000 ≤ d ∧ d ≤ 1600) ∧ ¬ (2200 ≤ d ∧ d ≤ 3000))
    ∧ ¬ ((atVsync false 6).vsync.inVsync = true ∧ 2200 ≤ 2560 ∧ 2560 ≤ 3000) := by decide

/-- The states before each of a run of falling edges `d` apart, the first of them at `p + d`. -/
def edgeRun (s : State) (p d : Nat) : Nat → State
  | 0 => s
  | k + 1 => run (.vsyncEdge true (BitVec.ofNat 64 (p + (k + 1) * d))) (edgeRun s p d k)

/-- Both starts are met, with the window's ends and the counts around the sixth interval. -/
theorem witness_SixthHalfLineEntersVsync : ∀ d : Nat,
    (∀ k, exec (.vsyncEdge true (BitVec.ofNat 64 (10000 + (k + 1) * d))) (edgeRun (atVsync false 0) 10000 d k)
      = .next (edgeRun (atVsync false 0) 10000 d (k + 1)))
    ∧ (edgeRun (atVsync false 0) 10000 d 0).vsync.halfLineCount = 0
    ∧ (edgeRun (atVsync false 0) 10000 d 0).vsync.lastEdgeValid = true
    ∧ (edgeRun (atVsync false 0) 10000 d 0).vsync.lastEdgePos = BitVec.ofNat 64 10000
    ∧ (edgeRun State.reset 10000 d 0).vsync.lastEdgeValid = false
    ∧ (1000 ≤ 1000 ∧ 1600 ≤ 1600) ∧ 5 < 2 ^ 32 ∧ 6 < 2 ^ 32 :=
  fun _ => ⟨fun _ => rfl, rfl, rfl, rfl, rfl, by decide, by decide, by decide⟩

theorem witness_HsyncMeasuresThePulse :
    State.reset.hsync.inPulse = false ∧ (run (.hsyncEdge true false 0) State.reset).hsync.inPulse = true := by decide

theorem witness_PhaseErrorIsTheWrappedPhase :
    let period := (pal 0 0 0 0 false).geom.period
    (pal 0 0 0 0 false).format ≠ .unknown
    ∧ (-(period / 2) ≤ valueOf (pal 83886080 0 0 0 false).pll.phase ∧ valueOf (pal 83886080 0 0 0 false).pll.phase ≤ period / 2)
    ∧ (-(period / 2) ≤ valueOf (pal (-83886080) 0 0 0 false).pll.phase)
    ∧ period / 2 < valueOf (pal 83886081 0 0 0 false).pll.phase
    ∧ valueOf (pal (-83886081) 0 0 0 false).pll.phase < -(period / 2) := by
  refine ⟨by decide, ?_⟩
  norm_num [pal, inFormat, State.geom, geometryOf, geometry625, Geometry.period, valueOf]

theorem witness_LockFollowsConsecutiveEvents :
    |valueOf 8388607| < (pal 0 0 9 0 false).geom.period / 20 ∧ |valueOf (-8388607)| < (pal 0 0 9 0 false).geom.period / 20
    ∧ (pal 0 0 0 4 true).geom.period / 20 ≤ |valueOf 8388608|
    ∧ (pal 0 0 0 4 true).geom.period / 20 ≤ |valueOf (-8388608)| := by
  norm_num [pal, inFormat, State.geom, geometryOf, geometry625, Geometry.period, valueOf, abs_div]

theorem witness_SpuriousEventCorrectsNothing :
    2 / 5 * (inFormat .pal).geom.period < |valueOf (phaseError (pal 67108865 0 0 0 false)).pll.error|
    ∧ |valueOf (phaseError (pal 67108864 0 0 0 false)).pll.error| ≤ 2 / 5 * (inFormat .pal).geom.period := by
  have h1 : (phaseError (pal 67108865 0 0 0 false)).pll.error = 67108865 := by decide
  have h2 : (phaseError (pal 67108864 0 0 0 false)).pll.error = 67108864 := by decide
  rw [h1, h2]
  norm_num [inFormat, State.geom, geometryOf, geometry625, Geometry.period, valueOf, abs_div]

theorem witness_AdvanceFiresAtTheEffectivePeriod :
    (inFormat .pal).geom.period + valueOf 0 ≤ valueOf 167706624 + 1
    ∧ valueOf 167706623 + 1 < (inFormat .pal).geom.period + valueOf 0 := by
  norm_num [inFormat, State.geom, geometryOf, geometry625, Geometry.period, valueOf]

theorem witness_AppendStopsAtTheCapacity :
    (atLine 0 (List.replicate 4095 0)).lineBuf.length < 4096 ∧ 4096 ≤ (atLine 0 (List.replicate 4096 0)).lineBuf.length :=
  ⟨(List.length_replicate (n := 4095) (a := (0 : Sample))).trans_lt (by decide),
   (List.length_replicate (n := 4096) (a := (0 : Sample))).ge⟩

theorem witness_PixelIsTheNormalisedBoxMean :
    ((Finset.range (atLine 0 []).lineBuf.length).filter fun k : Nat => (232 : Int) - 5 ≤ k ∧ (k : Int) ≤ 232 + 5) = ∅
    ∧ ((Finset.range 228).filter fun k : Nat => (232 : Int) - 5 ≤ k ∧ (k : Int) ≤ 232 + 5) ≠ ∅
    ∧ (State.reset.levels.white ≤ State.reset.levels.black ∧ (atLine 0 []).levels.black < (atLine 0 []).levels.white) := by
  exact ⟨rfl, Finset.Nonempty.ne_empty ⟨227, by simp⟩, by decide⟩

theorem witness_LineDecodeWritesTheActiveRow :
    (∀ l ∈ [17, 304], (atLine 0 []).geom.firstActive ≤ l ∧ l < (atLine 0 []).geom.firstActive + (atLine 0 []).geom.fieldHeight)
    ∧ ∀ l ∈ [0, 16, 305, 4294967295],
        ¬ ((atLine 0 []).geom.firstActive ≤ l ∧ l < (atLine 0 []).geom.firstActive + (atLine 0 []).geom.fieldHeight) := by
  decide

theorem witness_WeaveInterleavesTheFields :
    (fields true true).asm.ready0 = true ∧ (fields true true).asm.ready1 = true
    ∧ (0 < (fields true true).geom.fieldHeight ∧ 287 < (fields true true).geom.fieldHeight ∧ 719 < 720) := by decide

theorem witness_BobFromFieldZeroAverages :
    (fields true false).asm.ready0 = true ∧ (fields true false).asm.ready1 = false
    ∧ (286 + 1 < (fields true false).geom.fieldHeight ∧ 287 + 1 = (fields true false).geom.fieldHeight) := by decide

theorem witness_BobFromFieldOneAverages :
    ((fields false true).asm.ready0 = false ∧ (fields false true).asm.ready1 = true)
    ∧ ((fields false false).asm.ready0 = false ∧ (fields false false).asm.ready1 = false)
    ∧ 0 < 287 ∧ 287 < (fields false true).geom.fieldHeight := by decide

theorem witness_DisplayCopyPublishesTheFrame : 0 < (inFormat .ntsc).geom.frameHeight ∧ 479 < (inFormat .ntsc).geom.frameHeight := by
  decide

theorem witness_NewFieldAssemblesOrDiscards :
    2 * (143#32).toNat < (inFormat .pal).geom.fieldHeight ∧ (inFormat .pal).geom.fieldHeight ≤ 2 * (144#32).toNat := by
  decide

theorem witness_SampleStepRunsTheUnitsInOrder :
    (inFormat .pal).samplePos.toNat % 16 = 0 ∧ ({ inFormat .pal with samplePos := 15 } : State).samplePos.toNat % 16 ≠ 0 := by
  decide

theorem witness_EveryStepKeepsTheBuffersCanonical :
    (commanded 0x02000001#32).BuffersCanonical
    ∧ step (commanded 0x02000001#32) = .next (nextOf (step (commanded 0x02000001#32))) := by
  refine ⟨?_, rfl⟩
  decide

theorem witness_EveryStepKeepsTheStateSound :
    (commanded 0x02000001#32).Sound ∧ step (commanded 0x02000001#32) = .next (nextOf (step (commanded 0x02000001#32))) := by
  refine ⟨⟨by decide, by decide, by decide, by decide, by decide, fun _ => by decide, by decide, by decide, by decide,
    by decide, by decide⟩, rfl⟩

theorem witness_DiagnosticCountersNeverDecrease :
    step (commanded 0x02000002#32) = .next (nextOf (step (commanded 0x02000002#32)))
    ∧ (commanded 0x02000002#32).callPort = []
    ∧ ∀ rest, (commanded 0x02000002#32).pending ≠ commandWrite 0x03000000#32 :: rest := by
  refine ⟨rfl, rfl, fun rest h => ?_⟩
  injection h with h1 h2
  exact absurd h1 (by decide)

theorem witness_OnlySetFormatAndResetChangeTheFormat :
    step (commanded 0x02000002#32) = .next (nextOf (step (commanded 0x02000002#32)))
    ∧ (nextOf (step (commanded 0x02000002#32))).format ≠ (commanded 0x02000002#32).format
    ∧ (nextOf (step (commanded 0x03000000#32))).format ≠ (commanded 0x03000000#32).format :=
  ⟨rfl, by decide, by decide⟩

theorem witness_OnlyCommandsChangeTheResult :
    step (commanded 0x07000000#32) = .next (nextOf (step (commanded 0x07000000#32)))
    ∧ (nextOf (step (commanded 0x07000000#32))).host.result ≠ (commanded 0x07000000#32).host.result :=
  ⟨rfl, by decide⟩

theorem witness_SecamBehavesAsPal :
    (∀ f, Instr.lineDecode ≠ .setFormat f) ∧ Instr.lineDecode ≠ .reset ∧ (atLine 17 [1]).format = .pal
    ∧ exec .lineDecode (atLine 17 [1]) = .next (run .lineDecode (atLine 17 [1])) :=
  ⟨(fun _ h => by cases h), by decide, rfl, rfl⟩

theorem witness_LockStateIsOutputOnly : exec .pllEvent (pal 34 0 9 0 false) = .next (run .pllEvent (pal 34 0 9 0 false)) := rfl

end Sys2Proof.Machine.Tests
end

section
/-! PROOFS. The scope of the model (00_scope.md): SECAM is processed as PAL by every instruction but the two that
write `format`; SET_FORMAT selects a row of the format tables; RESET gives the power-on state. -/

namespace Sys2Proof.Machine

/-! ## SECAM in place of PAL (00_scope.md R8)

`State.inSecam` puts the format to SECAM. An operation that does not ask for the format commutes with it; one that
asks for the geometry does so from a state in PAL, whose geometry SECAM shares (`geom_inSecam`). -/

/-- The same state in SECAM. -/
def State.inSecam (s : State) : State := { s with format := .secam }

/-- Step 6 of `SAMPLE_STEP`: a valid event corrects the PLL (40_sample_step.md R122). -/
def correctOnEvent (valid : Bool) (s : State) : State := if valid then pllEvent s else s

@[simp] theorem correctOnEvent_format (valid : Bool) (s : State) : (correctOnEvent valid s).format = s.format := by
  unfold correctOnEvent; split <;> simp

/-- Steps 9 and 10 of `SAMPLE_STEP`, the first of them on a completion only (40_sample_step.md R122). -/
def finishSample (done above : Bool) (p : Position) (s : State) : State :=
  let t := if done then startNewField s else s
  { t with filter := { t.filter with prevAbove := above }, samplePos := p + 1 }

/-- `SAMPLE_STEP` as a chain of state updates. -/
theorem sampleStep_eq (x : Sample) (s : State) :
    sampleStep x s =
      let s2 := filterAndAccumulate x s
      let e := edgeClassify s2.filter.lpY s2
      let v := vsyncEdge e.fall s.samplePos s2
      let h := hsyncEdge e.fall e.rise s.samplePos v.2
      finishSample v.1 e.above s.samplePos (appendAndAdvance x (correctOnEvent h.1 h.2)) := rfl

section Commute

variable {s : State}

@[simp] theorem inSecam_frame (s : State) :
    s.inSecam.samplePos = s.samplePos ∧ s.inSecam.filter = s.filter ∧ s.inSecam.hsync = s.hsync
    ∧ s.inSecam.vsync = s.vsync ∧ s.inSecam.levels = s.levels ∧ s.inSecam.acc = s.acc ∧ s.inSecam.pll = s.pll
    ∧ s.inSecam.lock = s.lock ∧ s.inSecam.lines = s.lines ∧ s.inSecam.asm = s.asm ∧ s.inSecam.diag = s.diag
    ∧ s.inSecam.host = s.host ∧ s.inSecam.lineBuf = s.lineBuf ∧ s.inSecam.field0 = s.field0
    ∧ s.inSecam.field1 = s.field1 ∧ s.inSecam.frame = s.frame ∧ s.inSecam.display = s.display
    ∧ s.inSecam.chunk = s.chunk :=
  ⟨rfl, rfl, rfl, rfl, rfl, rfl, rfl, rfl, rfl, rfl, rfl, rfl, rfl, rfl, rfl, rfl, rfl, rfl⟩

@[simp] theorem inSecam_format (s : State) : s.inSecam.format = .secam := rfl

/-- SECAM shares PAL's geometry (00_scope.md R8): the one fact about formats that the operations rest on. -/
@[simp] theorem geom_inSecam (hs : s.format = .pal) : s.inSecam.geom = s.geom := by
  simp [State.geom, geometryOf, hs]

theorem ite_inSecam (c : Prop) [Decidable c] (a b : State) :
    (if c then a.inSecam else b.inSecam) = (if c then a else b).inSecam :=
  (apply_ite State.inSecam c a b).symm

/-! ### Levels and filter -/

@[simp] theorem setResult_inSecam (r : Result) : setResult r s.inSecam = (setResult r s).inSecam := rfl
@[simp] theorem levelDerive_inSecam : levelDerive s.inSecam = (levelDerive s).inSecam := rfl
@[simp] theorem levelBootstrap_inSecam (mn mx : Int) :
    levelBootstrap mn mx s.inSecam = (levelBootstrap mn mx s).inSecam := rfl
@[simp] theorem levelCommit_inSecam : levelCommit s.inSecam = (levelCommit s).inSecam := rfl
@[simp] theorem levelAccumulate_inSecam (y : Int) :
    levelAccumulate y s.inSecam = (levelAccumulate y s).inSecam := rfl
@[simp] theorem lpFilter_inSecam (x : Sample) : lpFilter x s.inSecam = (lpFilter x s).inSecam := rfl
@[simp] theorem edgeClassify_inSecam (y : Int) : edgeClassify y s.inSecam = edgeClassify y s := rfl

@[simp] theorem filterAndAccumulate_inSecam (x : Sample) :
    filterAndAccumulate x s.inSecam = (filterAndAccumulate x s).inSecam := by
  simp [filterAndAccumulate, ite_inSecam]

/-! ### Sync detectors -/

@[simp] theorem vsyncEdge_inSecam (fall : Bool) (p : Position) :
    vsyncEdge fall p s.inSecam = ((vsyncEdge fall p s).1, (vsyncEdge fall p s).2.inSecam) := by
  cases fall <;> rfl

@[simp] theorem hsyncEdge_inSecam (fall rise : Bool) (p : Position) :
    hsyncEdge fall rise p s.inSecam = ((hsyncEdge fall rise p s).1, (hsyncEdge fall rise p s).2.inSecam) := by
  cases fall with
  | true => rfl
  | false =>
    simp only [hsyncEdge, inSecam_frame]
    cases rise && s.hsync.inPulse <;> rfl

/-! ### The PLL and the line decoder -/

@[simp] theorem phaseError_inSecam (hs : s.format = .pal) : phaseError s.inSecam = (phaseError s).inSecam := by
  simp only [phaseError, geom_inSecam hs]; rfl

@[simp] theorem isGoodEvent_inSecam (hs : s.format = .pal) : s.inSecam.isGoodEvent = s.isGoodEvent := by
  simp [State.isGoodEvent, hs]

@[simp] theorem isSpuriousEvent_inSecam (hs : s.format = .pal) : s.inSecam.isSpuriousEvent = s.isSpuriousEvent := by
  simp [State.isSpuriousEvent, hs]

@[simp] theorem effectivePeriod9_inSecam (hs : s.format = .pal) :
    s.inSecam.effectivePeriod9 = s.effectivePeriod9 := by
  simp [State.effectivePeriod9, hs]

@[simp] theorem lockUpdate_inSecam (hs : s.format = .pal) : lockUpdate s.inSecam = (lockUpdate s).inSecam := by
  simp only [lockUpdate, isGoodEvent_inSecam hs]; rfl

@[simp] theorem pllCorrect_inSecam : pllCorrect s.inSecam = (pllCorrect s).inSecam := rfl

@[simp] theorem pllEvent_inSecam (hs : s.format = .pal) : pllEvent s.inSecam = (pllEvent s).inSecam := by
  simp [pllEvent, hs, ite_inSecam]

@[simp] theorem lineAppend_inSecam (x : Sample) : lineAppend x s.inSecam = (lineAppend x s).inSecam :=
  ite_inSecam _ { s with lineBuf := s.lineBuf ++ [x] } s

@[simp] theorem withFieldMem_inSecam (b : FieldId) (m : Memory) :
    s.inSecam.withFieldMem b m = (s.withFieldMem b m).inSecam := by cases b <;> rfl

@[simp] theorem fieldMem_inSecam (b : FieldId) : s.inSecam.fieldMem b = s.fieldMem b := by cases b <;> rfl

@[simp] theorem linePixel_inSecam (hs : s.format = .pal) : s.inSecam.linePixel = s.linePixel := by
  funext c; simp [State.linePixel, hs]

@[simp] theorem writeLineRow_inSecam (hs : s.format = .pal) : writeLineRow s.inSecam = (writeLineRow s).inSecam := by
  simp [writeLineRow, hs]

@[simp] theorem lineDecode_inSecam (hs : s.format = .pal) : lineDecode s.inSecam = (lineDecode s).inSecam := by
  simp only [lineDecode, geom_inSecam hs, writeLineRow_inSecam hs]
  exact ite_inSecam _ { writeLineRow s with lines := _, lineBuf := _ } { s with lineBuf := _ }

@[simp] theorem lineBoundary_inSecam (hs : s.format = .pal) : lineBoundary s.inSecam = (lineBoundary s).inSecam := by
  have ht : (lineDecode s).format = .pal := by simpa using hs
  simp only [lineBoundary, lineDecode_inSecam hs, effectivePeriod9_inSecam ht]; rfl

@[simp] theorem pllAdvance_inSecam (hs : s.format = .pal) : pllAdvance s.inSecam = (pllAdvance s).inSecam := by
  have boundary (t : State) (ht : t.format = .pal) :
      (if t.inSecam.effectivePeriod9 ≤ 9 * t.inSecam.pll.phase then lineBoundary t.inSecam else t.inSecam)
        = (if t.effectivePeriod9 ≤ 9 * t.pll.phase then lineBoundary t else t).inSecam := by
    simp [ht, ite_inSecam]
  exact boundary { s with pll := { s.pll with phase := s.pll.phase + Config.one } } hs

@[simp] theorem appendAndAdvance_inSecam (x : Sample) (hs : s.format = .pal) :
    appendAndAdvance x s.inSecam = (appendAndAdvance x s).inSecam := by
  simp [appendAndAdvance, hs]

/-! ### The assembler -/

@[simp] theorem withFrameRows_inSecam (f : Nat → Nat → Byte) (hs : s.format = .pal) :
    s.inSecam.withFrameRows f = (s.withFrameRows f).inSecam := by
  simp only [State.withFrameRows, geom_inSecam hs]; rfl

@[simp] theorem deinterlaceCore_inSecam (hs : s.format = .pal) :
    deinterlaceCore s.inSecam = (deinterlaceCore s).inSecam := by
  have weave : s.inSecam.weavePixel = s.weavePixel := by
    funext row col; simp [State.weavePixel, State.fieldPixel]
  have bobZero (h : Nat) : s.inSecam.bobZeroPixel h = s.bobZeroPixel h := rfl
  have bobOne : s.inSecam.bobOnePixel = s.bobOnePixel := rfl
  simp [deinterlaceCore, hs, weave, bobZero, bobOne, ite_inSecam]

@[simp] theorem displayCopy_inSecam (hs : s.format = .pal) : displayCopy s.inSecam = (displayCopy s).inSecam := by
  simp only [displayCopy, geom_inSecam hs]; rfl

@[simp] theorem markReady_inSecam (b : FieldId) : markReady b s.inSecam = (markReady b s).inSecam := by
  cases b <;> rfl

@[simp] theorem countFrame_inSecam : countFrame s.inSecam = (countFrame s).inSecam :=
  ite_inSecam _ { s with diag := { s.diag with framesDecoded := satSucc s.diag.framesDecoded } } s

@[simp] theorem assembleField_inSecam (hs : s.format = .pal) :
    assembleField s.inSecam = (assembleField s).inSecam := by
  simp [assembleField, hs]

@[simp] theorem fieldAccepted_inSecam (hs : s.format = .pal) : s.inSecam.fieldAccepted = s.fieldAccepted := by
  simp [State.fieldAccepted, hs]

@[simp] theorem startNewField_inSecam (hs : s.format = .pal) :
    startNewField s.inSecam = (startNewField s).inSecam := by
  simp only [startNewField, fieldAccepted_inSecam hs, assembleField_inSecam hs, ite_inSecam, levelCommit_inSecam]
  rfl

/-! ### The sample step and the host commands -/

@[simp] theorem correctOnEvent_inSecam (valid : Bool) (hs : s.format = .pal) :
    correctOnEvent valid s.inSecam = (correctOnEvent valid s).inSecam := by
  simp [correctOnEvent, hs, ite_inSecam]

@[simp] theorem finishSample_inSecam (done above : Bool) (p : Position) (hs : s.format = .pal) :
    finishSample done above p s.inSecam = (finishSample done above p s).inSecam := by
  simp only [finishSample, startNewField_inSecam hs, ite_inSecam]; rfl

@[simp] theorem sampleStep_inSecam (x : Sample) (hs : s.format = .pal) :
    sampleStep x s.inSecam = (sampleStep x s).inSecam := by
  simp [sampleStep_eq, hs]

@[simp] theorem sampleSteps_inSecam (xs : List Sample) (hs : s.format = .pal) :
    sampleSteps xs s.inSecam = (sampleSteps xs s).inSecam := by
  induction xs generalizing s with
  | nil => rfl
  | cons x xs ih =>
    calc sampleSteps (x :: xs) s.inSecam = sampleSteps xs (sampleStep x s).inSecam :=
          congrArg (sampleSteps xs) (sampleStep_inSecam x hs)
      _ = (sampleSteps (x :: xs) s).inSecam := ih (by simpa using hs)

@[simp] theorem bootstrapOnce_inSecam (xs : List Sample) :
    bootstrapOnce xs s.inSecam = (bootstrapOnce xs s).inSecam :=
  ite_inSecam _ s (levelBootstrap (minSample xs) (maxSample xs) s)

@[simp] theorem countSyncError_inSecam : countSyncError s.inSecam = (countSyncError s).inSecam := rfl

@[simp] theorem processSamples_inSecam (xs : List Sample) (hs : s.format = .pal) :
    processSamples xs s.inSecam = (processSamples xs s).inSecam := by
  simp [processSamples, hs, ite_inSecam]

/-- PROCESS_BUFFER asks whether the format is UNKNOWN (40_sample_step.md R123), and neither PAL nor SECAM is. -/
@[simp] theorem processBuffer_inSecam (count : Nat) (hs : s.format = .pal) :
    processBuffer count s.inSecam = (processBuffer count s).inSecam := by
  have samples : s.inSecam.chunkSamples count = s.chunkSamples count := rfl
  simp [processBuffer, hs, samples, ite_inSecam]

@[simp] theorem formatReset_inSecam : formatReset s.inSecam = (formatReset s).inSecam := rfl
@[simp] theorem ackFlags_inSecam (d e : Bool) : ackFlags d e s.inSecam = (ackFlags d e s).inSecam := rfl
@[simp] theorem setFieldReady_inSecam (r0 r1 : Bool) :
    setFieldReady r0 r1 s.inSecam = (setFieldReady r0 r1 s).inSecam := rfl

/-- DEINTERLACE asks whether the format is UNKNOWN (48_host_commands.md R255), and neither PAL nor SECAM is. -/
@[simp] theorem deinterlace_inSecam (hs : s.format = .pal) : deinterlace s.inSecam = (deinterlace s).inSecam := by
  simp [deinterlace, hs, ite_inSecam]

/-! ### Every instruction -/

/-- An operation that commutes with `inSecam` answers the same next state, in SECAM. -/
theorem next_inSecam {u v t : State} (huv : u = v.inSecam)
    (ht : (Host.Outcome.next v : Host.Outcome State Fault Refusal) = .next t) :
    (Host.Outcome.next u : Host.Outcome State Fault Refusal) = .next t.inSecam := by
  cases ht; rw [huv]

theorem exec_inSecam {i : Instr} {t : State} (hset : ∀ f, i ≠ .setFormat f) (hreset : i ≠ .reset)
    (hs : s.format = .pal) (ht : exec i s = .next t) : exec i s.inSecam = .next t.inSecam := by
  cases i with
  | setFormat f => exact absurd rfl (hset f)
  | reset => exact absurd rfl hreset
  | nop => exact next_inSecam (setResult_inSecam .ok) ht
  | processBuffer count => exact next_inSecam (processBuffer_inSecam count.toNat hs) ht
  | ack d e => exact next_inSecam (congrArg (setResult .ok) (ackFlags_inSecam d e)) ht
  | deinterlace => exact next_inSecam (deinterlace_inSecam hs) ht
  | setFieldReady r0 r1 => exact next_inSecam (congrArg (setResult .ok) (setFieldReady_inSecam r0 r1)) ht
  | sampleStep x => exact next_inSecam (sampleStep_inSecam x hs) ht
  | lpFilter x => exact next_inSecam (lpFilter_inSecam x) ht
  | edgeClassify y => exact next_inSecam (v := { s with returned := .edges (edgeClassify y s) }) rfl ht
  | levelAccumulate y => exact next_inSecam (levelAccumulate_inSecam y) ht
  | levelCommit => exact next_inSecam levelCommit_inSecam ht
  | levelBootstrap mn mx => exact next_inSecam (levelBootstrap_inSecam mn.toInt mx.toInt) ht
  | vsyncEdge fall p =>
    exact next_inSecam (congrArg (fun r : Bool × State => { r.2 with returned := .completion r.1 })
      (vsyncEdge_inSecam fall p)) ht
  | hsyncEdge fall rise p =>
    exact next_inSecam (congrArg (fun r : Bool × State => { r.2 with returned := .event r.1 })
      (hsyncEdge_inSecam fall rise p)) ht
  | pllEvent => exact next_inSecam (pllEvent_inSecam hs) ht
  | phaseError => exact next_inSecam (phaseError_inSecam hs) ht
  | lockUpdate => exact next_inSecam (lockUpdate_inSecam hs) ht
  | pllCorrect => exact next_inSecam pllCorrect_inSecam ht
  | pllAdvance => exact next_inSecam (pllAdvance_inSecam hs) ht
  | lineBoundary => exact next_inSecam (lineBoundary_inSecam hs) ht
  | lineAppend x => exact next_inSecam (lineAppend_inSecam x) ht
  | lineDecode => exact next_inSecam (lineDecode_inSecam hs) ht
  | startNewField => exact next_inSecam (startNewField_inSecam hs) ht
  | deinterlaceCore => exact next_inSecam (deinterlaceCore_inSecam hs) ht
  | displayCopy => exact next_inSecam (displayCopy_inSecam hs) ht
  | formatReset => exact next_inSecam formatReset_inSecam ht
  | levelDerive => exact next_inSecam levelDerive_inSecam ht

end Commute

/-- Settles O58: every operation commutes with putting a PAL state to SECAM. -/
theorem secamBehavesAsPal : Obligations.SecamBehavesAsPal :=
  fun _ _ _ hset hreset hs ht => exec_inSecam hset hreset hs ht

/-! ## SET_FORMAT (48_host_commands.md R250) -/

/-- SET_FORMAT of a code that is not 0 runs FORMAT_RESET on the state with the format selected and the change counted,
and writes OK. -/
theorem exec_setFormat_of_ne_zero (s : State) {fmt : BitVec 2} (h : fmt ≠ 0) :
    exec (.setFormat fmt) s = .next (setResult .ok (formatReset (selectFormat (formatOfCode fmt) s))) := by
  change Host.Outcome.next (setFormat fmt s) = _
  rw [setFormat, if_neg h]

/-- The count of format changes is `sat32` of one more (00_scope.md R11, 48_host_commands.md R259). -/
theorem selectFormat_eq (f : Format) (s : State) :
    selectFormat f s = { s with
      format := f
      diag := if f = s.format then s.diag else
        { s.diag with formatChanges := BitVec.ofNat 32 (sat32 (s.diag.formatChanges.toNat + 1)) } } := by
  rw [selectFormat, satSucc_eq]

theorem geometry625_period : geometry625.period = 2560 := by norm_num [Geometry.period, geometry625]

theorem geometry525_period : geometry525.period = 22880 / 9 := by norm_num [Geometry.period, geometry525]

/-- Settles O20, row by row of the table of formats. -/
theorem setFormatSelectsAndResets : Obligations.SetFormatSelectsAndResets := by
  intro s
  refine ⟨rfl, fun fmt f total active frame field start count first period hrow => ?_⟩
  rw [← selectFormat_eq]
  refine ⟨formatReset (selectFormat f s), rfl, ?_⟩
  simp only [List.mem_cons, List.not_mem_nil, or_false, Prod.mk.injEq] at hrow
  rcases hrow with row | row | row <;> obtain ⟨rfl, rfl, rfl, rfl, rfl, rfl, rfl, rfl, rfl, rfl⟩ := row
  · exact ⟨exec_setFormat_of_ne_zero s (by decide), rfl, rfl, rfl, rfl, rfl, geometry625_period, rfl, rfl, rfl⟩
  · exact ⟨exec_setFormat_of_ne_zero s (by decide), rfl, rfl, rfl, rfl, rfl, geometry525_period, rfl, rfl, rfl⟩
  · exact ⟨exec_setFormat_of_ne_zero s (by decide), rfl, rfl, rfl, rfl, rfl, geometry625_period, rfl, rfl, rfl⟩

/-! ## RESET (48_host_commands.md R252, 70_reset_and_hazards.md R300) -/

/-- RESET leaves what it keeps and the power-on state elsewhere, whose `result` is OK already. -/
theorem exec_reset (s : State) : exec .reset s = .next (resetBlock s) := rfl

theorem fixedView_zero : fixedView 0 = 0 := by decide

/-- The fields that the register window shows, after RESET. -/
@[simp] theorem resetBlock_fields (s : State) :
    (resetBlock s).format = .unknown ∧ (resetBlock s).samplePos = 0 ∧ (resetBlock s).lineBuf = []
    ∧ (resetBlock s).filter = ⟨0, false⟩ ∧ (resetBlock s).hsync = ⟨false, 0⟩
    ∧ (resetBlock s).vsync = ⟨0, false, false, 0⟩ ∧ (resetBlock s).levels = ⟨false, 0, 0, 0, 0, 0⟩
    ∧ (resetBlock s).acc = ⟨false, 0, 0⟩ ∧ (resetBlock s).pll = ⟨0, 0, 0, 0⟩ ∧ (resetBlock s).lock = ⟨0, 0, false⟩
    ∧ (resetBlock s).lines = ⟨0, 0, .zero⟩ ∧ (resetBlock s).asm = ⟨false, false, false, 0⟩
    ∧ (resetBlock s).diag = ⟨0, 0, 0⟩ ∧ (resetBlock s).host = ⟨false, false, .ok⟩ :=
  ⟨rfl, rfl, rfl, rfl, rfl, rfl, rfl, rfl, rfl, rfl, rfl, rfl, rfl, rfl⟩

theorem statusWord_resetBlock (s : State) : (resetBlock s).statusWord = 0 := by
  simp [State.statusWord, State.irq, resultCode, formatCode, FieldId.bit]

theorem geometryWord_resetBlock (s : State) : (resetBlock s).geometryWord = 0x000002D0#32 := by
  simp [State.geometryWord, State.geom, geometryOf, geometryUnknown]

theorem linePeriodWord_resetBlock (s : State) : (resetBlock s).linePeriodWord = 0 := rfl

/-- After RESET every register but ID and GEOMETRY reads 0 (70_reset_and_hazards.md R300). -/
theorem register_resetBlock (s : State) (o : Nat) :
    (resetBlock s).register o =
      if o = 0x00 then 0x4D534331#32 else if o = 0x3C then 0x000002D0#32 else 0 := by
  unfold State.register
  rw [statusWord_resetBlock, geometryWord_resetBlock, linePeriodWord_resetBlock]
  by_cases hid : o = 0x00
  · simp [hid]
  by_cases hgeometry : o = 0x3C
  · simp [hgeometry]
  · simp [hid, hgeometry, fixedView_zero]

/-- Settles O22: the state by unfolding, the register window by `register_resetBlock`. -/
theorem resetCommandGivesThePowerOnState : Obligations.ResetCommandGivesThePowerOnState :=
  fun s => ⟨resetBlock s, exec_reset s, rfl, rfl, rfl, rfl, rfl, rfl, register_resetBlock s⟩

end Sys2Proof.Machine
end

section
/-! PROOFS. The invariant of the machine (10_state.md R27, R29, R35; 41_filter_edge.md R142; 44_hsync.md R181;
45_pll.md R199; 46_line_decoder.md R211): every step keeps a sound state sound. Each unit keeps `State.UnitsSound`; the
range of the phase and the pairing of the pulse hold between samples, and each has an argument of its own. -/

namespace Sys2Proof.Machine

variable {s t : State}

/-! ## Geometry -/

theorem frameHeight_eq (s : State) : s.geom.frameHeight = 2 * s.geom.fieldHeight := by
  unfold State.geom; cases s.format <;> rfl

theorem fieldHeight_le (s : State) : s.geom.fieldHeight ≤ 288 := by
  unfold State.geom; cases s.format <;> decide

theorem firstActive_le (s : State) : s.geom.firstActive ≤ 17 := by
  unfold State.geom; cases s.format <;> decide

theorem period9_mem (hf : s.format ≠ .unknown) :
    22880 * 65536 ≤ s.geom.period9 ∧ s.geom.period9 ≤ 23040 * 65536 := by
  unfold State.geom
  cases e : s.format with
  | unknown => exact absurd e hf
  | pal => decide
  | ntsc => decide
  | secam => decide

/-! ## Buffers -/

/-- A fill inside a range keeps the canonical form and lists nothing outside the range. -/
theorem Memory.fill_canonical {m : Memory} {lo hi base len : Nat} (h : m.wf ∧ m.within lo hi) (hlo : lo ≤ base)
    (hhi : base + len ≤ hi) (f : Nat → Byte) : (m.fill base len f).wf ∧ (m.fill base len f).within lo hi :=
  ⟨Memory.fill_wf h.1 base len f, Memory.fill_within h.2 hlo hhi⟩

theorem fieldMem_canonical (h : s.BuffersCanonical) (b : FieldId) :
    (s.fieldMem b).wf ∧ (s.fieldMem b).within (fieldBase b) (fieldBase b + fieldBytes) := by
  obtain ⟨-, hfield0, hfield1, -⟩ := h
  cases b with
  | zero => exact hfield0
  | one => exact hfield1

theorem withFieldMem_buffersCanonical (h : s.BuffersCanonical) {b : FieldId} {m : Memory}
    (hm : m.wf ∧ m.within (fieldBase b) (fieldBase b + fieldBytes)) : (s.withFieldMem b m).BuffersCanonical := by
  obtain ⟨hchunk, hfield0, hfield1, hout⟩ := h
  cases b with
  | zero => exact ⟨hchunk, hm, hfield1, hout⟩
  | one => exact ⟨hchunk, hfield0, hm, hout⟩

/-- The row of an active line lies inside its field buffer (46_line_decoder.md R211). -/
theorem writeLineRow_buffersCanonical (h : s.BuffersCanonical)
    (hl : s.geom.isActiveLine s.lines.currentLine.toNat = true) : (writeLineRow s).BuffersCanonical := by
  have hrow : s.lines.currentLine.toNat - s.geom.firstActive < 288 := by
    have hh := fieldHeight_le s
    simp only [Geometry.isActiveLine, decide_eq_true_eq] at hl
    omega
  refine withFieldMem_buffersCanonical h (Memory.fill_canonical (fieldMem_canonical h _) (by omega) ?_ _)
  simp only [fieldBytes, Config.fieldRowsCap, Config.frameWidth]
  omega

/-! ## What every unit keeps -/

/-- The part of `State.Sound` that every unit of SAMPLE_STEP keeps by itself. The rest, `PhaseInRange` and
`PulsePaired`, holds between samples only. -/
structure State.UnitsSound (s : State) : Prop where
  buffers : s.BuffersCanonical
  rows : s.OutputRowsOnly
  lineBuffer : s.LineBufferBounded
  filter : s.FilterInRange
  integral : s.IntegralClamped
  lines : s.LinesCounted
  lock : s.LockCountsConsecutive
  levels : s.LevelsHeldZero
  callPort : s.CallPortEmpty

theorem sound_iff : s.Sound ↔ s.UnitsSound ∧ s.PhaseInRange ∧ s.PulsePaired := by
  constructor
  · rintro ⟨hbuffers, hrows, hlineBuffer, hfilter, hintegral, hphase, hpulse, hlines, hlock, hlevels, hcall⟩
    exact ⟨⟨hbuffers, hrows, hlineBuffer, hfilter, hintegral, hlines, hlock, hlevels, hcall⟩, hphase, hpulse⟩
  · rintro ⟨h, hphase, hpulse⟩
    exact ⟨h.buffers, h.rows, h.lineBuffer, h.filter, h.integral, hphase, hpulse, h.lines, h.lock, h.levels,
      h.callPort⟩

/-! ### Filter and levels -/

/-- The filter moves towards a sample and does not leave the samples' range (41_filter_edge.md R142). -/
theorem lpFilter_unitsSound (h : s.UnitsSound) (x : Sample) : (lpFilter x s).UnitsSound := by
  have hin : (lpFilter x s).FilterInRange := by
    obtain ⟨hlo, hhi⟩ := h.filter
    have hx1 := BitVec.le_toInt x
    have hx2 := BitVec.toInt_lt (x := x)
    simp only [State.FilterInRange, lpFilter, lowpassCount, sampleCount, Config.one] at hlo hhi hx1 hx2 ⊢
    omega
  exact { h with filter := hin }

theorem levelAccumulate_unitsSound (h : s.UnitsSound) (y : Int) : (levelAccumulate y s).UnitsSound := { h with }

theorem filterAndAccumulate_unitsSound (h : s.UnitsSound) (x : Sample) : (filterAndAccumulate x s).UnitsSound := by
  have hf := lpFilter_unitsSound h x
  simp only [filterAndAccumulate]
  split
  · exact levelAccumulate_unitsSound hf _
  · exact hf

/-- Levels that a bootstrap gives are valid. -/
theorem levelBootstrap_unitsSound (h : s.UnitsSound) (mn mx : Int) : (levelBootstrap mn mx s).UnitsSound :=
  { h with levels := fun hvalid => by cases hvalid }

theorem blendLevels_valid (a : Accumulators) (l : Levels) : (blendLevels a l).valid = true := by
  unfold blendLevels; split
  · assumption
  · rfl

/-- A commit either changes no level or leaves valid ones (42_levels.md R151). -/
theorem levelCommit_unitsSound (h : s.UnitsSound) : (levelCommit s).UnitsSound := by
  have hlevels : (levelCommit s).LevelsHeldZero := by
    intro hvalid
    simp only [levelCommit] at hvalid ⊢
    split at hvalid
    · rw [deriveLevels_valid, blendLevels_valid] at hvalid; cases hvalid
    · rw [if_neg ‹_›]; exact h.levels hvalid
  exact { h with levels := hlevels }

/-! ### Sync detectors -/

theorem vsyncEdge_unitsSound (h : s.UnitsSound) (fall : Bool) (p : Position) : (vsyncEdge fall p s).2.UnitsSound := by
  cases fall with
  | true => exact { h with }
  | false => exact h

theorem hsyncEdge_unitsSound (h : s.UnitsSound) (fall rise : Bool) (p : Position) :
    (hsyncEdge fall rise p s).2.UnitsSound := by
  simp only [hsyncEdge]
  split
  · exact { h with }
  · split
    · exact { h with }
    · exact h

/-! ### The PLL -/

theorem phaseError_unitsSound (h : s.UnitsSound) : (phaseError s).UnitsSound := { h with }

/-- Each event clears one of the two counts (45_pll.md R194). -/
theorem lockUpdate_unitsSound (h : s.UnitsSound) : (lockUpdate s).UnitsSound := by
  have hlock : (lockUpdate s).LockCountsConsecutive := by
    simp only [State.LockCountsConsecutive, lockUpdate]
    split
    · exact .inr rfl
    · exact .inl rfl
  exact { h with lock := hlock }

theorem integralCount_mem (integral error : Int) :
    -Config.integralLimit ≤ integralCount integral error ∧ integralCount integral error ≤ Config.integralLimit :=
  clamp_mem (by decide)

theorem pllCorrect_unitsSound (h : s.UnitsSound) : (pllCorrect s).UnitsSound := by
  obtain ⟨hlo, hhi⟩ := integralCount_mem s.pll.integral s.pll.error
  exact { h with integral := ⟨hlo, hhi, rfl⟩ }

theorem pllEvent_unitsSound (h : s.UnitsSound) : (pllEvent s).UnitsSound := by
  have ht := lockUpdate_unitsSound (phaseError_unitsSound h)
  simp only [pllEvent]
  split
  · exact ht
  · exact pllCorrect_unitsSound ht

theorem correctOnEvent_unitsSound (h : s.UnitsSound) (valid : Bool) : (correctOnEvent valid s).UnitsSound := by
  cases valid with
  | true => exact pllEvent_unitsSound h
  | false => exact h

/-! ### Lines -/

theorem lineAppend_unitsSound (h : s.UnitsSound) (x : Sample) : (lineAppend x s).UnitsSound := by
  unfold lineAppend
  split
  · rename_i hroom
    exact { h with lineBuffer := by simpa [State.LineBufferBounded] using hroom }
  · exact h

theorem lineDecode_buffersCanonical (h : s.BuffersCanonical) : (lineDecode s).BuffersCanonical := by
  unfold lineDecode
  split
  · exact writeLineRow_buffersCanonical h ‹_›
  · exact h

theorem lineDecode_linesDecoded (s : State) :
    (lineDecode s).lines.linesDecoded =
      if s.geom.isActiveLine s.lines.currentLine.toNat then satSucc s.lines.linesDecoded else s.lines.linesDecoded := by
  unfold lineDecode
  split <;> rfl

/-- A boundary counts the line it leaves among the decoded ones exactly when it is active (46_line_decoder.md R211). -/
theorem lineBoundary_linesCounted (h : s.LinesCounted) : (lineBoundary s).LinesCounted := by
  have hcount : (lineBoundary s).lines.linesDecoded = (lineDecode s).lines.linesDecoded := rfl
  have hline : (lineBoundary s).lines.currentLine = satSucc s.lines.currentLine := by simp [lineBoundary]
  have hh := fieldHeight_le s
  have ha := firstActive_le s
  have hcur := s.lines.currentLine.isLt
  simp only [State.LinesCounted, hcount, hline, lineDecode_linesDecoded, lineBoundary_frame, Geometry.isActiveLine,
    decide_eq_true_eq, satSucc_toNat, sat32] at h ⊢
  split
  · rw [satSucc_toNat, sat32]; omega
  · omega

theorem lineBoundary_pll (s : State) :
    (lineBoundary s).pll = { s.pll with phase := (9 * s.pll.phase - s.effectivePeriod9) / 9 } := by
  simp [lineBoundary, State.effectivePeriod9]

theorem lineBoundary_unitsSound (h : s.UnitsSound) : (lineBoundary s).UnitsSound where
  buffers := lineDecode_buffersCanonical h.buffers
  rows := by simpa only [State.OutputRowsOnly, lineBoundary_frame] using h.rows
  lineBuffer := by simp [State.LineBufferBounded, lineBoundary]
  filter := by simpa only [State.FilterInRange, lineBoundary_frame] using h.filter
  integral := by simpa only [State.IntegralClamped, lineBoundary_pll] using h.integral
  lines := lineBoundary_linesCounted h.lines
  lock := by simpa only [State.LockCountsConsecutive, lineBoundary_frame] using h.lock
  levels := by simpa only [State.LevelsHeldZero, lineBoundary_frame] using h.levels
  callPort := by simpa only [State.CallPortEmpty, lineBoundary_frame] using h.callPort

theorem pllAdvance_unitsSound (h : s.UnitsSound) : (pllAdvance s).UnitsSound := by
  have ht : State.UnitsSound { s with pll := { s.pll with phase := s.pll.phase + Config.one } } := { h with }
  simp only [pllAdvance]
  split
  · exact lineBoundary_unitsSound ht
  · exact ht

/-! ### The assembler -/

theorem withFrameRows_unitsSound (h : s.UnitsSound) (f : Nat → Nat → Byte) : (s.withFrameRows f).UnitsSound := by
  obtain ⟨hchunk, hfield0, hfield1, hframe, hdisplay⟩ := h.buffers
  obtain ⟨hframeRows, hdisplayRows⟩ := h.rows
  have hh := fieldHeight_le s
  have he := frameHeight_eq s
  have hfill : 2 * s.geom.fieldHeight * Config.frameWidth ≤ frameBytes := by
    simp only [frameBytes, Config.frameRowsCap, Config.frameWidth]; omega
  have hframe' := Memory.fill_canonical hframe le_rfl (Nat.add_le_add_left hfill frameBase)
  have hrows' := Memory.fill_within (f := fun k => f (k / Config.frameWidth) (k % Config.frameWidth)) hframeRows le_rfl
    (show frameBase + 2 * s.geom.fieldHeight * Config.frameWidth ≤ _ by rw [he])
  exact { h with buffers := ⟨hchunk, hfield0, hfield1, hframe' _, hdisplay⟩, rows := ⟨hrows', hdisplayRows⟩ }

theorem deinterlaceCore_unitsSound (h : s.UnitsSound) : (deinterlaceCore s).UnitsSound := by
  unfold deinterlaceCore
  split
  · exact withFrameRows_unitsSound h _
  · split
    · exact withFrameRows_unitsSound h _
    · split
      · exact withFrameRows_unitsSound h _
      · exact h

theorem displayCopy_unitsSound (h : s.UnitsSound) : (displayCopy s).UnitsSound := by
  obtain ⟨hchunk, hfield0, hfield1, hframe, hdisplay⟩ := h.buffers
  obtain ⟨hframeRows, hdisplayRows⟩ := h.rows
  have hcopy : s.geom.frameHeight * Config.frameWidth ≤ frameBytes := by
    have hh := fieldHeight_le s
    have he := frameHeight_eq s
    simp only [frameBytes, Config.frameRowsCap, Config.frameWidth]; omega
  have hdisplay' := Memory.fill_canonical hdisplay le_rfl (Nat.add_le_add_left hcopy displayBase)
  exact { h with
    buffers := ⟨hchunk, hfield0, hfield1, hframe, hdisplay' _⟩
    rows := ⟨hframeRows, Memory.fill_within hdisplayRows le_rfl le_rfl⟩ }

theorem markReady_unitsSound (h : s.UnitsSound) (b : FieldId) : (markReady b s).UnitsSound := by
  cases b <;> exact { h with }

theorem countFrame_unitsSound (h : s.UnitsSound) : (countFrame s).UnitsSound := by
  unfold countFrame
  split
  · exact { h with }
  · exact h

theorem assembleField_unitsSound (h : s.UnitsSound) : (assembleField s).UnitsSound :=
  countFrame_unitsSound (displayCopy_unitsSound (deinterlaceCore_unitsSound (markReady_unitsSound h _)))

/-- A new field starts with no line before it and none decoded. -/
theorem startNewField_unitsSound (h : s.UnitsSound) : (startNewField s).UnitsSound := by
  have ht : (levelCommit (if s.fieldAccepted then assembleField s else s)).UnitsSound := by
    refine levelCommit_unitsSound ?_
    split
    · exact assembleField_unitsSound h
    · exact h
  exact { ht with lines := by simp [State.LinesCounted, startNewField] }

theorem finishSample_unitsSound (h : s.UnitsSound) (done above : Bool) (p : Position) :
    (finishSample done above p s).UnitsSound := by
  cases done with
  | true => exact { startNewField_unitsSound h with }
  | false => exact { h with }

theorem sampleStep_unitsSound (h : s.UnitsSound) (x : Sample) : (sampleStep x s).UnitsSound :=
  finishSample_unitsSound (pllAdvance_unitsSound (lineAppend_unitsSound (correctOnEvent_unitsSound
    (hsyncEdge_unitsSound (vsyncEdge_unitsSound (filterAndAccumulate_unitsSound h x) _ _) _ _ _) _) x)) _ _ _

/-! ## The phase (45_pll.md R199) -/

/-- The phase before PLL_ADVANCE: one boundary is enough to bring it back into its range. -/
def State.PhaseBeforeAdvance (s : State) : Prop :=
  s.format ≠ .unknown → 0 ≤ s.pll.phase ∧ 9 * (s.pll.phase + Config.one) < 2 * s.effectivePeriod9

/-- The range of the phase is a statement about the format and the PLL alone. -/
theorem phaseInRange_congr (hf : t.format = s.format) (hp : t.pll = s.pll) (h : s.PhaseInRange) : t.PhaseInRange := by
  simpa only [State.PhaseInRange, State.effectivePeriod9, State.geom, hf, hp] using h

/-- The adjusted period is near the nominal one, far above one sample (10_state.md R29). -/
theorem effectivePeriod9_mem (hi : s.IntegralClamped) :
    s.geom.period9 - 9 * 3276800 ≤ s.effectivePeriod9 ∧ s.effectivePeriod9 ≤ s.geom.period9 + 9 * 3276800 := by
  obtain ⟨hlo, hhi, hfreq⟩ := hi
  simp only [State.effectivePeriod9, hfreq, Config.integralLimit] at hlo hhi ⊢
  omega

theorem phaseBeforeAdvance_of_inRange (hi : s.IntegralClamped) (h : s.PhaseInRange) : s.PhaseBeforeAdvance := by
  intro hf
  obtain ⟨h0, h1⟩ := h hf
  have hp := period9_mem hf
  have he := effectivePeriod9_mem hi
  simp only [Config.one]
  omega

/-- A corrected phase stays at or above 0 and well below two periods: the error is the whole phase up to half a period,
and above that at most half a period either way. -/
theorem correctedPhase_mem {phase p : Int} (hp : 22880 * 65536 ≤ p) (h0 : 0 ≤ phase)
    (h1 : 9 * phase < p + 9 * 3276800) :
    0 ≤ (20 * phase - 3 * (wrapPhase (9 * phase) p / 9)) / 20
    ∧ 9 * ((20 * phase - 3 * (wrapPhase (9 * phase) p / 9)) / 20 + 65536) < 2 * (p - 9 * 3276800) := by
  obtain ⟨k, hk, hlo, hhi, hzero, -, -⟩ := wrapPhase_spec (9 * phase) p (by omega)
  rw [hk]
  by_cases hhalf : 2 * (9 * phase) ≤ p
  · rw [hzero (by omega) hhalf]
    omega
  · generalize 9 * phase - k * p = w at hlo hhi
    omega

theorem pllCorrect_phaseBeforeAdvance (hi : s.IntegralClamped) (h : s.PhaseInRange) :
    (pllCorrect (lockUpdate (phaseError s))).PhaseBeforeAdvance := by
  intro hf
  obtain ⟨h0, h1⟩ := h hf
  have hp := (period9_mem (s := s) hf).1
  have he := effectivePeriod9_mem hi
  obtain ⟨hlo, -⟩ := integralCount_mem s.pll.integral (phaseError s).pll.error
  have hperiod : (pllCorrect (lockUpdate (phaseError s))).effectivePeriod9
      = s.geom.period9 + 9 * integralCount s.pll.integral (phaseError s).pll.error := rfl
  have hphase : (pllCorrect (lockUpdate (phaseError s))).pll.phase
      = (20 * s.pll.phase - 3 * (wrapPhase (9 * s.pll.phase) s.geom.period9 / 9)) / 20 := rfl
  obtain ⟨hphase0, hphase1⟩ := correctedPhase_mem hp h0 (by omega)
  simp only [Config.integralLimit, Config.one, hperiod, hphase] at hlo ⊢
  omega

/-- A spurious event leaves the phase as it was, another one corrects it (45_pll.md R192, R193). -/
theorem pllEvent_phaseBeforeAdvance (hi : s.IntegralClamped) (h : s.PhaseInRange) :
    (pllEvent s).PhaseBeforeAdvance := by
  simp only [pllEvent]
  split
  · exact phaseBeforeAdvance_of_inRange (s := lockUpdate (phaseError s)) hi h
  · exact pllCorrect_phaseBeforeAdvance hi h

theorem correctOnEvent_phaseBeforeAdvance (hi : s.IntegralClamped) (h : s.PhaseInRange) (valid : Bool) :
    (correctOnEvent valid s).PhaseBeforeAdvance := by
  cases valid with
  | true => exact pllEvent_phaseBeforeAdvance hi h
  | false => exact phaseBeforeAdvance_of_inRange hi h

/-- One boundary at most takes the phase back into its range (45_pll.md R195, R199). -/
theorem pllAdvance_phaseInRange (h : s.PhaseBeforeAdvance) : (pllAdvance s).PhaseInRange := by
  intro hf
  rw [(pllAdvance_frame s).1] at hf
  obtain ⟨h0, h1⟩ := h hf
  simp only [pllAdvance, Config.one] at h1 ⊢
  split
  · rename_i hboundary
    simp only [lineBoundary_pll, State.effectivePeriod9, lineBoundary_frame, State.geom] at hboundary h1 ⊢
    omega
  · rename_i hboundary
    simp only [State.effectivePeriod9, State.geom] at hboundary ⊢
    omega

theorem finishSample_phaseInRange (h : s.PhaseInRange) (done above : Bool) (p : Position) :
    (finishSample done above p s).PhaseInRange := by
  refine phaseInRange_congr ?_ ?_ h <;> cases done <;> simp [finishSample]

theorem lineAppend_phaseBeforeAdvance (h : s.PhaseBeforeAdvance) (x : Sample) :
    (lineAppend x s).PhaseBeforeAdvance := by
  simpa only [State.PhaseBeforeAdvance, State.effectivePeriod9, lineAppend_frame] using h

theorem sampleStep_phaseInRange (hi : s.IntegralClamped) (h : s.PhaseInRange) (x : Sample) :
    (sampleStep x s).PhaseInRange := by
  rw [sampleStep_eq]
  refine finishSample_phaseInRange (pllAdvance_phaseInRange (lineAppend_phaseBeforeAdvance
    (correctOnEvent_phaseBeforeAdvance ?_ (phaseInRange_congr ?_ ?_ h) _) x)) _ _ _
  · simpa [State.IntegralClamped] using hi
  · simp
  · simp

/-! ## The pulse (44_hsync.md R181) -/

theorem filterAndAccumulate_prevAbove (x : Sample) (s : State) :
    (filterAndAccumulate x s).filter.prevAbove = s.filter.prevAbove := by
  simp only [filterAndAccumulate]
  split <;> rfl

theorem vsyncEdge_lastEdgeValid (fall : Bool) (p : Position) (s : State) :
    (vsyncEdge fall p s).2.vsync.lastEdgeValid = (fall || s.vsync.lastEdgeValid) := by
  cases fall <;> rfl

@[simp] theorem vsyncEdge_hsync (fall : Bool) (p : Position) (s : State) :
    (vsyncEdge fall p s).2.hsync = s.hsync := by
  cases fall <;> rfl

theorem hsyncEdge_inPulse (fall rise : Bool) (p : Position) (s : State) :
    (hsyncEdge fall rise p s).2.hsync.inPulse = (fall || (s.hsync.inPulse && !rise)) := by
  cases fall with
  | true => rfl
  | false => cases rise <;> cases hp : s.hsync.inPulse <;> simp [hsyncEdge, hp]

theorem correctOnEvent_frame (valid : Bool) (s : State) :
    (correctOnEvent valid s).hsync = s.hsync ∧ (correctOnEvent valid s).vsync = s.vsync := by
  cases valid <;> simp [correctOnEvent]

theorem finishSample_pulse (done above : Bool) (p : Position) (s : State) :
    (finishSample done above p s).hsync = s.hsync ∧ (finishSample done above p s).vsync = s.vsync
    ∧ (finishSample done above p s).filter.prevAbove = above := by
  cases done <;> simp [finishSample]

/-- The pairing over one sample, on the four bits it speaks of: a falling edge opens a pulse and is remembered, a
rising edge closes it (44_hsync.md R180, R181). -/
theorem pulsePaired_of_edges (seen was above : Bool) :
    ((was && !above) || ((seen && !was) && !(!was && above))) = (((was && !above) || seen) && !above) := by
  revert seen was above; decide

theorem sampleStep_pulsePaired (h : s.PulsePaired) (x : Sample) : (sampleStep x s).PulsePaired := by
  rw [State.PulsePaired, sampleStep_eq]
  simp only [finishSample_pulse, appendAndAdvance_frame, correctOnEvent_frame, hsyncEdge_inPulse, hsyncEdge_frame,
    vsyncEdge_hsync, vsyncEdge_lastEdgeValid, filterAndAccumulate_frame, edgeClassify, filterAndAccumulate_prevAbove]
  rw [h]
  exact pulsePaired_of_edges _ _ _

/-! ## The sample loop and the commands -/

theorem sampleStep_sound (h : s.Sound) (x : Sample) : (sampleStep x s).Sound := by
  obtain ⟨hunits, hphase, hpulse⟩ := sound_iff.1 h
  exact sound_iff.2 ⟨sampleStep_unitsSound hunits x, sampleStep_phaseInRange hunits.integral hphase x,
    sampleStep_pulsePaired hpulse x⟩

theorem sampleSteps_sound (h : s.Sound) (xs : List Sample) : (sampleSteps xs s).Sound := by
  induction xs generalizing s with
  | nil => exact h
  | cons x xs ih => exact ih (sampleStep_sound h x)

theorem setResult_sound (h : s.Sound) (r : Result) : (setResult r s).Sound := h

theorem bootstrapOnce_sound (h : s.Sound) (xs : List Sample) : (bootstrapOnce xs s).Sound := by
  obtain ⟨hunits, hphase, hpulse⟩ := sound_iff.1 h
  unfold bootstrapOnce
  split
  · exact h
  · exact sound_iff.2 ⟨levelBootstrap_unitsSound hunits _ _, hphase, hpulse⟩

theorem processSamples_sound (h : s.Sound) (xs : List Sample) : (processSamples xs s).Sound := by
  unfold processSamples
  split
  · exact h
  · exact setResult_sound (sampleSteps_sound (bootstrapOnce_sound h xs) xs) .ok

theorem processBuffer_sound (h : s.Sound) (count : Nat) : (processBuffer count s).Sound := by
  unfold processBuffer
  split
  · exact setResult_sound h .badOperand
  · split
    · exact setResult_sound h .noFormat
    · split
      · exact setResult_sound h .short
      · exact processSamples_sound h _

/-- FORMAT_RESET gives a sound state from any state whose chunk RAM is in canonical form, in any format. -/
theorem formatReset_sound (hchunk : s.chunk.wf ∧ s.chunk.within chunkBase (chunkBase + chunkBytes))
    (hcall : s.CallPortEmpty) : (formatReset s).Sound := by
  have hempty (lo hi : Nat) : Memory.wf [] ∧ Memory.within [] lo hi := ⟨by decide, by simp⟩
  have hphase : (formatReset s).PhaseInRange := by
    intro hf
    have hp := period9_mem hf
    simp only [State.effectivePeriod9, formatReset, Pll.powerOn] at hp ⊢
    omega
  refine ⟨⟨hchunk, hempty _ _, hempty _ _, hempty _ _, hempty _ _⟩, ⟨(hempty _ _).2, (hempty _ _).2⟩, ?_⟩
  have hlines : (formatReset s).LinesCounted := by simp [State.LinesCounted, formatReset, Lines.powerOn]
  exact ⟨Nat.zero_le _, by simp [State.FilterInRange, formatReset, Filter.powerOn],
    by simp [State.IntegralClamped, formatReset, Pll.powerOn], hphase, rfl, hlines, .inl rfl, fun _ => rfl, hcall⟩

theorem setFormat_sound (h : s.Sound) (fmt : BitVec 2) : (setFormat fmt s).Sound := by
  obtain ⟨hunits, -, -⟩ := sound_iff.1 h
  unfold setFormat
  split
  · exact setResult_sound h .badOperand
  · exact setResult_sound (formatReset_sound (s := selectFormat _ s) hunits.buffers.1 hunits.callPort) .ok

/-- RESET leaves, in the fields that soundness speaks of, what FORMAT_RESET leaves in UNKNOWN. -/
theorem resetBlock_sound (h : s.Sound) : (resetBlock s).Sound := by
  obtain ⟨hunits, -, -⟩ := sound_iff.1 h
  exact formatReset_sound (s := { s with format := .unknown }) hunits.buffers.1 hunits.callPort

theorem deinterlace_sound (h : s.Sound) : (deinterlace s).Sound := by
  obtain ⟨hunits, hphase, hpulse⟩ := sound_iff.1 h
  have hcopy := displayCopy_unitsSound (deinterlaceCore_unitsSound hunits)
  unfold deinterlace
  split
  · exact setResult_sound h .noFormat
  · split
    · exact setResult_sound h .noField
    · refine setResult_sound (sound_iff.2 ⟨hcopy, phaseInRange_congr (by simp) (by simp) hphase, ?_⟩) .ok
      simpa only [State.PulsePaired, displayCopy_frame, deinterlaceCore_frame] using hpulse

/-- Every host command keeps a sound state sound. -/
theorem exec_sound {i : Instr} (hi : i.isCommand = true) (h : s.Sound) (ht : exec i s = .next t) : t.Sound := by
  cases i with
  | nop => cases ht; exact h
  | processBuffer count => cases ht; exact processBuffer_sound h _
  | setFormat fmt => cases ht; exact setFormat_sound h fmt
  | reset => cases ht; exact resetBlock_sound h
  | ack d e => cases ht; exact h
  | deinterlace => cases ht; exact deinterlace_sound h
  | setFieldReady r0 r1 => cases ht; exact h
  | _ => cases hi

/-! ## The bus -/

/-- A written chunk word lies inside the chunk RAM (20_memory.md R64). -/
theorem chunkWrite_canonical (h : s.BuffersCanonical) {a : Nat} (ha : a % 4 = 0) (hw : windowOf a = .chunk) (v : Word) :
    (s.chunk.writeLanes a v fun _ => true).wf
    ∧ (s.chunk.writeLanes a v fun _ => true).within chunkBase (chunkBase + chunkBytes) := by
  obtain ⟨⟨hwf, hwithin⟩, -⟩ := h
  obtain ⟨hlo, hhi⟩ := windowOf_eq_chunk hw
  refine ⟨Memory.writeLanes_wf hwf _ _ _, Memory.writeLanes_within hwithin _ _ _ fun k hk hk4 _ => ?_⟩
  simp only [chunkBase, chunkBytes, Config.chunkCap] at hlo hhi ⊢
  omega

/-- The lanes stored in a field buffer lie inside it: the others are slack (20_memory.md R65). -/
theorem writeField_buffersCanonical (h : s.BuffersCanonical) {b : FieldId} {a : Nat} (hw : windowOf a = .field b)
    (v : Word) : (writeField b a v s).BuffersCanonical := by
  obtain ⟨hwf, hwithin⟩ := fieldMem_canonical h b
  obtain ⟨hlo, -⟩ := windowOf_eq_field hw
  refine withFieldMem_buffersCanonical h
    ⟨Memory.writeLanes_wf hwf _ _ _, Memory.writeLanes_within hwithin _ _ _ fun k hk _ hstored => ?_⟩
  exact ⟨hlo.trans hk, of_decide_eq_true hstored⟩

/-- Of the conditions of a sound state a write to a field window can touch only the form of the buffers. -/
theorem writeField_sound (h : s.Sound) {b : FieldId} {a : Nat} (hw : windowOf a = .field b) (v : Word) :
    (writeField b a v s).Sound := by
  obtain ⟨hbuffers, hrest⟩ := h
  have hwritten := writeField_buffersCanonical hbuffers hw v
  cases b <;> exact ⟨hwritten, hrest⟩

theorem writeRegister_sound (h : s.Sound) (o : Nat) (v : Word) : (writeRegister o v s).Sound := by
  unfold writeRegister
  split <;> exact h

theorem served_sound {a : BusAccess} (h : s.Sound) (hserved : Served a s t) : t.Sound := by
  cases hserved with
  | answered v ht => subst ht; exact h
  | unanswered v ht => subst ht; exact h
  | discarded ht => subst ht; exact h
  | register o v ho ht => subst ht; exact writeRegister_sound h o v
  | chunk addr v ha hw ht =>
    obtain ⟨hbuffers, hrest⟩ := h
    have hchunk := chunkWrite_canonical hbuffers ha hw v
    obtain ⟨-, hfields⟩ := hbuffers
    subst ht
    exact ⟨⟨hchunk, hfields⟩, hrest⟩
  | field b addr v ha hw ht => subst ht; exact writeField_sound h hw v
  | rejected w r hc hr ht => subst ht; exact setResult_sound h r
  | command w i hc hd ht => exact exec_sound (decodeCommand_isCommand hd) h ht

/-- Settles O53, by the cases of a step: the call port of a sound state is empty, so a step is idle or serves one
access, and each access and each host command keeps a sound state sound. -/
theorem everyStepKeepsTheStateSound : Obligations.EveryStepKeepsTheStateSound := by
  intro s t h hstep
  cases step_cases hstep with
  | idle hc hp ht => subst ht; exact h
  | called w ops i hc hd ht =>
    obtain ⟨hunits, -, -⟩ := sound_iff.1 h
    cases hunits.callPort.symm.trans hc
  | served a rest hc hp hserved => exact served_sound (s := { s with pending := rest }) h hserved

end Sys2Proof.Machine
end

section
/-! PROOFS. What the host reads of the state and what its other writes do (10_state.md R40 to R46; 20_memory.md R68,
R71, R75; 60_exceptions.md R280). -/

namespace Sys2Proof.Machine

variable (s : State)

/-! ## The other writes of the bus (20_memory.md R68, R71, R75) -/

/-- An aligned 32-bit write is performed (20_memory.md R72). -/
theorem serve_write_aligned {addr : BitVec 21} (h : addr.toNat % 4 = 0) (v : Word) :
    serve (.write addr .word v) s = memWrite addr.toNat v s := by
  simp [serve, isAligned, h]

theorem memWrite_unmapped {a : Nat} (hw : windowOf a = .unmapped) (v : Word) :
    memWrite a v s = .next (raiseBusErr s) := by
  simp [memWrite, hw]

theorem memWrite_frame {a : Nat} (hw : windowOf a = .frame) (v : Word) : memWrite a v s = .next (raiseBusErr s) := by
  simp [memWrite, hw]

theorem memWrite_display {a : Nat} (hw : windowOf a = .display) (v : Word) :
    memWrite a v s = .next (raiseBusErr s) := by
  simp [memWrite, hw]

/-- A write to the register window, CMD apart, is a write to that register. -/
theorem memWrite_regs {a : Nat} (ha : a < 0x100) (hcmd : a ≠ 0x04) (v : Word) :
    memWrite a v s = .next (writeRegister a v s) := by
  simp [memWrite, windowOf_regs ha, hcmd]

/-- Settles O12, by the window the address lies in. -/
theorem otherWritesStoreNothingButCtrl : Obligations.OtherWritesStoreNothingButCtrl := by
  intro s addr v haligned
  rw [serve_write_aligned s haligned]
  have hbus := addr.isLt
  refine ⟨fun hrange => ?_, fun ha hcmd => memWrite_regs s ha hcmd v⟩
  by_cases hdisplay : 0x180000 ≤ addr.toNat
  · exact memWrite_display s (windowOf_display hdisplay hbus) v
  · by_cases hframe : 0x100000 ≤ addr.toNat
    · exact memWrite_frame s (windowOf_frame hframe (by omega)) v
    · exact memWrite_unmapped s (windowOf_unmapped (by omega)) v

/-! ## STATUS (10_state.md R42) -/

/-- The single bits of STATUS. -/
theorem statusWord_bits :
    s.statusWord.getLsbD 0 = s.asm.displayReady ∧ s.statusWord.getLsbD 1 = s.lock.locked
    ∧ s.statusWord.getLsbD 2 = s.vsync.inVsync ∧ s.statusWord.getLsbD 3 = s.levels.valid
    ∧ s.statusWord.getLsbD 4 = s.lines.currentField.bit ∧ s.statusWord.getLsbD 5 = s.asm.ready0
    ∧ s.statusWord.getLsbD 6 = s.asm.ready1 ∧ s.statusWord.getLsbD 7 = s.hsync.inPulse
    ∧ s.statusWord.getLsbD 10 = s.host.busErr ∧ s.statusWord.getLsbD 11 = s.irq := by
  unfold State.statusWord
  simp only [BitVec.getLsbD_append]
  simp

theorem statusWord_format : s.statusWord.extractLsb' 8 2 = formatCode s.format := by
  unfold State.statusWord
  simp (disch := omega) only [extract_append_of_high]
  exact extract_append_low _ _

theorem statusWord_result : s.statusWord.extractLsb' 12 4 = resultCode s.host.result := by
  unfold State.statusWord
  simp (disch := omega) only [extract_append_of_high]
  exact extract_append_low _ _

theorem statusWord_high : s.statusWord.extractLsb' 16 16 = 0 := by
  unfold State.statusWord
  simp (disch := omega) only [extract_append_of_high]
  exact extract_self _

theorem register_status : s.register 0x08 = s.statusWord := rfl

theorem bit_eq_decide (b : FieldId) : b.bit = decide (b = .one) := by cases b <;> rfl

theorem formatCode_mem (f : Format) :
    (f, (formatCode f).toNat) ∈ [(Format.unknown, 0), (.pal, 1), (.ntsc, 2), (.secam, 3)] := by
  cases f <;> decide

theorem resultCode_mem (r : Result) :
    (r, (resultCode r).toNat) ∈ [(Result.ok, 0), (.short, 1), (.weak, 2), (.noFormat, 3), (.badOpcode, 4),
      (.badOperand, 5), (.noField, 6)] := by
  cases r <;> decide

/-- Settles O13, field by field of the word. -/
theorem statusWordShowsEachField : Obligations.StatusWordShowsEachField := by
  intro s
  rw [register_status]
  dsimp only
  rw [statusWord_format, statusWord_result]
  obtain ⟨hready, hlocked, hvsync, hlevels, hfield, hready0, hready1, hpulse, hbusErr, hirq⟩ := statusWord_bits s
  exact ⟨hready, hlocked, hvsync, hlevels, hfield.trans (bit_eq_decide _), hready0, hready1, hpulse,
    formatCode_mem s.format, hbusErr, hirq, resultCode_mem s.host.result, statusWord_high s⟩

/-! ## The integer registers (10_state.md R40, R41, R43, R44, R46) -/

theorem register_reserved {o : Nat} (h : 0x80 ≤ o) : s.register o = 0 := by
  unfold State.register
  repeat rw [if_neg (by omega)]

theorem register_ctrl_toNat : (s.register 0x0C).toNat = if s.host.irqEn then 1 else 0 := by
  change ((BitVec.ofBool s.host.irqEn).setWidth 32).toNat = _
  cases s.host.irqEn <;> rfl

/-- The low half of a position, as its register shows it. -/
theorem extract_low_toNat (p : Position) : (p.extractLsb' 0 32).toNat = p.toNat % 2 ^ 32 := by
  rw [BitVec.extractLsb'_toNat, Nat.shiftRight_zero]

/-- The high half of a position, as its register shows it. -/
theorem extract_high_toNat (p : Position) : (p.extractLsb' 32 32).toNat = p.toNat / 2 ^ 32 := by
  have := p.isLt
  rw [BitVec.extractLsb'_toNat, Nat.shiftRight_eq_div_pow, Nat.mod_eq_of_lt (by omega)]

theorem geometryWord_toNat : s.geometryWord.toNat = s.geom.frameHeight * 2 ^ 16 + 720 := by
  have hrows : s.geom.frameHeight ≤ 576 := by
    have := frameHeight_eq s
    have := fieldHeight_le s
    omega
  rw [State.geometryWord, BitVec.toNat_ofNat, Nat.mod_eq_of_lt (by simp only [Config.frameWidth]; omega)]

theorem register_lineLength_toNat (h : s.LineBufferBounded) : (s.register 0x74).toNat = s.lineBuf.length := by
  change (BitVec.ofNat 32 s.lineBuf.length).toNat = _
  simp only [State.LineBufferBounded, Config.lineBufCap] at h
  rw [BitVec.toNat_ofNat, Nat.mod_eq_of_lt (by omega)]

/-- Settles O60, offset by offset: a counter is shown as it is, a position by a half of it. -/
theorem integerRegistersShowTheirState : Obligations.IntegerRegistersShowTheirState := by
  intro s hline
  refine ⟨?_, fun o ho => register_reserved s ho⟩
  simp only [List.forall_mem_cons, List.not_mem_nil, false_imp_iff, implies_true, and_true]
  exact ⟨rfl, rfl, register_ctrl_toNat s, rfl, rfl, rfl, rfl, rfl, rfl, rfl, rfl, rfl, extract_low_toNat _,
    extract_high_toNat _, geometryWord_toNat s, extract_low_toNat _, register_lineLength_toNat s hline,
    extract_low_toNat _⟩

end Sys2Proof.Machine
end

section
/-! PROOFS. The lock state is a status output (10_state.md R30, 46_line_decoder.md R215): no instruction does anything
else differently for it. -/

namespace Sys2Proof.Machine

/-! ## Operations that do not look at the lock state

A record update that takes nothing from the lock state commutes with `State.withLock` by `rfl`; what is built from such
operations by composition and by choices made without the lock state is built up by `LockBlind.comp`, `LockBlind.ite`
and `LockBlind.bind`. -/

/-- The same state with another lock state. -/
def State.withLock (s : State) (l : Lock) : State := { s with lock := l }

/-- Whatever the lock state holds, the operation does the same to all the rest. -/
def LockBlind (f : State → State) : Prop := ∀ s l, ∃ l', f (s.withLock l) = (f s).withLock l'

theorem LockBlind.id : LockBlind fun s => s := fun _ l => ⟨l, rfl⟩

theorem LockBlind.comp {f g : State → State} (hg : LockBlind g) (hf : LockBlind f) : LockBlind fun s => g (f s) := by
  intro s l
  obtain ⟨lf, hlf⟩ := hf s l
  obtain ⟨lg, hlg⟩ := hg (f s) lf
  exact ⟨lg, (congrArg g hlf).trans hlg⟩

/-- A choice made without the lock state. -/
theorem LockBlind.ite {c : State → Prop} [DecidablePred c] {f g : State → State} (hc : ∀ s l, c (s.withLock l) = c s)
    (hf : LockBlind f) (hg : LockBlind g) : LockBlind fun s => if c s then f s else g s := by
  intro s l
  simp only [hc s l]
  split
  · exact hf s l
  · exact hg s l

/-- An operation on an argument that is taken from the state without the lock state. -/
theorem LockBlind.bind {α : Type} {f : α → State → State} {a : State → α} (ha : ∀ s l, a (s.withLock l) = a s)
    (hf : ∀ x, LockBlind (f x)) : LockBlind fun s => f (a s) s := by
  intro s l
  simp only [ha s l]
  exact hf (a s) s l

/-! ## The units -/

theorem setResult_lockBlind (r : Result) : LockBlind (setResult r) := fun _ l => ⟨l, rfl⟩

theorem lpFilter_lockBlind (x : Sample) : LockBlind (lpFilter x) := fun _ l => ⟨l, rfl⟩

theorem levelAccumulate_lockBlind (y : Int) : LockBlind (levelAccumulate y) := fun _ l => ⟨l, rfl⟩

theorem levelBootstrap_lockBlind (mn mx : Int) : LockBlind (levelBootstrap mn mx) := fun _ l => ⟨l, rfl⟩

theorem levelCommit_lockBlind : LockBlind levelCommit := fun _ l => ⟨l, rfl⟩

theorem filterAndAccumulate_lockBlind (x : Sample) : LockBlind (filterAndAccumulate x) :=
  have haccumulate : LockBlind fun t => levelAccumulate t.filter.lpY t :=
    .bind (a := fun t => t.filter.lpY) (fun _ _ => rfl) levelAccumulate_lockBlind
  .ite (c := fun s => s.samplePos.toNat % Config.accStride = 0) (fun _ _ => rfl)
    (haccumulate.comp (lpFilter_lockBlind x)) (lpFilter_lockBlind x)

theorem vsyncEdge_withLock (fall : Bool) (p : Position) (s : State) (l : Lock) :
    vsyncEdge fall p (s.withLock l) = ((vsyncEdge fall p s).1, (vsyncEdge fall p s).2.withLock l) := by
  cases fall <;> rfl

theorem hsyncEdge_withLock (fall rise : Bool) (p : Position) (s : State) (l : Lock) :
    hsyncEdge fall rise p (s.withLock l) = ((hsyncEdge fall rise p s).1, (hsyncEdge fall rise p s).2.withLock l) := by
  have hpulse : (s.withLock l).hsync = s.hsync := rfl
  simp only [hsyncEdge, hpulse]
  split
  · rfl
  · split <;> rfl

theorem phaseError_lockBlind : LockBlind phaseError := fun _ l => ⟨l, rfl⟩

/-- The one unit that computes a lock state from the old one (45_pll.md R194); it writes nothing else. -/
theorem lockUpdate_lockBlind : LockBlind lockUpdate := fun s l => ⟨(lockUpdate (s.withLock l)).lock, rfl⟩

theorem pllCorrect_lockBlind : LockBlind pllCorrect := fun _ l => ⟨l, rfl⟩

/-- Whether an event is spurious is asked of the phase error alone (45_pll.md R192). -/
theorem pllEvent_lockBlind : LockBlind pllEvent :=
  have hcorrect : LockBlind fun t => if t.isSpuriousEvent then t else pllCorrect t :=
    .ite (c := fun t => t.isSpuriousEvent = true) (fun _ _ => rfl) .id pllCorrect_lockBlind
  hcorrect.comp (lockUpdate_lockBlind.comp phaseError_lockBlind)

theorem correctOnEvent_lockBlind (valid : Bool) : LockBlind (correctOnEvent valid) := by
  cases valid with
  | true => exact pllEvent_lockBlind
  | false => exact .id

theorem lineAppend_lockBlind (x : Sample) : LockBlind (lineAppend x) :=
  .ite (c := fun s => s.lineBuf.length < Config.lineBufCap) (fun _ _ => rfl) (fun _ l => ⟨l, rfl⟩) .id

theorem withFieldMem_withLock (s : State) (l : Lock) (b : FieldId) (m : Memory) :
    (s.withLock l).withFieldMem b m = (s.withFieldMem b m).withLock l := by
  cases b <;> rfl

theorem writeLineRow_withLock (s : State) (l : Lock) : writeLineRow (s.withLock l) = (writeLineRow s).withLock l :=
  withFieldMem_withLock s l _ _

theorem lineDecode_lockBlind : LockBlind lineDecode :=
  .ite (c := fun s => s.geom.isActiveLine s.lines.currentLine.toNat = true) (fun _ _ => rfl)
    (fun s l => ⟨l, by rw [writeLineRow_withLock]; rfl⟩) fun _ l => ⟨l, rfl⟩

theorem lineBoundary_lockBlind : LockBlind lineBoundary :=
  have hadvance : LockBlind fun t => { t with
      lines := { t.lines with currentLine := satSucc t.lines.currentLine }
      pll := { t.pll with phase := (9 * t.pll.phase - t.effectivePeriod9) / 9 } } := fun _ l => ⟨l, rfl⟩
  hadvance.comp lineDecode_lockBlind

theorem pllAdvance_lockBlind : LockBlind pllAdvance :=
  have hboundary : LockBlind fun t => if t.effectivePeriod9 ≤ 9 * t.pll.phase then lineBoundary t else t :=
    .ite (c := fun t => t.effectivePeriod9 ≤ 9 * t.pll.phase) (fun _ _ => rfl) lineBoundary_lockBlind .id
  hboundary.comp (f := fun s => { s with pll := { s.pll with phase := s.pll.phase + Config.one } })
    fun _ l => ⟨l, rfl⟩

/-! ## The assembler -/

theorem withFrameRows_lockBlind {f : State → Nat → Nat → Byte} (hf : ∀ s l, f (s.withLock l) = f s) :
    LockBlind fun s => s.withFrameRows (f s) :=
  .bind (f := fun f s => s.withFrameRows f) hf fun _ _ l => ⟨l, rfl⟩

theorem deinterlaceCore_lockBlind : LockBlind deinterlaceCore :=
  have hweave : LockBlind fun s => s.withFrameRows s.weavePixel := withFrameRows_lockBlind fun _ _ => rfl
  have hbobZero : LockBlind fun s => s.withFrameRows (s.bobZeroPixel s.geom.fieldHeight) :=
    withFrameRows_lockBlind fun _ _ => rfl
  have hbobOne : LockBlind fun s => s.withFrameRows s.bobOnePixel := withFrameRows_lockBlind fun _ _ => rfl
  .ite (c := fun s => (s.asm.ready0 && s.asm.ready1) = true) (fun _ _ => rfl) hweave
    (.ite (c := fun s => s.asm.ready0 = true) (fun _ _ => rfl) hbobZero
      (.ite (c := fun s => s.asm.ready1 = true) (fun _ _ => rfl) hbobOne .id))

theorem displayCopy_lockBlind : LockBlind displayCopy := fun _ l => ⟨l, rfl⟩

theorem markReady_lockBlind (b : FieldId) : LockBlind (markReady b) := by
  cases b <;> exact fun _ l => ⟨l, rfl⟩

theorem countFrame_lockBlind : LockBlind countFrame :=
  .ite (c := fun s => (s.asm.ready0 && s.asm.ready1) = true) (fun _ _ => rfl) (fun _ l => ⟨l, rfl⟩) .id

theorem assembleField_lockBlind : LockBlind assembleField :=
  have hmark : LockBlind fun s => markReady s.lines.currentField s :=
    .bind (a := fun s => s.lines.currentField) (fun _ _ => rfl) markReady_lockBlind
  countFrame_lockBlind.comp (displayCopy_lockBlind.comp (deinterlaceCore_lockBlind.comp hmark))

theorem startNewField_lockBlind : LockBlind startNewField :=
  have hassemble : LockBlind fun s => if s.fieldAccepted then assembleField s else s :=
    .ite (c := fun s => s.fieldAccepted = true) (fun _ _ => rfl) assembleField_lockBlind .id
  have hstart : LockBlind fun t => { t with
      lines := { currentLine := 0, linesDecoded := 0, currentField := t.lines.currentField.other } } :=
    fun _ l => ⟨l, rfl⟩
  hstart.comp (levelCommit_lockBlind.comp hassemble)

/-! ## The sample step and the host commands -/

theorem finishSample_lockBlind (done above : Bool) (p : Position) : LockBlind (finishSample done above p) := by
  have hfinish : LockBlind fun t => { t with
      filter := { t.filter with prevAbove := above }, samplePos := p + 1 } := fun _ l => ⟨l, rfl⟩
  cases done with
  | true => exact hfinish.comp startNewField_lockBlind
  | false => exact hfinish

theorem sampleStep_lockBlind (x : Sample) : LockBlind (sampleStep x) := by
  intro s l
  obtain ⟨l₂, h₂⟩ := filterAndAccumulate_lockBlind x s l
  have hpos : (s.withLock l).samplePos = s.samplePos := rfl
  have hy (t : State) : (t.withLock l₂).filter = t.filter := rfl
  have hedges (y : Int) (t : State) : edgeClassify y (t.withLock l₂) = edgeClassify y t := rfl
  simp only [sampleStep_eq, h₂, hpos, hy, hedges, vsyncEdge_withLock, hsyncEdge_withLock]
  exact ((finishSample_lockBlind _ _ _).comp (pllAdvance_lockBlind.comp ((lineAppend_lockBlind x).comp
    (correctOnEvent_lockBlind _)))) _ _

theorem sampleSteps_lockBlind (xs : List Sample) : LockBlind (sampleSteps xs) := by
  induction xs with
  | nil => exact .id
  | cons x xs ih => exact ih.comp (sampleStep_lockBlind x)

theorem bootstrapOnce_lockBlind (xs : List Sample) : LockBlind (bootstrapOnce xs) :=
  .ite (c := fun s => s.levels.valid = true) (fun _ _ => rfl) .id (levelBootstrap_lockBlind _ _)

theorem processSamples_lockBlind (xs : List Sample) : LockBlind (processSamples xs) :=
  .ite (c := fun _ => maxSample xs - minSample xs < Config.minRange) (fun _ _ => rfl) (fun _ l => ⟨l, rfl⟩)
    ((setResult_lockBlind .ok).comp ((sampleSteps_lockBlind xs).comp (bootstrapOnce_lockBlind xs)))

theorem processBuffer_lockBlind (count : Nat) : LockBlind (processBuffer count) :=
  have hsamples : LockBlind fun s => processSamples (s.chunkSamples count) s :=
    .bind (a := fun s => s.chunkSamples count) (fun _ _ => rfl) processSamples_lockBlind
  .ite (c := fun _ => Config.chunkCap < count) (fun _ _ => rfl) (setResult_lockBlind .badOperand)
    (.ite (c := fun s => s.format = .unknown) (fun _ _ => rfl) (setResult_lockBlind .noFormat)
      (.ite (c := fun _ => count < Config.minCount) (fun _ _ => rfl) (setResult_lockBlind .short) hsamples))

/-- FORMAT_RESET gives the lock state its reset value, whatever it was (48_host_commands.md R251). -/
theorem formatReset_lockBlind : LockBlind formatReset := fun _ _ => ⟨Lock.powerOn, rfl⟩

theorem selectFormat_lockBlind (f : Format) : LockBlind (selectFormat f) := fun _ l => ⟨l, rfl⟩

theorem setFormat_lockBlind (fmt : BitVec 2) : LockBlind (setFormat fmt) :=
  .ite (c := fun _ => fmt = 0) (fun _ _ => rfl) (setResult_lockBlind .badOperand)
    ((setResult_lockBlind .ok).comp (formatReset_lockBlind.comp (selectFormat_lockBlind _)))

theorem deinterlace_lockBlind : LockBlind deinterlace :=
  .ite (c := fun s => s.format = .unknown) (fun _ _ => rfl) (setResult_lockBlind .noFormat)
    (.ite (c := fun s => (!s.asm.ready0 && !s.asm.ready1) = true) (fun _ _ => rfl) (setResult_lockBlind .noField)
      ((setResult_lockBlind .ok).comp (displayCopy_lockBlind.comp deinterlaceCore_lockBlind)))

/-! ## Every instruction -/

/-- Every instruction completes, and by an operation that does not look at the lock state. -/
theorem exec_eq_next_lockBlind (i : Instr) : ∃ f, LockBlind f ∧ ∀ s, exec i s = .next (f s) := by
  cases i with
  | nop => exact ⟨_, setResult_lockBlind .ok, fun _ => rfl⟩
  | processBuffer count => exact ⟨_, processBuffer_lockBlind count.toNat, fun _ => rfl⟩
  | setFormat fmt => exact ⟨_, setFormat_lockBlind fmt, fun _ => rfl⟩
  | reset => exact ⟨resetBlock, fun _ _ => ⟨Lock.powerOn, rfl⟩, fun _ => rfl⟩
  | ack d e => exact ⟨fun s => setResult .ok (ackFlags d e s), fun _ l => ⟨l, rfl⟩, fun _ => rfl⟩
  | deinterlace => exact ⟨_, deinterlace_lockBlind, fun _ => rfl⟩
  | setFieldReady r0 r1 => exact ⟨fun s => setResult .ok (setFieldReady r0 r1 s), fun _ l => ⟨l, rfl⟩, fun _ => rfl⟩
  | sampleStep x => exact ⟨_, sampleStep_lockBlind x, fun _ => rfl⟩
  | lpFilter x => exact ⟨_, lpFilter_lockBlind x, fun _ => rfl⟩
  | edgeClassify y =>
    exact ⟨fun s => { s with returned := .edges (edgeClassify y s) }, fun _ l => ⟨l, rfl⟩, fun _ => rfl⟩
  | levelAccumulate y => exact ⟨_, levelAccumulate_lockBlind y, fun _ => rfl⟩
  | levelCommit => exact ⟨_, levelCommit_lockBlind, fun _ => rfl⟩
  | levelBootstrap mn mx => exact ⟨_, levelBootstrap_lockBlind mn.toInt mx.toInt, fun _ => rfl⟩
  | vsyncEdge fall p =>
    exact ⟨fun s => { (vsyncEdge fall p s).2 with returned := .completion (vsyncEdge fall p s).1 },
      fun s l => ⟨l, by simp only [vsyncEdge_withLock]; rfl⟩, fun _ => rfl⟩
  | hsyncEdge fall rise p =>
    exact ⟨fun s => { (hsyncEdge fall rise p s).2 with returned := .event (hsyncEdge fall rise p s).1 },
      fun s l => ⟨l, by simp only [hsyncEdge_withLock]; rfl⟩, fun _ => rfl⟩
  | pllEvent => exact ⟨_, pllEvent_lockBlind, fun _ => rfl⟩
  | phaseError => exact ⟨_, phaseError_lockBlind, fun _ => rfl⟩
  | lockUpdate => exact ⟨_, lockUpdate_lockBlind, fun _ => rfl⟩
  | pllCorrect => exact ⟨_, pllCorrect_lockBlind, fun _ => rfl⟩
  | pllAdvance => exact ⟨_, pllAdvance_lockBlind, fun _ => rfl⟩
  | lineBoundary => exact ⟨_, lineBoundary_lockBlind, fun _ => rfl⟩
  | lineAppend x => exact ⟨_, lineAppend_lockBlind x, fun _ => rfl⟩
  | lineDecode => exact ⟨_, lineDecode_lockBlind, fun _ => rfl⟩
  | startNewField => exact ⟨_, startNewField_lockBlind, fun _ => rfl⟩
  | deinterlaceCore => exact ⟨_, deinterlaceCore_lockBlind, fun _ => rfl⟩
  | displayCopy => exact ⟨_, displayCopy_lockBlind, fun _ => rfl⟩
  | formatReset => exact ⟨_, formatReset_lockBlind, fun _ => rfl⟩
  | levelDerive => exact ⟨levelDerive, fun _ l => ⟨l, rfl⟩, fun _ => rfl⟩

/-- Settles O59: every instruction is an operation that does not look at the lock state. -/
theorem lockStateIsOutputOnly : Obligations.LockStateIsOutputOnly := by
  intro i s t l ht
  obtain ⟨f, hblind, hexec⟩ := exec_eq_next_lockBlind i
  obtain ⟨l', hl'⟩ := hblind s l
  obtain rfl : f s = t := by rw [hexec] at ht; cases ht; rfl
  exact ⟨l', (hexec _).trans (congrArg _ hl')⟩

end Sys2Proof.Machine
end

section
/-! PROOFS. The canonical form of the buffers (20_memory.md R61, R62; log entry 15): every unit, every instruction and
every bus access keeps it. Three things only write a buffer: a row of the line decoder, the rows of the assembler, and
the host; the resets empty all but the chunk RAM. -/

namespace Sys2Proof.Machine

variable {s t : State}

/-! ## What writes a buffer -/

/-- The canonical form is a property of the five buffers alone. -/
theorem buffersCanonical_congr (hbuffers : t.chunk = s.chunk ∧ t.field0 = s.field0 ∧ t.field1 = s.field1
    ∧ t.frame = s.frame ∧ t.display = s.display) (h : s.BuffersCanonical) : t.BuffersCanonical := by
  obtain ⟨hchunk, hfield0, hfield1, hframe, hdisplay⟩ := hbuffers
  simpa only [State.BuffersCanonical, hchunk, hfield0, hfield1, hframe, hdisplay] using h

/-- The frame rows of every format lie inside the frame buffer, and inside the display buffer (10_state.md R37, R38). -/
theorem frameRows_le_frameBytes (s : State) : s.geom.frameHeight * Config.frameWidth ≤ frameBytes := by
  have hrows := frameHeight_eq s
  have hheight := fieldHeight_le s
  simp only [frameBytes, Config.frameRowsCap, Config.frameWidth]
  omega

/-- The rows the assembler writes lie inside the frame buffer (47_assembler.md R232). -/
theorem withFrameRows_buffersCanonical (h : s.BuffersCanonical) (f : Nat → Nat → Byte) :
    (s.withFrameRows f).BuffersCanonical := by
  have hrows : 2 * s.geom.fieldHeight * Config.frameWidth ≤ frameBytes :=
    frameHeight_eq s ▸ frameRows_le_frameBytes s
  obtain ⟨hchunk, hfield0, hfield1, hframe, hdisplay⟩ := h
  exact ⟨hchunk, hfield0, hfield1, Memory.fill_canonical hframe le_rfl (Nat.add_le_add_left hrows _) _, hdisplay⟩

/-- The rows copied lie inside the display buffer (47_assembler.md R235). -/
theorem displayCopy_buffersCanonical (h : s.BuffersCanonical) : (displayCopy s).BuffersCanonical := by
  obtain ⟨hchunk, hfield0, hfield1, hframe, hdisplay⟩ := h
  exact ⟨hchunk, hfield0, hfield1, hframe,
    Memory.fill_canonical hdisplay le_rfl (Nat.add_le_add_left (frameRows_le_frameBytes s) _) _⟩

/-- A reset empties every buffer but the chunk RAM. -/
theorem buffersCanonical_of_emptied (h : s.BuffersCanonical) (hchunk : t.chunk = s.chunk)
    (hempty : t.field0 = [] ∧ t.field1 = [] ∧ t.frame = [] ∧ t.display = []) : t.BuffersCanonical := by
  have hnil (lo hi : Nat) : Memory.wf [] ∧ Memory.within [] lo hi := ⟨by decide, by simp⟩
  obtain ⟨hfield0, hfield1, hframe, hdisplay⟩ := hempty
  simp only [State.BuffersCanonical, hchunk, hfield0, hfield1, hframe, hdisplay]
  exact ⟨h.1, hnil _ _, hnil _ _, hnil _ _, hnil _ _⟩

/-! ## The units -/

theorem lineBoundary_buffersCanonical (h : s.BuffersCanonical) : (lineBoundary s).BuffersCanonical :=
  lineDecode_buffersCanonical h

theorem pllAdvance_buffersCanonical (h : s.BuffersCanonical) : (pllAdvance s).BuffersCanonical := by
  unfold pllAdvance
  dsimp only
  split
  · exact lineBoundary_buffersCanonical h
  · exact h

theorem deinterlaceCore_buffersCanonical (h : s.BuffersCanonical) : (deinterlaceCore s).BuffersCanonical := by
  unfold deinterlaceCore
  split
  · exact withFrameRows_buffersCanonical h _
  · split
    · exact withFrameRows_buffersCanonical h _
    · split
      · exact withFrameRows_buffersCanonical h _
      · exact h

theorem assembleField_buffersCanonical (h : s.BuffersCanonical) : (assembleField s).BuffersCanonical := by
  have hmarked : (markReady s.lines.currentField s).BuffersCanonical := buffersCanonical_congr (by simp) h
  have hshown := displayCopy_buffersCanonical (deinterlaceCore_buffersCanonical hmarked)
  exact buffersCanonical_congr (by simp [assembleField]) hshown

/-- A new field assembles the finished one at most; the levels are no part of a buffer. -/
theorem startNewField_buffersCanonical (h : s.BuffersCanonical) : (startNewField s).BuffersCanonical := by
  have hassembled : State.BuffersCanonical (if s.fieldAccepted then assembleField s else s) := by
    split
    · exact assembleField_buffersCanonical h
    · exact h
  exact hassembled

theorem finishSample_buffersCanonical (h : s.BuffersCanonical) (done above : Bool) (p : Position) :
    (finishSample done above p s).BuffersCanonical := by
  cases done with
  | true => exact startNewField_buffersCanonical h
  | false => exact h

/-- Up to the PLL's advance no unit writes a buffer; then a line, and then a field, may be finished. -/
theorem sampleStep_buffersCanonical (h : s.BuffersCanonical) (x : Sample) : (sampleStep x s).BuffersCanonical := by
  rw [sampleStep_eq]
  refine finishSample_buffersCanonical (pllAdvance_buffersCanonical (buffersCanonical_congr ?_ h)) _ _ _
  simp only [correctOnEvent]
  split <;> simp

theorem sampleSteps_buffersCanonical (h : s.BuffersCanonical) (xs : List Sample) :
    (sampleSteps xs s).BuffersCanonical := by
  induction xs generalizing s with
  | nil => exact h
  | cons x xs ih => exact ih (sampleStep_buffersCanonical h x)

/-! ## The host commands -/

theorem processBuffer_buffersCanonical (h : s.BuffersCanonical) (count : Nat) :
    (processBuffer count s).BuffersCanonical := by
  unfold processBuffer
  split
  · exact h
  · split
    · exact h
    · split
      · exact h
      · unfold processSamples
        split
        · exact h
        · exact sampleSteps_buffersCanonical (buffersCanonical_congr (by simp) h) _

theorem formatReset_buffersCanonical (h : s.BuffersCanonical) : (formatReset s).BuffersCanonical :=
  buffersCanonical_of_emptied h rfl ⟨rfl, rfl, rfl, rfl⟩

theorem setFormat_buffersCanonical (h : s.BuffersCanonical) (fmt : BitVec 2) : (setFormat fmt s).BuffersCanonical := by
  unfold setFormat
  split
  · exact h
  · exact formatReset_buffersCanonical (s := selectFormat (formatOfCode fmt) s) h

theorem resetBlock_buffersCanonical (h : s.BuffersCanonical) : (resetBlock s).BuffersCanonical :=
  buffersCanonical_of_emptied h rfl ⟨rfl, rfl, rfl, rfl⟩

theorem deinterlace_buffersCanonical (h : s.BuffersCanonical) : (deinterlace s).BuffersCanonical := by
  unfold deinterlace
  split
  · exact h
  · split
    · exact h
    · exact displayCopy_buffersCanonical (deinterlaceCore_buffersCanonical h)

/-! ## Every instruction, every access, every step -/

/-- Every instruction keeps the canonical form: a host command, and an internal operation run by itself. -/
theorem exec_buffersCanonical {i : Instr} (h : s.BuffersCanonical) (ht : exec i s = .next t) : t.BuffersCanonical := by
  cases i with
  | nop => cases ht; exact h
  | processBuffer count => cases ht; exact processBuffer_buffersCanonical h _
  | setFormat fmt => cases ht; exact setFormat_buffersCanonical h fmt
  | reset => cases ht; exact resetBlock_buffersCanonical (s := s) h
  | ack d e => cases ht; exact h
  | deinterlace => cases ht; exact deinterlace_buffersCanonical h
  | setFieldReady r0 r1 => cases ht; exact h
  | sampleStep x => cases ht; exact sampleStep_buffersCanonical h x
  | lpFilter x => cases ht; exact h
  | edgeClassify y => cases ht; exact h
  | levelAccumulate y => cases ht; exact h
  | levelCommit => cases ht; exact h
  | levelBootstrap mn mx => cases ht; exact h
  | vsyncEdge fall p => cases ht; exact buffersCanonical_congr (by simp) h
  | hsyncEdge fall rise p => cases ht; exact buffersCanonical_congr (by simp) h
  | pllEvent => cases ht; exact buffersCanonical_congr (by simp) h
  | phaseError => cases ht; exact h
  | lockUpdate => cases ht; exact h
  | pllCorrect => cases ht; exact h
  | pllAdvance => cases ht; exact pllAdvance_buffersCanonical h
  | lineBoundary => cases ht; exact lineBoundary_buffersCanonical h
  | lineAppend x => cases ht; exact buffersCanonical_congr (by simp) h
  | lineDecode => cases ht; exact lineDecode_buffersCanonical h
  | startNewField => cases ht; exact startNewField_buffersCanonical h
  | deinterlaceCore => cases ht; exact deinterlaceCore_buffersCanonical h
  | displayCopy => cases ht; exact displayCopy_buffersCanonical h
  | formatReset => cases ht; exact formatReset_buffersCanonical h
  | levelDerive => cases ht; exact h

theorem writeRegister_buffersCanonical (h : s.BuffersCanonical) (o : Nat) (v : Word) :
    (writeRegister o v s).BuffersCanonical := by
  unfold writeRegister
  split <;> exact h

theorem served_buffersCanonical {a : BusAccess} (h : s.BuffersCanonical) (hserved : Served a s t) :
    t.BuffersCanonical := by
  cases hserved with
  | answered v ht => subst ht; exact h
  | unanswered v ht => subst ht; exact h
  | discarded ht => subst ht; exact h
  | register o v ho ht => subst ht; exact writeRegister_buffersCanonical h o v
  | chunk addr v ha hw ht => subst ht; exact ⟨chunkWrite_canonical h ha hw v, h.2⟩
  | field b addr v ha hw ht => subst ht; exact writeField_buffersCanonical h hw v
  | rejected w r hc hr ht => subst ht; exact h
  | command w i hc hd ht => exact exec_buffersCanonical h ht

/-- Settles O52, by the cases of a step: it is idle, runs an internal operation by itself, or serves one access. -/
theorem everyStepKeepsTheBuffersCanonical : Obligations.EveryStepKeepsTheBuffersCanonical := by
  intro s t h hstep
  cases step_cases hstep with
  | idle hc hp ht => subst ht; exact h
  | called w ops i hc hd ht => exact exec_buffersCanonical (s := { s with callPort := [] }) h ht
  | served a rest hc hp hserved => exact served_buffersCanonical (s := { s with pending := rest }) h hserved

end Sys2Proof.Machine
end

section
/-! PROOFS. One bus access (20_memory.md R64 to R72, R80): what the step serves, that every access is served, what an
aligned read returns in each window, and what a write to the chunk RAM or to a field window stores. -/

namespace Sys2Proof.Machine

/-! ## The step (20_memory.md R80) -/

section Step

variable {s : State}

/-- With no access pending the block is idle (60_exceptions.md R294). -/
theorem step_idle (hcall : s.callPort = []) (hpending : s.pending = []) : step s = .next s := by
  simp [step, serveNext, hcall, hpending]

/-- The oldest access is taken off the list and served. -/
theorem step_pending {a : BusAccess} {rest : List BusAccess} (hcall : s.callPort = [])
    (hpending : s.pending = a :: rest) : step s = serve a { s with pending := rest } := by
  simp [step, serveNext, hcall, hpending]

/-- A command word that decodes is executed (30_encoding.md R91). -/
theorem execCommand_ok {w : Word} {i : Instr} (h : decodeCommand w = .ok i) (s : State) :
    execCommand w s = exec i s := by
  simp only [execCommand, h]

/-- Settles O4: the access is served by executing its word. -/
theorem stepRunsTheDecodedCommand : Obligations.StepRunsTheDecodedCommand := by
  intro s w rest i hcall hpending hdecode hcommand
  rw [step_pending hcall hpending, serve_commandWrite, execCommand_ok (decode_command hdecode hcommand)]

/-- Every command word gives a next state: it runs an instruction, each of which completes, or it is rejected. -/
theorem execCommand_eq_next (w : Word) (s : State) : ∃ t, execCommand w s = .next t := by
  unfold execCommand
  split
  · rename_i i _
    obtain ⟨f, -, hexec⟩ := exec_eq_next_lockBlind i
    exact ⟨f s, hexec s⟩
  · exact ⟨_, rfl⟩

theorem memWrite_eq_next (a : Nat) (v : Word) (s : State) : ∃ t, memWrite a v s = .next t := by
  unfold memWrite
  split
  · split
    · exact execCommand_eq_next v s
    · exact ⟨_, rfl⟩
  all_goals exact ⟨_, rfl⟩

/-- Every bus access gives a next state (60_exceptions.md R284). -/
theorem serve_eq_next (a : BusAccess) (s : State) : ∃ t, serve a s = .next t := by
  unfold serve
  split
  · split <;> exact ⟨_, rfl⟩
  · split
    · exact memWrite_eq_next _ _ s
    · exact ⟨_, rfl⟩

/-- Settles O6: with nothing pending the step is idle, and every access is served. -/
theorem noAccessStopsTheBlock : Obligations.NoAccessStopsTheBlock := by
  intro s hcall
  refine ⟨step_idle hcall, fun a rest hpending => ?_⟩
  obtain ⟨t, ht⟩ := serve_eq_next a { s with pending := rest }
  exact ⟨t, ht, (step_pending hcall hpending).trans ht⟩

end Step

variable (s : State)

/-! ## Misaligned and narrow accesses (20_memory.md R72) -/

/-- An access that is narrow or not at a multiple of 4 is not performed. -/
theorem isAligned_eq_false {addr : BitVec 21} {width : Width} (h : width ≠ .word ∨ addr.toNat % 4 ≠ 0) :
    isAligned addr width = false :=
  decide_eq_false fun ⟨hword, hmultiple⟩ => h.elim (· hword) (· hmultiple)

/-- Settles O11: neither access is performed. -/
theorem misalignedAccessOnlySetsBusErr : Obligations.MisalignedAccessOnlySetsBusErr := by
  intro s addr width v h
  simp only [serve, isAligned_eq_false h]
  exact ⟨rfl, rfl⟩

/-! ## Aligned reads (20_memory.md R70) -/

/-- An aligned 32-bit read is performed (20_memory.md R72). -/
theorem serve_read_aligned {addr : BitVec 21} (h : addr.toNat % 4 = 0) :
    serve (.read addr .word) s = .next (memRead addr.toNat s) := by
  simp [serve, isAligned, h]

/-- A read writes the word it returns, and `bus_err` exactly where the address is unmapped. -/
theorem memRead_eq (a : Nat) :
    memRead a s = { s with
      readData := (memRead a s).readData
      host := { s.host with busErr := s.host.busErr || decide (windowOf a = .unmapped) } } := by
  unfold memRead
  split <;> simp [*, returnWord, raiseBusErr]

theorem memRead_regs {a : Nat} (hw : windowOf a = .regs) : memRead a s = returnWord (s.register a) s := by
  simp only [memRead, hw]

theorem memRead_unmapped {a : Nat} (hw : windowOf a = .unmapped) : memRead a s = returnWord 0 (raiseBusErr s) := by
  simp only [memRead, hw]

/-- In the five buffer windows a read returns the four bytes from its address on. -/
theorem memRead_buffer {a : Nat} (hregs : windowOf a ≠ .regs) (hmapped : windowOf a ≠ .unmapped) :
    memRead a s = returnWord (s.busWord a) s := by
  unfold memRead
  split
  case h_1 hw => exact absurd hw hregs
  case h_6 hw => exact absurd hw hmapped
  all_goals rfl

/-! ### The bytes of each window -/

/-- Row and column of offset `k` give back the offset. -/
theorem rowMajor_div_mod (base k : Nat) : base + k / 720 * 720 + k % 720 = base + k := by omega

theorem fieldPixel_div_mod (b : FieldId) (k : Nat) :
    s.fieldPixel b (k / 720) (k % 720) = (s.fieldMem b).read (fieldBase b + k) :=
  congrArg _ (rowMajor_div_mod _ k)

theorem framePixel_div_mod (k : Nat) : s.framePixel (k / 720) (k % 720) = s.frame.read (0x100000 + k) :=
  congrArg _ (rowMajor_div_mod _ k)

theorem displayPixel_div_mod (k : Nat) : s.displayPixel (k / 720) (k % 720) = s.display.read (0x180000 + k) :=
  congrArg _ (rowMajor_div_mod _ k)

theorem busByte_chunk {a : Nat} (hw : windowOf a = .chunk) : s.busByte a = s.chunk.read a := by
  simp only [State.busByte, hw]

/-- Offset `k` of a field window shows a pixel, or 0 in the slack (20_memory.md R62, R65). -/
theorem busByte_field (b : FieldId) {k : Nat} (hk : k < 0x40000) :
    s.busByte (fieldBase b + k) = if k < 288 * 720 then s.fieldPixel b (k / 720) (k % 720) else 0 := by
  rw [State.busByte, windowOf_field b (Nat.le_add_right _ k) (Nat.add_lt_add_left hk _), fieldPixel_div_mod]
  simp only [Nat.add_lt_add_iff_left, fieldBytes, Config.fieldRowsCap, Config.frameWidth]

/-- Offset `k` of the frame window shows a pixel, or 0 in the slack (20_memory.md R62, R66). -/
theorem busByte_frame {k : Nat} (hk : k < 0x80000) :
    s.busByte (0x100000 + k) = if k < 576 * 720 then s.framePixel (k / 720) (k % 720) else 0 := by
  rw [State.busByte, windowOf_frame (Nat.le_add_right _ k) (Nat.add_lt_add_left hk _), framePixel_div_mod]
  simp only [frameBase, Nat.add_lt_add_iff_left, frameBytes, Config.frameRowsCap, Config.frameWidth]

/-- Offset `k` of the display window shows a pixel, or 0 in the slack (20_memory.md R62, R67). -/
theorem busByte_display {k : Nat} (hk : k < 0x80000) :
    s.busByte (0x180000 + k) = if k < 576 * 720 then s.displayPixel (k / 720) (k % 720) else 0 := by
  rw [State.busByte, windowOf_display (Nat.le_add_right _ k) (Nat.add_lt_add_left hk _), displayPixel_div_mod]
  simp only [displayBase, Nat.add_lt_add_iff_left, frameBytes, Config.frameRowsCap, Config.frameWidth]

/-- The two samples of word `k` of the chunk RAM (20_memory.md R64). -/
theorem busWord_chunk {k : Nat} (hk : k < 32768) :
    (s.busWord (0x010000 + 4 * k)).extractLsb' 0 16 = s.chunkSample (2 * k)
    ∧ (s.busWord (0x010000 + 4 * k)).extractLsb' 16 16 = s.chunkSample (2 * k + 1) := by
  have hbyte (j : Nat) (hj : j < 4) : s.busByte (0x010000 + 4 * k + j) = s.chunk.read (0x010000 + 4 * k + j) :=
    busByte_chunk s (windowOf_chunk (by omega) (by omega))
  have hlow : chunkBase + 2 * (2 * k) = 0x010000 + 4 * k := by simp only [chunkBase]; omega
  have hhigh : chunkBase + 2 * (2 * k + 1) = 0x010000 + 4 * k + 2 := by simp only [chunkBase]; omega
  rw [State.chunkSample, State.chunkSample, hlow, hhigh, State.busWord, joinWord_low, joinWord_high]
  exact ⟨congrArg₂ joinHalf (hbyte 0 (by omega)) (hbyte 1 (by omega)),
    congrArg₂ joinHalf (hbyte 2 (by omega)) (hbyte 3 (by omega))⟩

/-- A buffer window is not unmapped, and a read of it returns its bytes. -/
theorem memRead_readData_buffer {a : Nat} {w : Window} (hw : windowOf a = w) (hregs : w ≠ .regs)
    (hmapped : w ≠ .unmapped) :
    decide (windowOf a = .unmapped) = false ∧ (memRead a s).readData = s.busWord a := by
  subst hw
  exact ⟨decide_eq_false hmapped, by rw [memRead_buffer s hregs hmapped, returnWord_readData]⟩

/-- A read of a buffer window that begins at `base` and shows `shown k` at offset `k`. -/
theorem memRead_readData_window {base len a : Nat} {w : Window} {shown : Nat → Byte} (hw : windowOf a = w)
    (hregs : w ≠ .regs) (hmapped : w ≠ .unmapped) (hshown : ∀ k < len, s.busByte (base + k) = shown k)
    (hend : (base + len) % 4 = 0) (ha : a % 4 = 0) (hlo : base ≤ a) (hhi : a < base + len) :
    decide (windowOf a = .unmapped) = false
    ∧ ∀ j < 4, laneOf (memRead a s).readData j = shown (a + j - base) := by
  obtain ⟨hmapped', hword⟩ := memRead_readData_buffer s hw hregs hmapped
  refine ⟨hmapped', fun j hj => ?_⟩
  rw [hword, laneOf_busWord s a hj, ← hshown _ (by omega), Nat.add_sub_cancel' (by omega)]

/-- Settles O8, window by window. -/
theorem alignedReadReturnsTheWord : Obligations.AlignedReadReturnsTheWord := by
  intro s addr ha
  have hbus := addr.isLt
  refine ⟨(memRead addr.toNat s).readData, decide (windowOf addr.toNat = .unmapped), ?_, fun hhi => ?_,
    fun ⟨hlo, hhi⟩ => ?_, fun b ⟨hlo, hhi⟩ => ?_, fun ⟨hlo, hhi⟩ => ?_, fun hlo => ?_, fun hrange => ?_⟩
  · rw [serve_read_aligned s ha, ← memRead_eq]
  · have hw := windowOf_regs hhi
    rw [memRead_regs s hw, hw]
    exact ⟨rfl, rfl⟩
  · obtain ⟨hmapped, hword⟩ := memRead_readData_buffer s (windowOf_chunk hlo hhi) (by decide) (by decide)
    obtain ⟨k, hk⟩ : ∃ k, addr.toNat = 0x010000 + 4 * k := ⟨(addr.toNat - 0x010000) / 4, by omega⟩
    have hindex : (addr.toNat - 0x010000) / 4 = k := by omega
    refine ⟨hmapped, ?_⟩
    rw [hword, hindex, hk]
    exact busWord_chunk s (by omega)
  · have hread := memRead_readData_window s (windowOf_field b hlo hhi) (by simp) (by simp)
      (fun k hk => busByte_field s b hk) (by cases b <;> decide) ha hlo hhi
    exact hread
  · have hread := memRead_readData_window s (windowOf_frame hlo hhi) (by decide) (by decide)
      (fun k hk => busByte_frame s hk) (by decide) ha hlo hhi
    exact hread
  · have hread := memRead_readData_window s (windowOf_display hlo hbus) (by decide) (by decide)
      (fun k hk => busByte_display s hk) (by decide) ha hlo hbus
    exact hread
  · have hw := windowOf_unmapped hrange
    rw [memRead_unmapped s hw, hw]
    exact ⟨rfl, rfl⟩

/-! ## Writes to the chunk RAM (20_memory.md R64) -/

/-- A write to the chunk RAM: all four lanes are stored. -/
def writeChunk (a : Nat) (v : Word) (s : State) : State :=
  { s with chunk := s.chunk.writeLanes a v fun _ => true }

theorem memWrite_chunk {a : Nat} (hw : windowOf a = .chunk) (v : Word) :
    memWrite a v s = .next (writeChunk a v s) := by
  simp only [memWrite, hw, writeChunk]

theorem read_writeChunk (h : s.chunk.wf) (a : Nat) (v : Word) (b : Nat) :
    (writeChunk a v s).chunk.read b = if a ≤ b ∧ b < a + 4 then laneOf v (b - a) else s.chunk.read b := by
  simp only [writeChunk, Memory.read_writeLanes h, and_true]

/-- A written word of the chunk RAM is the word the bus shows. -/
theorem busWord_writeChunk (h : s.chunk.wf) {k : Nat} (hk : k < 32768) (v : Word) :
    (writeChunk (0x010000 + 4 * k) v s).busWord (0x010000 + 4 * k) = v := by
  have hbyte (j : Nat) (hj : j < 4) :
      (writeChunk (0x010000 + 4 * k) v s).busByte (0x010000 + 4 * k + j) = laneOf v j := by
    rw [busByte_chunk _ (windowOf_chunk (by omega) (by omega)), read_writeChunk s h, if_pos (by omega),
      Nat.add_sub_cancel_left]
  calc (writeChunk (0x010000 + 4 * k) v s).busWord (0x010000 + 4 * k)
    _ = joinWord (laneOf v 0) (laneOf v 1) (laneOf v 2) (laneOf v 3) := by
      rw [State.busWord, hbyte 1 (by omega), hbyte 2 (by omega), hbyte 3 (by omega)]
      exact congrArg (joinWord · _ _ _) (hbyte 0 (by omega))
    _ = v := joinWord_laneOf v

/-- Settles O9: the word written is the word the bus shows, whose halves are the two samples. -/
theorem chunkWordHoldsTwoSamples : Obligations.ChunkWordHoldsTwoSamples := by
  intro s k v hk hwf
  have haddr : (BitVec.ofNat 21 (0x010000 + 4 * k)).toNat = 0x010000 + 4 * k :=
    (BitVec.toNat_ofNat ..).trans (Nat.mod_eq_of_lt (by omega))
  have haligned : (BitVec.ofNat 21 (0x010000 + 4 * k)).toNat % 4 = 0 := by omega
  have hw : windowOf (0x010000 + 4 * k) = .chunk := windowOf_chunk (by omega) (by omega)
  have hword := busWord_writeChunk s hwf hk v
  obtain ⟨hlow, hhigh⟩ := busWord_chunk (writeChunk (0x010000 + 4 * k) v s) hk
  rw [hword] at hlow hhigh
  refine ⟨writeChunk (0x010000 + 4 * k) v s, ?_, rfl, hlow.symm, hhigh.symm, fun a ha => ?_, ?_⟩
  · rw [serve_write_aligned s haligned, haddr, memWrite_chunk s hw]
  · rw [read_writeChunk s hwf, if_neg ha]
  · rw [serve_read_aligned _ haligned, haddr, memRead_buffer _ (by simp [hw]) (by simp [hw]), hword, returnWord]

/-! ## Writes to a field window (20_memory.md R65, R71) -/

theorem memWrite_field {a : Nat} {b : FieldId} (hw : windowOf a = .field b) (v : Word) :
    memWrite a v s = .next (writeField b a v s) := by
  simp only [memWrite, hw]

/-- Settles O10: the lanes stored are those before the slack. -/
theorem fieldWriteStoresItsPixels : Obligations.FieldWriteStoresItsPixels := by
  intro s b addr v haligned hlo hhi hwf
  refine ⟨(s.fieldMem b).writeLanes addr.toNat v fun k => decide (k < fieldBase b + fieldBytes), ?_, fun k => ?_⟩
  · rw [serve_write_aligned s haligned, memWrite_field s (windowOf_field b hlo hhi), writeField]
  · simp only [Memory.read_writeLanes hwf, decide_eq_true_eq, and_assoc]
    rfl

end Sys2Proof.Machine
end

section
/-! PROOFS. The encoding (30_encoding.md R90 to R95; log entry 4 for the operand words of a call record): what the
decoders answer on each opcode, that decoding inverts encoding, and that it follows the opcode map in both directions. -/

namespace Sys2Proof

/-! ## The fields that the masks of the opcode map keep -/

section Rows

variable {w : Word} {o : BitVec 8}

/-- A word fits the row of a call identifier, or of PROCESS_BUFFER, by its opcode alone. -/
theorem and_opcodeMask_eq_iff : w &&& 0xFF000000#32 = headWord o ↔ opcodeOf w = o := by
  rw [and_opcodeMask]
  constructor
  · intro h
    obtain ⟨ho, -⟩ := append_inj (n := 8) (m := 24) h
    exact ho
  · exact congrArg headWord

/-- A word fits a row with a two-bit operand by its opcode and its reserved bits 23:2. -/
theorem and_reservedMask_eq_iff :
    w &&& 0xFFFFFFFC#32 = headWord o ↔ opcodeOf w = o ∧ reservedAboveTwo w = 0 := by
  rw [and_reservedMask]
  constructor
  · intro h
    obtain ⟨ho, hoperand⟩ := append_inj (n := 8) (m := 24) h
    obtain ⟨hreserved, -⟩ := append_inj (n := 22) (m := 2) (b := 0#22) (d := 0#2) hoperand
    exact ⟨ho, hreserved⟩
  · rintro ⟨rfl, hreserved⟩
    rw [hreserved]
    rfl

/-- A word fits a row without operands by its opcode and its operand field. -/
theorem and_wholeMask_eq_iff : w &&& 0xFFFFFFFF#32 = headWord o ↔ opcodeOf w = o ∧ operandOf w = 0 := by
  have hwhole : w &&& 0xFFFFFFFF#32 = w := BitVec.and_allOnes
  rw [hwhole]
  constructor
  · rintro rfl
    exact ⟨opcodeOf_append o 0#24, operandOf_append o 0#24⟩
  · rintro ⟨rfl, hoperand⟩
    rw [← opcode_append_operand w, hoperand, opcodeOf_append]
    rfl

end Rows

/-! ## Command words, opcode by opcode (30_encoding.md R91) -/

theorem whenReservedClear_of_eq_zero {n : Nat} {r : BitVec n} (h : r = 0) (i : Instr) : whenReservedClear r i = .ok i :=
  if_pos h

section Commands

variable {w : Word}

theorem decodeCommand_nop (h : opcodeOf w = 0x00#8) : decodeCommand w = whenReservedClear (operandOf w) .nop := by
  simp only [decodeCommand, h]

theorem decodeCommand_processBuffer (h : opcodeOf w = 0x01#8) :
    decodeCommand w = .ok (.processBuffer (operandOf w)) := by
  simp only [decodeCommand, h]

theorem decodeCommand_setFormat (h : opcodeOf w = 0x02#8) :
    decodeCommand w = whenReservedClear (reservedAboveTwo w) (.setFormat (w.extractLsb' 0 2)) := by
  simp only [decodeCommand, h]

theorem decodeCommand_reset (h : opcodeOf w = 0x03#8) :
    decodeCommand w = whenReservedClear (operandOf w) .reset := by
  simp only [decodeCommand, h]

theorem decodeCommand_ack (h : opcodeOf w = 0x04#8) :
    decodeCommand w = whenReservedClear (reservedAboveTwo w) (.ack (w.getLsbD 0) (w.getLsbD 1)) := by
  simp only [decodeCommand, h]

theorem decodeCommand_deinterlace (h : opcodeOf w = 0x05#8) :
    decodeCommand w = whenReservedClear (operandOf w) .deinterlace := by
  simp only [decodeCommand, h]

theorem decodeCommand_setFieldReady (h : opcodeOf w = 0x06#8) :
    decodeCommand w = whenReservedClear (reservedAboveTwo w) (.setFieldReady (w.getLsbD 0) (w.getLsbD 1)) := by
  simp only [decodeCommand, h]

/-- The opcodes from 7 on are no command's (30_encoding.md R94). -/
theorem decodeCommand_unused (h : 7 ≤ (opcodeOf w).toNat) : decodeCommand w = .error .badOpcode := by
  unfold decodeCommand
  split
  case h_8 => rfl
  all_goals
    rename_i ho
    rw [ho] at h
    exact absurd h (by decide)

/-- A command word that decodes fits the row of its command. -/
theorem decodeCommand_fits {i : Instr} (h : decodeCommand w = .ok i) :
    w &&& (opcodeRow i).mask = (opcodeRow i).pattern := by
  unfold decodeCommand at h
  split at h
  case h_1 ho | h_4 ho | h_6 ho =>
    obtain ⟨hreserved, rfl⟩ := whenReservedClear_ok h
    exact and_wholeMask_eq_iff.2 ⟨ho, hreserved⟩
  case h_2 ho =>
    cases h
    exact and_opcodeMask_eq_iff.2 ho
  case h_3 ho | h_5 ho | h_7 ho =>
    obtain ⟨hreserved, rfl⟩ := whenReservedClear_ok h
    exact and_reservedMask_eq_iff.2 ⟨ho, hreserved⟩
  case h_8 => cases h

/-- A word that fits a command's row decodes to that command, with some operands. -/
theorem decodeCommand_of_fits {i : Instr} (hi : i.isCommand = true)
    (h : w &&& (opcodeRow i).mask = (opcodeRow i).pattern) :
    ∃ j, decodeCommand w = .ok j ∧ opcodeRow j = opcodeRow i := by
  cases i with
  | nop =>
    obtain ⟨ho, hreserved⟩ := and_wholeMask_eq_iff (o := 0x00#8).1 h
    exact ⟨_, (decodeCommand_nop ho).trans (whenReservedClear_of_eq_zero hreserved _), rfl⟩
  | processBuffer _ => exact ⟨_, decodeCommand_processBuffer (and_opcodeMask_eq_iff.1 h), rfl⟩
  | setFormat _ =>
    obtain ⟨ho, hreserved⟩ := and_reservedMask_eq_iff (o := 0x02#8).1 h
    exact ⟨_, (decodeCommand_setFormat ho).trans (whenReservedClear_of_eq_zero hreserved _), rfl⟩
  | reset =>
    obtain ⟨ho, hreserved⟩ := and_wholeMask_eq_iff (o := 0x03#8).1 h
    exact ⟨_, (decodeCommand_reset ho).trans (whenReservedClear_of_eq_zero hreserved _), rfl⟩
  | ack _ _ =>
    obtain ⟨ho, hreserved⟩ := and_reservedMask_eq_iff (o := 0x04#8).1 h
    exact ⟨_, (decodeCommand_ack ho).trans (whenReservedClear_of_eq_zero hreserved _), rfl⟩
  | deinterlace =>
    obtain ⟨ho, hreserved⟩ := and_wholeMask_eq_iff (o := 0x05#8).1 h
    exact ⟨_, (decodeCommand_deinterlace ho).trans (whenReservedClear_of_eq_zero hreserved _), rfl⟩
  | setFieldReady _ _ =>
    obtain ⟨ho, hreserved⟩ := and_reservedMask_eq_iff (o := 0x06#8).1 h
    exact ⟨_, (decodeCommand_setFieldReady ho).trans (whenReservedClear_of_eq_zero hreserved _), rfl⟩
  | _ => cases hi

/-- What the command decoder accepts is no call record, so `decode` gives the same command. -/
theorem decode_of_decodeCommand {i : Instr} (h : decodeCommand w = .ok i) (ops : List Word) :
    decode (w :: ops) = .ok i := by
  have hopcode := decodeCommand_opcode h
  have hid : ¬ isCallId (opcodeOf w) = true := by
    simp only [isCallId, decide_eq_true_eq]
    omega
  rw [decode, if_neg hid, h]

end Commands

/-! ## Call records (30_encoding.md R95) -/

section Calls

variable {w : Word} {o : BitVec 8} {ops : List Word} {i : Instr}

theorem decode_of_isCallId (h : isCallId (opcodeOf w) = true) : decode (w :: ops) = decodeCall (opcodeOf w) ops :=
  if_pos h

/-- A call record as the encoder begins it. -/
theorem decode_headWord (h : isCallId o = true) : decode (headWord o :: ops) = decodeCall o ops := by
  have ho : opcodeOf (headWord o) = o := opcodeOf_append o 0#24
  rw [decode_of_isCallId (by rwa [ho]), ho]

/-- The row of a call record's operation is that of its identifier. -/
theorem opcodeRow_of_decodeCall (h : decodeCall o ops = .ok i) : opcodeRow i = ⟨0xFF000000#32, headWord o⟩ := by
  unfold decodeCall at h
  split at h
  case h_1 | h_2 | h_15 => obtain ⟨x, rfl⟩ := withSample_ok h; rfl
  case h_3 | h_4 => obtain ⟨y, rfl⟩ := withFixed_ok h; rfl
  case h_6 =>
    split at h
    · cases h; rfl
    · cases h
  case h_7 | h_8 => obtain ⟨flags, p, rfl⟩ := withFlagsAndPosition_ok h; rfl
  case h_22 => cases h
  all_goals cases h; rfl

/-- An internal operation's row is that of an identifier. -/
theorem opcodeRow_of_isCall (h : i.isCommand = false) :
    ∃ o, isCallId o = true ∧ opcodeRow i = ⟨0xFF000000#32, headWord o⟩ := by
  refine ⟨opcodeOf (opcodeRow i).pattern, ?_⟩
  cases i
  case nop | processBuffer | setFormat | reset | ack | deinterlace | setFieldReady => cases h
  all_goals
    dsimp only [opcodeRow]
    exact ⟨rfl, rfl⟩

/-- Every identifier with three operand words is a call record: no operation has more operands (log entry 4). -/
theorem exists_decodeCall_eq_ok (h : isCallId o = true) (a b c : Word) : ∃ i, decodeCall o [a, b, c] = .ok i := by
  obtain ⟨hlo, hhi⟩ := of_decide_eq_true h
  obtain ⟨n, hn, rfl⟩ : ∃ n, n = o.toNat ∧ o = BitVec.ofNat 8 n := ⟨_, rfl, by simp⟩
  rw [← hn] at hlo hhi
  interval_cases n <;> exact ⟨_, rfl⟩

end Calls

/-! ## The operands of an encoding -/

section Operands

variable (o : BitVec 8) (v : BitVec 2)

theorem twoBitCommand_fields : opcodeOf (twoBitCommand o v) = o ∧ reservedAboveTwo (twoBitCommand o v) = 0 :=
  and_reservedMask_eq_iff.1 (Laws.EncodingHead.twoBitCommand_fits o v)

theorem extract_twoBitCommand : (twoBitCommand o v).extractLsb' 0 2 = v :=
  (Machine.extract_append_of_low o (0#22 ++ v) (a := 0) (k := 2) (by omega)).trans (extract_append_low 0#22 v)

/-- The two operand bits of a command word, one by one. -/
theorem twoBitCommand_bits (b1 b0 : Bool) :
    (twoBitCommand o (twoBits b1 b0)).getLsbD 0 = b0 ∧ (twoBitCommand o (twoBits b1 b0)).getLsbD 1 = b1 := by
  unfold twoBitCommand twoBits
  simp only [BitVec.getLsbD_append]
  simp

/-- The two flags of a flags word, one by one. -/
theorem flagsWord_bits (b1 b0 : Bool) :
    (flagsWord b1 b0).getLsbD 0 = b0 ∧ (flagsWord b1 b0).getLsbD 1 = b1 := by
  unfold flagsWord twoBits
  simp only [BitVec.getLsbD_append]
  simp

theorem withSample_sampleWord (x : Sample) (f : Sample → Instr) : withSample [sampleWord x] f = .ok (f x) := by
  rw [withSample, sampleOperand_sampleWord]

/-- A count that fits 64 bits comes back from its two words. -/
theorem withFixed_wideWords {y : Int} (h : fitsSigned64 y) (f : Int → Instr) :
    withFixed (wideWords (BitVec.ofInt 64 y)) f = .ok (f y) := by
  obtain ⟨hlo, hhi⟩ := h
  rw [wideWords, withFixed, wideOperand_extract, BitVec.toInt_ofInt_eq_self (by decide) hlo hhi]

theorem withFlagsAndPosition_wideWords (flags : Word) (p : Position) (f : Word → Position → Instr) :
    withFlagsAndPosition (flags :: wideWords p) f = .ok (f flags p) := by
  rw [wideWords, withFlagsAndPosition, wideOperand_extract]

end Operands

/-! ## Decoding inverts encoding -/

/-- The command decoder reads the operand bits of a command word with two of them. -/
theorem decodeCommand_twoBitCommand {w : Word} {o : BitVec 8} {v : BitVec 2} {i : Instr}
    (hd : opcodeOf w = o → decodeCommand w = whenReservedClear (reservedAboveTwo w) i) (hw : w = twoBitCommand o v) :
    decodeCommand w = .ok i := by
  subst hw
  obtain ⟨ho, hreserved⟩ := twoBitCommand_fields o v
  rw [hd ho, whenReservedClear_of_eq_zero hreserved]

/-- Decoding an encoded instruction gives it back: a host command by the fields of its word, an internal operation by
the operand words of its call record (log entry 4). -/
theorem decode_encode {i : Instr} (h : WellFormed i = true) : decode (encode i) = .ok i := by
  cases i with
  | nop | reset | deinterlace => rfl
  | processBuffer count =>
    refine decode_of_decodeCommand ?_ []
    rw [decodeCommand_processBuffer (opcodeOf_append _ count), operandOf_append]
  | setFormat fmt =>
    refine decode_of_decodeCommand ?_ []
    rw [decodeCommand_twoBitCommand decodeCommand_setFormat rfl, extract_twoBitCommand]
  | ack d e =>
    obtain ⟨hd, he⟩ := twoBitCommand_bits 0x04#8 e d
    refine decode_of_decodeCommand ?_ []
    rw [decodeCommand_twoBitCommand decodeCommand_ack rfl, hd, he]
  | setFieldReady r0 r1 =>
    obtain ⟨h0, h1⟩ := twoBitCommand_bits 0x06#8 r1 r0
    refine decode_of_decodeCommand ?_ []
    rw [decodeCommand_twoBitCommand decodeCommand_setFieldReady rfl, h0, h1]
  | sampleStep x | lpFilter x | lineAppend x => rw [encode, decode_headWord rfl, decodeCall, withSample_sampleWord]
  | edgeClassify y | levelAccumulate y =>
    rw [encode, decode_headWord rfl, decodeCall, withFixed_wideWords (of_decide_eq_true h)]
  | levelBootstrap mn mx =>
    rw [encode, decode_headWord rfl, decodeCall, sampleOperand_sampleWord, sampleOperand_sampleWord]
  | vsyncEdge fall p =>
    obtain ⟨hfall, -⟩ := flagsWord_bits false fall
    rw [encode, decode_headWord rfl, decodeCall, withFlagsAndPosition_wideWords, hfall]
  | hsyncEdge fall rise p =>
    obtain ⟨hfall, hrise⟩ := flagsWord_bits rise fall
    rw [encode, decode_headWord rfl, decodeCall, withFlagsAndPosition_wideWords, hfall, hrise]
  | levelCommit | pllEvent | phaseError | lockUpdate | pllCorrect | pllAdvance | lineBoundary | lineDecode
  | startNewField | deinterlaceCore | displayCopy | formatReset | levelDerive => rfl

/-- Settles O1, instruction by instruction. -/
theorem encodedInstructionDecodesToItself : Obligations.EncodedInstructionDecodesToItself := fun _ h => decode_encode h

/-! ## Decoding follows the opcode map -/

/-- What words decode to has its row's fixed bits in the first of them. -/
theorem decode_fits {w : Word} {ops : List Word} {i : Instr} (h : decode (w :: ops) = .ok i) :
    w &&& (opcodeRow i).mask = (opcodeRow i).pattern := by
  cases hi : i.isCommand with
  | true => exact decodeCommand_fits (decode_command h hi)
  | false =>
    rw [opcodeRow_of_decodeCall (decode_call h hi)]
    exact and_opcodeMask w

/-- A first word with a row's fixed bits and three operand words decode to an instruction of that row. -/
theorem decode_of_fits {w : Word} {i : Instr} (h : w &&& (opcodeRow i).mask = (opcodeRow i).pattern) (a b c : Word) :
    ∃ j, decode [w, a, b, c] = .ok j ∧ opcodeRow j = opcodeRow i := by
  cases hi : i.isCommand with
  | true =>
    obtain ⟨j, hj, hrow⟩ := decodeCommand_of_fits hi h
    exact ⟨j, decode_of_decodeCommand hj _, hrow⟩
  | false =>
    obtain ⟨o, hid, hrow⟩ := opcodeRow_of_isCall hi
    rw [hrow] at h ⊢
    obtain rfl := and_opcodeMask_eq_iff.1 h
    obtain ⟨j, hj⟩ := exists_decodeCall_eq_ok hid a b c
    exact ⟨j, (decode_of_isCallId hid).trans hj, opcodeRow_of_decodeCall hj⟩

/-- Settles O2: each direction separately for host commands and call records. -/
theorem decodingFollowsTheOpcodeMap : Obligations.DecodingFollowsTheOpcodeMap :=
  ⟨fun _ _ _ => decode_fits, fun _ a b c _ h => decode_of_fits h a b c⟩

/-- Words that are an instruction's encoding decode to it. -/
theorem decode_of_eq_encode {ws : List Word} {i : Instr} (hws : ws = encode i) (h : WellFormed i = true) :
    decode ws = .ok i := by
  rw [hws, decode_encode h]

/-- Settles O3: the accepted words are encodings, so decoding inverts them; the two rejected ones are evaluated. -/
theorem writtenWordsDecode : Obligations.WrittenWordsDecode :=
  ⟨decode_of_eq_encode (by decide) rfl, decode_of_eq_encode (by decide) rfl, decode_of_eq_encode (by decide) rfl,
    decode_of_eq_encode (by decide) rfl, decode_of_eq_encode (by decide) rfl, rfl, rfl,
    decode_of_eq_encode (by decide) rfl, decode_of_eq_encode (by decide) rfl⟩

end Sys2Proof
end

section
/-! PROOFS. What runs a decoded instruction: a call record in the call port (log entry 4), and the dispatch of a command
word written to CMD (30_encoding.md R91, R94). -/

namespace Sys2Proof.Machine

/-! ## A call record in the call port (log entry 4) -/

/-- Settles O5: the port's words are decoded by the call decoder. -/
theorem stepRunsTheDecodedCall : Obligations.StepRunsTheDecodedCall := by
  intro s w ops i hcall hdecode hi
  simp only [step, runCall, hcall, decode_call hdecode hi]

/-! ## The dispatch of a command word (30_encoding.md R91, R92) -/

section Dispatch

variable {w : Word}

theorem opcodeOf_toNat : (opcodeOf w).toNat = w.toNat / 2 ^ 24 := by
  have := w.isLt
  rw [opcodeOf, BitVec.extractLsb'_toNat, Nat.shiftRight_eq_div_pow, Nat.mod_eq_of_lt (by omega)]

theorem operandOf_toNat : (operandOf w).toNat = w.toNat % 2 ^ 24 := by
  rw [operandOf, BitVec.extractLsb'_toNat, Nat.shiftRight_zero]

theorem reservedAboveTwo_toNat : (reservedAboveTwo w).toNat = w.toNat % 2 ^ 24 / 4 := by
  rw [reservedAboveTwo, BitVec.extractLsb'_toNat, Nat.shiftRight_eq_div_pow]
  omega

theorem opcodeOf_eq {n : Nat} (h : w.toNat / 2 ^ 24 = n) : opcodeOf w = BitVec.ofNat 8 n := by
  rw [← h, ← opcodeOf_toNat, BitVec.ofNat_toNat, BitVec.setWidth_eq]

theorem operandOf_eq : operandOf w = BitVec.ofNat 24 (w.toNat % 2 ^ 24) := by
  rw [← operandOf_toNat, BitVec.ofNat_toNat, BitVec.setWidth_eq]

theorem operandOf_eq_zero_iff : operandOf w = 0 ↔ w.toNat % 2 ^ 24 = 0 := by
  rw [BitVec.toNat_eq, operandOf_toNat]
  rfl

theorem reservedAboveTwo_eq_zero_iff : reservedAboveTwo w = 0 ↔ w.toNat % 2 ^ 24 / 4 = 0 := by
  rw [BitVec.toNat_eq, reservedAboveTwo_toNat]
  rfl

/-- The two low bits, as a number of two bits. -/
theorem extract_low_two : w.extractLsb' 0 2 = BitVec.ofNat 2 (w.toNat % 2 ^ 24) := by
  apply BitVec.eq_of_toNat_eq
  rw [BitVec.extractLsb'_toNat, BitVec.toNat_ofNat, Nat.shiftRight_zero]
  omega

theorem getLsbD_zero_eq_decide : w.getLsbD 0 = decide (w.toNat % 2 ^ 24 % 2 = 1) := by
  rw [BitVec.getLsbD, Nat.testBit_zero]
  congr 2
  omega

/-- Where the bits above it are clear, bit 1 is all that is left above bit 0. -/
theorem getLsbD_one_eq_decide (h : w.toNat % 2 ^ 24 / 4 = 0) : w.getLsbD 1 = decide (w.toNat % 2 ^ 24 / 2 = 1) := by
  rw [BitVec.getLsbD, Nat.testBit_eq_decide_div_mod_eq]
  congr 1
  apply propext
  omega

/-- A command word whose reserved bits are checked runs its command, or writes BAD_OPERAND and nothing else. -/
theorem serve_commandWrite_checked {n : Nat} {r : BitVec n} {i j : Instr} {clear : Prop} [Decidable clear]
    (hd : decodeCommand w = whenReservedClear r i) (hclear : r = 0 ↔ clear) (hij : clear → i = j) (s : State) :
    serve (commandWrite w) s = if clear then exec j s else .next (setResult .badOperand s) := by
  rw [serve_commandWrite, execCommand, hd]
  by_cases h : clear
  · rw [whenReservedClear_of_eq_zero (hclear.2 h), hij h, if_pos h]
  · rw [whenReservedClear, if_neg (mt hclear.1 h), if_neg h]
    rfl

/-- Settles O7, opcode by opcode. -/
theorem commandWordDispatch : Obligations.CommandWordDispatch := by
  intro s w
  refine ⟨fun ho => ?nop, fun ho => ?processBuffer, fun ho => ?setFormat, fun ho => ?reset, fun ho => ?ack,
    fun ho => ?deinterlace, fun ho => ?setFieldReady, fun ho => ?unused⟩
  case nop =>
    exact serve_commandWrite_checked (decodeCommand_nop (opcodeOf_eq ho)) operandOf_eq_zero_iff (fun _ => rfl) s
  case processBuffer =>
    rw [serve_commandWrite, execCommand_ok (decodeCommand_processBuffer (opcodeOf_eq ho)), operandOf_eq]
  case setFormat =>
    exact serve_commandWrite_checked (decodeCommand_setFormat (opcodeOf_eq ho)) reservedAboveTwo_eq_zero_iff
      (fun _ => congrArg _ extract_low_two) s
  case reset =>
    exact serve_commandWrite_checked (decodeCommand_reset (opcodeOf_eq ho)) operandOf_eq_zero_iff (fun _ => rfl) s
  case ack =>
    exact serve_commandWrite_checked (decodeCommand_ack (opcodeOf_eq ho)) reservedAboveTwo_eq_zero_iff
      (fun h => congrArg₂ _ getLsbD_zero_eq_decide (getLsbD_one_eq_decide h)) s
  case deinterlace =>
    exact serve_commandWrite_checked (decodeCommand_deinterlace (opcodeOf_eq ho)) operandOf_eq_zero_iff (fun _ => rfl) s
  case setFieldReady =>
    exact serve_commandWrite_checked (decodeCommand_setFieldReady (opcodeOf_eq ho)) reservedAboveTwo_eq_zero_iff
      (fun h => congrArg₂ _ getLsbD_zero_eq_decide (getLsbD_one_eq_decide h)) s
  case unused =>
    rw [serve_commandWrite, execCommand, decodeCommand_unused (opcodeOf_toNat.symm ▸ ho)]
    rfl

end Dispatch

end Sys2Proof.Machine
end

section
/-! PROOFS. The fractional registers of the register window (10_state.md R45, 30_encoding.md R99). -/

namespace Sys2Proof.Machine

/-- A fractional view is the count clamped to 32 signed bits. -/
theorem fixedView_toInt (n : Int) : (fixedView n).toInt = min (max n (-2 ^ 31)) (2 ^ 31 - 1) := by
  obtain ⟨hlo, hhi⟩ := clamp_mem (v := n) (lo := -2 ^ 31) (hi := 2 ^ 31 - 1) (by decide)
  rw [fixedView, BitVec.toInt_ofInt_eq_self (by decide) hlo (by omega), clamp]

/-- The count of the line period is the period rounded to a count (00_scope.md R10). -/
theorem floor_period (g : Geometry) : ⌊g.period * 65536⌋ = g.periodCount :=
  quantize_eq g.period9 9 (by rw [period9_eq]; push_cast; ring)

theorem linePeriodWord_unknown {s : State} (h : s.format = .unknown) : s.linePeriodWord = fixedView 0 := by
  simp only [State.linePeriodWord, h]
  rfl

/-- With a format LINE_PERIOD shows its period. -/
theorem linePeriodWord_selected {s : State} (h : s.format ≠ .unknown) :
    s.linePeriodWord = fixedView s.geom.periodCount := by
  unfold State.linePeriodWord State.geom
  split
  case h_1 hf => exact absurd hf h
  all_goals rename_i hf; rw [hf]

theorem linePeriodWord_toInt (s : State) :
    s.linePeriodWord.toInt
      = min (max (if s.format = .unknown then 0 else ⌊s.geom.period * 65536⌋) (-2 ^ 31)) (2 ^ 31 - 1) := by
  by_cases h : s.format = .unknown
  · rw [if_pos h, linePeriodWord_unknown h, fixedView_toInt]
  · rw [if_neg h, linePeriodWord_selected h, fixedView_toInt, floor_period]

/-- Settles O14, register by register. -/
theorem fractionalRegistersReadSaturated : Obligations.FractionalRegistersReadSaturated := by
  intro s
  simp only [List.forall_mem_cons, List.not_mem_nil, false_imp_iff, implies_true, and_true]
  exact ⟨fixedView_toInt _, fixedView_toInt _, fixedView_toInt _, fixedView_toInt _, fixedView_toInt _,
    fixedView_toInt _, fixedView_toInt _, fixedView_toInt _, fixedView_toInt _, fixedView_toInt _, fixedView_toInt _,
    fixedView_toInt _, linePeriodWord_toInt s⟩

end Sys2Proof.Machine
end

section
/-! PROOFS. The sample step (40_sample_step.md R122): its ten steps in order. -/

namespace Sys2Proof.Machine

/-- A position counts on modulo 2^64 (40_sample_step.md R122). -/
theorem position_succ (p : Position) : p + 1 = BitVec.ofNat 64 ((p.toNat + 1) % 2 ^ 64) := by
  apply BitVec.eq_of_toNat_eq
  simp [BitVec.toNat_add]

theorem filterAndAccumulate_of_stride {s : State} (h : s.samplePos.toNat % 16 = 0) (x : Sample) :
    filterAndAccumulate x s = levelAccumulate (lpFilter x s).filter.lpY (lpFilter x s) := if_pos h

theorem filterAndAccumulate_off_stride {s : State} (h : s.samplePos.toNat % 16 ≠ 0) (x : Sample) :
    filterAndAccumulate x s = lpFilter x s := if_neg h

/-- Settles O51: the steps are those of `sampleStep_eq`; the frames of the units keep `returned`. -/
theorem sampleStepRunsTheUnitsInOrder : Obligations.SampleStepRunsTheUnitsInOrder := by
  intro s x
  let s2 := filterAndAccumulate x s
  let e := edgeClassify s2.filter.lpY s2
  let v := vsyncEdge e.fall s.samplePos s2
  let h := hsyncEdge e.fall e.rise s.samplePos v.2
  let s6 := correctOnEvent h.1 h.2
  let s8 := pllAdvance (lineAppend x s6)
  have hv : v.2.returned = s.returned := by simp [v, s2]
  have hh : h.2.returned = s.returned := by simp [h, hv]
  refine ⟨lpFilter x s, s2, v.2, h.2, s6, lineAppend x s6, s8, if v.1 then startNewField s8 else s8, e, v.1, h.1,
    rfl, fun hp => ?stride, fun hp => filterAndAccumulate_off_stride hp x, rfl, rfl, hv, rfl, hh, fun hev => ?event,
    fun hev => if_neg (by simp [hev]), rfl, rfl, fun hdone => ?completion, fun hdone => if_neg (by simp [hdone]), ?_⟩
  case stride => exact congrArg Host.Outcome.next (filterAndAccumulate_of_stride hp x).symm
  case event => exact congrArg Host.Outcome.next (if_pos hev).symm
  case completion => exact congrArg Host.Outcome.next (if_pos hdone).symm
  rw [← position_succ]
  exact congrArg Host.Outcome.next (sampleStep_eq x s)

end Sys2Proof.Machine
end

section
/-! PROOFS. PROCESS_BUFFER (40_sample_step.md R120, R123 to R127): the calls it turns away, the samples it runs, and
the chunk-split law. -/

namespace Sys2Proof.Machine

/-! ## The checks, in their order (40_sample_step.md R120, 60_exceptions.md R288) -/

section Checks

variable {s : State} {count : Nat}

theorem processBuffer_of_large (hcount : 65536 < count) : processBuffer count s = setResult .badOperand s :=
  if_pos hcount

theorem processBuffer_of_unknown (hcount : count ≤ 65536) (hformat : s.format = .unknown) :
    processBuffer count s = setResult .noFormat s := by
  rw [processBuffer, if_neg (Nat.not_lt.2 hcount), if_pos hformat]

theorem processBuffer_of_short (hformat : s.format ≠ .unknown) (hcount : count < 100) :
    processBuffer count s = setResult .short s := by
  rw [processBuffer, if_neg (Nat.not_lt.2 (hcount.le.trans (by decide))), if_neg hformat, if_pos hcount]

theorem processBuffer_of_enough (hformat : s.format ≠ .unknown) (hlo : 100 ≤ count) (hhi : count ≤ 65536) :
    processBuffer count s = processSamples (s.chunkSamples count) s := by
  rw [processBuffer, if_neg (Nat.not_lt.2 hhi), if_neg hformat, if_neg (Nat.not_lt.2 hlo)]

theorem processSamples_of_weak {xs : List Sample} (h : maxSample xs - minSample xs < 100) :
    processSamples xs s = setResult .weak (countSyncError s) := if_pos h

theorem processSamples_of_range {xs : List Sample} (h : 100 ≤ maxSample xs - minSample xs) :
    processSamples xs s = setResult .ok (sampleSteps xs (bootstrapOnce xs s)) := if_neg (Int.not_lt.2 h)

/-- Only a chunk that is processed is answered OK. -/
theorem processBuffer_of_ok (h : (processBuffer count s).host.result = .ok) :
    processBuffer count s =
      setResult .ok (sampleSteps (s.chunkSamples count) (bootstrapOnce (s.chunkSamples count) s)) := by
  have hhi : count ≤ 65536 := by
    by_contra hlarge
    rw [processBuffer_of_large (Nat.not_le.1 hlarge)] at h
    cases h
  have hformat : s.format ≠ .unknown := by
    intro hunknown
    rw [processBuffer_of_unknown hhi hunknown] at h
    cases h
  have hlo : 100 ≤ count := by
    by_contra hshort
    rw [processBuffer_of_short hformat (Nat.not_le.1 hshort)] at h
    cases h
  rw [processBuffer_of_enough hformat hlo hhi] at h ⊢
  refine processSamples_of_range ?_
  by_contra hweak
  rw [processSamples_of_weak (Int.not_le.1 hweak)] at h
  cases h

end Checks

/-! ## The extremes of the chunk -/

section Extremes

variable {s : State} {count : Nat}

theorem chunkSamples_ne_nil (h : 0 < count) : s.chunkSamples count ≠ [] :=
  List.ne_nil_of_mem (mem_chunkSamples.2 ⟨0, h, rfl⟩)

theorem minSample_chunkSamples {mn : Int} (hmem : ∃ i < count, (s.chunkSample i).toInt = mn)
    (hle : ∀ i < count, mn ≤ (s.chunkSample i).toInt) : minSample (s.chunkSamples count) = mn := by
  obtain ⟨i, hi, rfl⟩ := hmem
  obtain ⟨⟨x, hx, hmin⟩, hlow⟩ := minSample_spec (chunkSamples_ne_nil (s := s) (Nat.zero_lt_of_lt hi))
  obtain ⟨j, hj, rfl⟩ := mem_chunkSamples.1 hx
  exact le_antisymm (hlow _ (mem_chunkSamples.2 ⟨i, hi, rfl⟩)) (hmin ▸ hle j hj)

theorem maxSample_chunkSamples {mx : Int} (hmem : ∃ i < count, (s.chunkSample i).toInt = mx)
    (hle : ∀ i < count, (s.chunkSample i).toInt ≤ mx) : maxSample (s.chunkSamples count) = mx := by
  obtain ⟨i, hi, rfl⟩ := hmem
  obtain ⟨⟨x, hx, hmax⟩, hhigh⟩ := maxSample_spec (chunkSamples_ne_nil (s := s) (Nat.zero_lt_of_lt hi))
  obtain ⟨j, hj, rfl⟩ := mem_chunkSamples.1 hx
  exact le_antisymm (hmax ▸ hle j hj) (hhigh _ (mem_chunkSamples.2 ⟨i, hi, rfl⟩))

/-- The range of a chunk is the distance of two of its samples. -/
theorem range_lt_of_pairwise (hcount : 0 < count) {d : Int}
    (h : ∀ i < count, ∀ j < count, (s.chunkSample i).toInt - (s.chunkSample j).toInt < d) :
    maxSample (s.chunkSamples count) - minSample (s.chunkSamples count) < d := by
  obtain ⟨⟨x, hx, hmax⟩, -⟩ := maxSample_spec (chunkSamples_ne_nil (s := s) hcount)
  obtain ⟨⟨y, hy, hmin⟩, -⟩ := minSample_spec (chunkSamples_ne_nil (s := s) hcount)
  obtain ⟨i, hi, rfl⟩ := mem_chunkSamples.1 hx
  obtain ⟨j, hj, rfl⟩ := mem_chunkSamples.1 hy
  rw [hmax, hmin]
  exact h i hi j hj

end Extremes

theorem countSyncError_eq (s : State) : countSyncError s = { s with
    diag := { s.diag with syncErrors := BitVec.ofNat 32 (sat32 (s.diag.syncErrors.toNat + 1)) } } := by
  rw [countSyncError, satSucc_eq]

/-- Settles O17, check by check. -/
theorem processBufferRefusesInCheckOrder : Obligations.ProcessBufferRefusesInCheckOrder := by
  intro s count
  refine ⟨fun hcount => ?_, fun hcount hformat => ?_, fun hformat hcount => ?_, fun hformat hlo hhi hweak => ?_⟩ <;>
    refine congrArg Host.Outcome.next ?_
  · exact processBuffer_of_large hcount
  · exact processBuffer_of_unknown hcount hformat
  · exact processBuffer_of_short hformat hcount
  · rw [processBuffer_of_enough hformat hlo hhi, processSamples_of_weak (range_lt_of_pairwise (by omega) hweak),
      countSyncError_eq]
    rfl

/-- The run over a chunk's samples is the run over their indices. -/
theorem sampleSteps_chunkSamples (s t : State) (count : Nat) :
    sampleSteps (s.chunkSamples count) t =
      (List.range count).foldl (fun t i => sampleStep (s.chunkSample i) t) t := List.foldl_map

/-- Settles O18: the two given samples are the extremes that the bootstrap takes. -/
theorem processBufferRunsEverySample : Obligations.ProcessBufferRunsEverySample := by
  intro s count mn mx hformat hlo hhi hmn hmnLe hmx hmxLe hrange
  have hmin := minSample_chunkSamples hmn hmnLe
  have hmax := maxSample_chunkSamples hmx hmxLe
  refine congrArg Host.Outcome.next ?_
  rw [processBuffer_of_enough hformat hlo hhi, processSamples_of_range (by rw [hmin, hmax]; exact hrange),
    bootstrapOnce, hmin, hmax, sampleSteps_chunkSamples]

/-! ## Levels stay valid (42_levels.md R150, R151)

After the first processed chunk no later one bootstraps. -/

section Valid

variable {s : State}

theorem bootstrapOnce_of_valid (h : s.levels.valid = true) (xs : List Sample) : bootstrapOnce xs s = s := if_pos h

theorem bootstrapOnce_valid (xs : List Sample) (s : State) : (bootstrapOnce xs s).levels.valid = true := by
  unfold bootstrapOnce
  split
  · assumption
  · rfl

theorem levelCommit_valid (h : s.levels.valid = true) : (levelCommit s).levels.valid = true := by
  simp only [levelCommit]
  split
  · exact blendLevels_valid _ _
  · exact h

theorem startNewField_valid (h : s.levels.valid = true) : (startNewField s).levels.valid = true := by
  refine levelCommit_valid ?_
  split <;> simpa using h

theorem finishSample_valid (h : s.levels.valid = true) (done above : Bool) (p : Position) :
    (finishSample done above p s).levels.valid = true := by
  cases done with
  | true => exact startNewField_valid h
  | false => exact h

theorem correctOnEvent_levels (valid : Bool) (s : State) : (correctOnEvent valid s).levels = s.levels := by
  cases valid <;> simp [correctOnEvent]

theorem sampleStep_valid (h : s.levels.valid = true) (x : Sample) : (sampleStep x s).levels.valid = true := by
  rw [sampleStep_eq]
  exact finishSample_valid (by simpa [correctOnEvent_levels] using h) _ _ _

theorem sampleSteps_valid (h : s.levels.valid = true) (xs : List Sample) : (sampleSteps xs s).levels.valid = true := by
  induction xs generalizing s with
  | nil => exact h
  | cons x xs ih => exact ih (sampleStep_valid h x)

end Valid

/-! ## The sample step does not see the host's side

What a command finds in the chunk RAM and in the host interface, SAMPLE_STEP neither reads nor writes: every unit
commutes (`Function.Commute`) with replacing the two. A record update does so by `rfl`; the rest is built up from such
updates by composition and by choices made on the other fields. -/

/-- The same state with another chunk RAM and host interface. -/
def State.withHostSide (ch : Memory) (host : HostInterface) (s : State) : State := { s with chunk := ch, host := host }

/-- Choosing between two operations by what a replacement leaves alone. -/
theorem commute_ite {c : State → Prop} [DecidablePred c] {f f' g : State → State} (hc : ∀ s, c (g s) = c s)
    (hf : Function.Commute f g) (hf' : Function.Commute f' g) :
    Function.Commute (fun s => if c s then f s else f' s) g := by
  intro s
  simp only [hc s]
  split
  · exact hf s
  · exact hf' s

section HostSide

variable (ch : Memory) (host : HostInterface)

theorem filterAndAccumulate_withHostSide (x : Sample) :
    Function.Commute (filterAndAccumulate x) (.withHostSide ch host) :=
  commute_ite (c := fun s => s.samplePos.toNat % Config.accStride = 0) (fun _ => rfl)
    (f := fun s => levelAccumulate (lpFilter x s).filter.lpY (lpFilter x s)) (fun _ => rfl)
    (f' := lpFilter x) fun _ => rfl

theorem vsyncEdge_withHostSide (fall : Bool) (p : Position) (s : State) :
    vsyncEdge fall p (s.withHostSide ch host)
      = ((vsyncEdge fall p s).1, (vsyncEdge fall p s).2.withHostSide ch host) := by
  cases fall <;> rfl

theorem hsyncEdge_withHostSide (fall rise : Bool) (p : Position) (s : State) :
    hsyncEdge fall rise p (s.withHostSide ch host)
      = ((hsyncEdge fall rise p s).1, (hsyncEdge fall rise p s).2.withHostSide ch host) := by
  have hpulse : (s.withHostSide ch host).hsync = s.hsync := rfl
  simp only [hsyncEdge, hpulse]
  split
  · rfl
  · split <;> rfl

theorem correctOnEvent_withHostSide (valid : Bool) :
    Function.Commute (correctOnEvent valid) (.withHostSide ch host) := by
  have hcorrect :
      Function.Commute (fun s => if s.isSpuriousEvent then s else pllCorrect s) (State.withHostSide ch host) :=
    commute_ite (c := fun s => s.isSpuriousEvent = true) (fun _ => rfl) .id_left fun _ => rfl
  cases valid with
  | true => exact hcorrect.comp_left (f' := fun s => lockUpdate (phaseError s)) fun _ => rfl
  | false => exact .id_left

theorem lineAppend_withHostSide (x : Sample) : Function.Commute (lineAppend x) (.withHostSide ch host) :=
  commute_ite (c := fun s => s.lineBuf.length < Config.lineBufCap) (fun _ => rfl)
    (f := fun s => { s with lineBuf := s.lineBuf ++ [x] }) (fun _ => rfl) .id_left

theorem writeLineRow_withHostSide : Function.Commute writeLineRow (.withHostSide ch host) := by
  have hfield (b : FieldId) (m : Memory) (s : State) :
      (s.withHostSide ch host).withFieldMem b m = (s.withFieldMem b m).withHostSide ch host := by cases b <;> rfl
  exact fun s => hfield _ _ s

theorem lineDecode_withHostSide : Function.Commute lineDecode (.withHostSide ch host) :=
  commute_ite (c := fun s => s.geom.isActiveLine s.lines.currentLine.toNat = true) (fun _ => rfl)
    (f := fun s => { writeLineRow s with
      lines := { s.lines with linesDecoded := satSucc s.lines.linesDecoded }, lineBuf := [] })
    (fun s => by simp only [writeLineRow_withHostSide ch host s]; rfl)
    (f' := fun s => { s with lineBuf := [] }) fun _ => rfl

theorem lineBoundary_withHostSide : Function.Commute lineBoundary (.withHostSide ch host) :=
  Function.Commute.comp_left (f := fun t : State => { t with
      lines := { t.lines with currentLine := satSucc t.lines.currentLine }
      pll := { t.pll with phase := (9 * t.pll.phase - t.effectivePeriod9) / 9 } })
    (fun _ => rfl) (lineDecode_withHostSide ch host)

theorem pllAdvance_withHostSide : Function.Commute pllAdvance (.withHostSide ch host) := by
  have hboundary : Function.Commute (fun t => if t.effectivePeriod9 ≤ 9 * t.pll.phase then lineBoundary t else t)
      (State.withHostSide ch host) :=
    commute_ite (c := fun t => t.effectivePeriod9 ≤ 9 * t.pll.phase) (fun _ => rfl)
      (lineBoundary_withHostSide ch host) .id_left
  exact hboundary.comp_left (f' := fun s => { s with pll := { s.pll with phase := s.pll.phase + Config.one } })
    fun _ => rfl

theorem deinterlaceCore_withHostSide : Function.Commute deinterlaceCore (.withHostSide ch host) :=
  commute_ite (c := fun s => (s.asm.ready0 && s.asm.ready1) = true) (fun _ => rfl)
    (f := fun s => s.withFrameRows s.weavePixel) (fun _ => rfl)
    (commute_ite (c := fun s => s.asm.ready0 = true) (fun _ => rfl)
      (f := fun s => s.withFrameRows (s.bobZeroPixel s.geom.fieldHeight)) (fun _ => rfl)
      (commute_ite (c := fun s => s.asm.ready1 = true) (fun _ => rfl)
        (f := fun s => s.withFrameRows s.bobOnePixel) (fun _ => rfl) .id_left))

theorem countFrame_withHostSide : Function.Commute countFrame (.withHostSide ch host) :=
  commute_ite (c := fun s => (s.asm.ready0 && s.asm.ready1) = true) (fun _ => rfl)
    (f := fun s => { s with diag := { s.diag with framesDecoded := satSucc s.diag.framesDecoded } }) (fun _ => rfl)
    .id_left

theorem assembleField_withHostSide : Function.Commute assembleField (.withHostSide ch host) := by
  have hmark (b : FieldId) : Function.Commute (markReady b) (.withHostSide ch host) := by cases b <;> exact fun _ => rfl
  have hcopy : Function.Commute displayCopy (.withHostSide ch host) := fun _ => rfl
  exact (countFrame_withHostSide ch host).comp_left (hcopy.comp_left ((deinterlaceCore_withHostSide ch host).comp_left
    (f' := fun s => markReady s.lines.currentField s) fun s => hmark s.lines.currentField s))

theorem startNewField_withHostSide : Function.Commute startNewField (.withHostSide ch host) := by
  have hassemble :
      Function.Commute (fun s => if s.fieldAccepted then assembleField s else s) (State.withHostSide ch host) :=
    commute_ite (c := fun s => s.fieldAccepted = true) (fun _ => rfl) (assembleField_withHostSide ch host) .id_left
  exact Function.Commute.comp_left (f := fun t => { levelCommit t with
    lines := { currentLine := 0, linesDecoded := 0, currentField := (levelCommit t).lines.currentField.other } })
    (fun _ => rfl) hassemble

theorem finishSample_withHostSide (done above : Bool) (p : Position) :
    Function.Commute (finishSample done above p) (.withHostSide ch host) := by
  have hfinish : Function.Commute (fun t : State => { t with
      filter := { t.filter with prevAbove := above }, samplePos := p + 1 }) (State.withHostSide ch host) := fun _ => rfl
  cases done with
  | true => exact hfinish.comp_left (startNewField_withHostSide ch host)
  | false => exact hfinish

theorem sampleStep_withHostSide (x : Sample) : Function.Commute (sampleStep x) (.withHostSide ch host) := by
  intro s
  have hpos : (s.withHostSide ch host).samplePos = s.samplePos := rfl
  have hy (t : State) : (t.withHostSide ch host).filter = t.filter := rfl
  have hedges (y : Int) (t : State) : edgeClassify y (t.withHostSide ch host) = edgeClassify y t := rfl
  simp only [sampleStep_eq, filterAndAccumulate_withHostSide ch host x s, hpos, hy, hedges, vsyncEdge_withHostSide,
    hsyncEdge_withHostSide]
  exact ((finishSample_withHostSide ch host _ _ _).comp_left ((pllAdvance_withHostSide ch host).comp_left
    ((lineAppend_withHostSide ch host x).comp_left (correctOnEvent_withHostSide ch host _)))) _

theorem sampleSteps_withHostSide (xs : List Sample) : Function.Commute (sampleSteps xs) (.withHostSide ch host) := by
  induction xs with
  | nil => exact .id_left
  | cons x xs ih => exact ih.comp_left (sampleStep_withHostSide ch host x)

end HostSide

/-! ## The chunk-split law (40_sample_step.md R126, R127) -/

/-- A run over joined samples is the run over the first, then the one over the second. -/
theorem sampleSteps_append (xs ys : List Sample) (s : State) :
    sampleSteps (xs ++ ys) s = sampleSteps ys (sampleSteps xs s) := List.foldl_append

/-- Settles O19: the second chunk finds valid levels, so it does not bootstrap, and its run goes on from the first
one's end whatever the chunk RAM and `result` hold. -/
theorem splitChunksActAsOneStream : Obligations.SplitChunksActAsOneStream := by
  intro s t u count more ch hfirst ht hsecond hu
  cases hfirst
  cases hsecond
  let xs := s.chunkSamples count.toNat
  let ran := sampleSteps xs (bootstrapOnce xs s)
  let ok : HostInterface := { s.host with result := .ok }
  have hran : processBuffer count.toNat s = setResult .ok ran := processBuffer_of_ok ht
  have hstate : { processBuffer count.toNat s with chunk := ch } = ran.withHostSide ch ok := by
    rw [hran]; simp [setResult, State.withHostSide, ran, ok]
  have hvalid : (ran.withHostSide ch ok).levels.valid = true := sampleSteps_valid (bootstrapOnce_valid xs s) xs
  rw [hstate] at hu ⊢
  generalize hys : State.chunkSamples (ran.withHostSide ch ok) more.toNat = ys
  calc processBuffer more.toNat (ran.withHostSide ch ok)
      = setResult .ok (sampleSteps ys (ran.withHostSide ch ok)) := by
        rw [processBuffer_of_ok hu, bootstrapOnce_of_valid hvalid, hys]
    _ = (sampleSteps ys ran).withHostSide ch ok := by rw [sampleSteps_withHostSide]; rfl
    _ = (sampleSteps (xs ++ ys) (bootstrapOnce xs s)).withHostSide ch ok := by rw [sampleSteps_append]

end Sys2Proof.Machine
end

section
/-! PROOFS. The lowpass filter and the edge tracker (41_filter_edge.md R140 to R142). -/

namespace Sys2Proof.Machine

/-! ## The filter -/

/-- The integer division of the filter is the exact value `ALPHA_LP * x + (1 - ALPHA_LP) * lp_y` rounded to a count
(41_filter_edge.md R140). -/
theorem lowpassCount_eq_quantize (x : Sample) (y : Int) :
    lowpassCount x y = quantize (2 / 25 * (x.toInt : ℚ) + (1 - 2 / 25) * valueOf y) := by
  have hvalue : 2 / 25 * (x.toInt : ℚ) + (1 - 2 / 25) * valueOf y
      = ((2 * sampleCount x + 23 * y : Int) : ℚ) / (65536 * (25 : Nat)) := by
    simp only [sampleCount, Config.one, valueOf]
    push_cast
    ring
  exact (quantize_eq _ _ hvalue).symm

/-- A lower bound of the sample's count and of the filter's count bounds the next one: the weights 2 and 23 add up to the
divisor, and the bound is whole (41_filter_edge.md R142). -/
theorem le_lowpassCount {x : Sample} {y lo : Int} (hx : lo ≤ sampleCount x) (hy : lo ≤ y) :
    lo ≤ lowpassCount x y := by
  rw [lowpassCount, Int.le_ediv_iff_mul_le (by decide)]
  calc lo * 25 = 2 * lo + 23 * lo := by ring
    _ ≤ 2 * sampleCount x + 23 * y := by gcongr

/-- An upper bound of the sample's count and of the filter's count bounds the next one (41_filter_edge.md R142). -/
theorem lowpassCount_le {x : Sample} {y hi : Int} (hx : sampleCount x ≤ hi) (hy : y ≤ hi) :
    lowpassCount x y ≤ hi := by
  refine Int.ediv_le_of_le_mul (by decide) ?_
  calc 2 * sampleCount x + 23 * y ≤ 2 * hi + 23 * hi := by gcongr
    _ = hi * 25 := by ring

/-- Settles O25: the stored count is the rounded exact value. -/
theorem lowpassIsTheExactFilterFloored : Obligations.LowpassIsTheExactFilterFloored := by
  intro s x
  rw [← lowpassCount_eq_quantize]
  rfl

/-- Settles O26: both bounds are whole samples' counts, so flooring does not cross the lower one. -/
theorem lowpassStaysWithinItsInputs : Obligations.LowpassStaysWithinItsInputs := by
  intro s t x a b hax hxb hay hyb ht
  cases ht
  have hlo : a * 65536 ≤ sampleCount x := Int.mul_le_mul_of_nonneg_right hax (by decide)
  have hhi : sampleCount x ≤ b * 65536 := Int.mul_le_mul_of_nonneg_right hxb (by decide)
  exact ⟨le_lowpassCount hlo hay, lowpassCount_le hhi hyb⟩

/-! ## The edge tracker -/

section Edges

variable (y : Int) (s : State)

theorem edgeClassify_above : (edgeClassify y s).above = true ↔ s.levels.threshold < y := decide_eq_true_iff

theorem edgeClassify_fall :
    (edgeClassify y s).fall = true ↔ s.filter.prevAbove = true ∧ y ≤ s.levels.threshold := by
  simp [edgeClassify]

theorem edgeClassify_rise :
    (edgeClassify y s).rise = true ↔ s.filter.prevAbove = false ∧ s.levels.threshold < y := by
  simp [edgeClassify]

end Edges

/-- Settles O27: values compare as their counts do, and the three results are read off `edgeClassify`. -/
theorem edgeIsAStrictThresholdCrossing : Obligations.EdgeIsAStrictThresholdCrossing := by
  intro s y
  refine ⟨edgeClassify y s, rfl, ?_, ?_, ?_⟩
  · rw [valueOf_lt, edgeClassify_above]
  · rw [valueOf_le, edgeClassify_fall]
  · rw [valueOf_lt, edgeClassify_rise]

end Sys2Proof.Machine
end

section
/-! PROOFS. The adaptive level estimator (42_levels.md R150 to R155). -/

namespace Sys2Proof.Machine

/-! ## Levels as rounded fractions of the range (R153, R154) -/

/-- A whole count added to a value adds to its rounded count. -/
theorem quantize_valueOf_add (n : Int) (v : ℚ) : quantize (valueOf n + v) = n + quantize v := by
  have hcounts : (valueOf n + v) * 65536 = (n : ℚ) + v * 65536 := by
    unfold valueOf
    ring
  rw [quantize, hcounts, Int.floor_intCast_add, quantize]

/-- The fraction `k / d` of a count, rounded, is an integer quotient. -/
theorem quantize_fraction_valueOf (k : Int) (d : Nat) (c : Int) :
    quantize ((k : ℚ) / d * valueOf c) = k * c / d :=
  quantize_eq (k * c) d (by unfold valueOf; push_cast; ring)

/-- The value of a whole number's count. -/
theorem valueOf_mul_one (n : Int) : valueOf (n * Config.one) = n := by
  simp [valueOf, Config.one]

theorem valueOf_sub (a b : Int) : valueOf (a - b) = valueOf a - valueOf b := by
  unfold valueOf
  push_cast
  ring

/-- The range of LEVEL_DERIVE, `MIN_RANGE` at least (42_levels.md R153), in counts. -/
def clampedRange (l : Levels) : Int := max (l.white - l.syncTip) (Config.minRange * Config.one)

theorem deriveLevels_eq_clampedRange (l : Levels) : deriveLevels l = { l with
    threshold := l.syncTip + clampedRange l / 4
    blanking := l.syncTip + 7 * clampedRange l / 25
    black := l.syncTip + 8 * clampedRange l / 25 } := rfl

theorem valueOf_clampedRange (l : Levels) :
    valueOf (clampedRange l) = max (valueOf l.white - valueOf l.syncTip) 100 := by
  have hmono : Monotone valueOf := fun _ _ h => valueOf_le.2 h
  rw [clampedRange, hmono.map_max, valueOf_sub, valueOf_mul_one]
  rfl

/-- LEVEL_DERIVE in exact rationals (42_levels.md R153). -/
theorem deriveLevels_eq_quantize (l : Levels) :
    let range := max (valueOf l.white - valueOf l.syncTip) 100
    deriveLevels l = { l with
      threshold := quantize (valueOf l.syncTip + 1 / 4 * range)
      blanking := quantize (valueOf l.syncTip + 7 / 25 * range)
      black := quantize (valueOf l.syncTip + 8 / 25 * range) } := by
  have hthreshold := quantize_fraction_valueOf 1 4 (clampedRange l)
  have hblanking := quantize_fraction_valueOf 7 25 (clampedRange l)
  have hblack := quantize_fraction_valueOf 8 25 (clampedRange l)
  push_cast [one_mul] at hthreshold hblanking hblack
  simp only [← valueOf_clampedRange, quantize_valueOf_add, hthreshold, hblanking, hblack]
  exact deriveLevels_eq_clampedRange l

/-- A whole number is below a difference of values exactly when its count is below the counts' difference. -/
theorem lt_valueOf_sub_valueOf (n a b : Int) : (n : ℚ) < valueOf a - valueOf b ↔ n * Config.one < a - b := by
  rw [← valueOf_mul_one, ← valueOf_sub, valueOf_lt]

/-- Settles O29: the record's integer divisions are the exact fractions, rounded. -/
theorem levelsAreFractionsOfTheRange : Obligations.LevelsAreFractionsOfTheRange := by
  intro s
  simp only [← deriveLevels_eq_quantize]
  rfl

section Order

variable (l : Levels)

theorem syncTip_lt_deriveLevels_threshold : l.syncTip < (deriveLevels l).threshold := by
  simp only [deriveLevels_eq_clampedRange, clampedRange, Config.minRange, Config.one]
  omega

/-- A quarter of a range of 100 or more is below that range; below 100 the clamp puts the threshold 25 above
`sync_tip` (42_levels.md R154). -/
theorem deriveLevels_threshold_lt_white :
    (deriveLevels l).threshold < l.white ↔ 25 * Config.one < l.white - l.syncTip := by
  simp only [deriveLevels_eq_clampedRange, clampedRange, Config.minRange, Config.one]
  omega

theorem deriveLevels_black_lt_white : (deriveLevels l).black < l.white ↔ 32 * Config.one < l.white - l.syncTip := by
  simp only [deriveLevels_eq_clampedRange, clampedRange, Config.minRange, Config.one]
  omega

end Order

/-- Settles O30: the three comparisons, on counts. -/
theorem levelOrderNeedsEnoughRange : Obligations.LevelOrderNeedsEnoughRange := by
  intro s t ht
  cases ht
  exact ⟨syncTip_lt_deriveLevels_threshold s.levels,
    (deriveLevels_threshold_lt_white s.levels).trans (lt_valueOf_sub_valueOf 25 _ _).symm,
    (deriveLevels_black_lt_white s.levels).trans (lt_valueOf_sub_valueOf 32 _ _).symm⟩

/-! ## Bootstrap and accumulation (R150, R152) -/

/-- Settles O31: the raw extremes are whole numbers, so R153 reads them back as they are. -/
theorem bootstrapTakesTheRawExtremes : Obligations.BootstrapTakesTheRawExtremes := by
  intro s mn mx
  have hderive := deriveLevels_eq_quantize
    { s.levels with syncTip := mn.toInt * Config.one, white := mx.toInt * Config.one }
  simp only [valueOf_mul_one] at hderive
  change Host.Outcome.next (levelBootstrap mn.toInt mx.toInt s) = _
  rw [levelBootstrap, hderive]

theorem levelAccumulate_acc_first {s : State} (h : s.acc.valid = false) (y : Int) :
    (levelAccumulate y s).acc = ⟨true, y, y⟩ := by
  simp [levelAccumulate, h]

theorem levelAccumulate_acc_next {s : State} (h : s.acc.valid = true) (y : Int) :
    (levelAccumulate y s).acc = ⟨true, min s.acc.min y, max s.acc.max y⟩ := by
  simp [levelAccumulate, h]

/-- Settles O28, by whether a sample was accumulated before. -/
theorem accumulateTracksTheExtremes : Obligations.AccumulateTracksTheExtremes := by
  intro s y
  refine ⟨(levelAccumulate y s).acc, rfl, ?_⟩
  cases hv : s.acc.valid with
  | false =>
    rw [levelAccumulate_acc_first hv]
    exact ⟨rfl, fun _ => ⟨rfl, rfl⟩, nofun⟩
  | true =>
    rw [levelAccumulate_acc_next hv]
    exact ⟨rfl, nofun, fun _ => ⟨min_le_left _ _, min_le_right _ _, min_choice _ _,
      le_max_left _ _, le_max_right _ _, max_choice _ _⟩⟩

/-! ## Commit (R151) -/

/-- A commit with nothing accumulated only empties the accumulators. -/
theorem levelCommit_of_acc_empty {s : State} (h : s.acc.valid = false) :
    levelCommit s = { s with acc := { s.acc with valid := false } } := by
  simp [levelCommit, h]

/-- A commit with accumulated samples is LEVEL_DERIVE on the blended levels. -/
theorem levelCommit_of_acc_valid {s : State} (h : s.acc.valid = true) :
    levelCommit s
      = levelDerive { s with levels := blendLevels s.acc s.levels, acc := { s.acc with valid := false } } := by
  simp [levelCommit, levelDerive, h]

/-- The moving average of counts is the exact one, rounded (42_levels.md R151). -/
theorem emaCount_eq_quantize (new old : Int) :
    emaCount new old = quantize (1 / 10 * valueOf new + (1 - 1 / 10) * valueOf old) :=
  (quantize_eq (new + 9 * old) 10 (by unfold valueOf; push_cast; ring)).symm

theorem blendLevels_first (a : Accumulators) {l : Levels} (h : l.valid = false) :
    blendLevels a l = { l with valid := true, syncTip := a.min, white := a.max } := by
  simp [blendLevels, h]

theorem blendLevels_next (a : Accumulators) {l : Levels} (h : l.valid = true) :
    blendLevels a l = { l with
      syncTip := quantize (1 / 10 * valueOf a.min + (1 - 1 / 10) * valueOf l.syncTip)
      white := quantize (1 / 10 * valueOf a.max + (1 - 1 / 10) * valueOf l.white) } := by
  rw [blendLevels, if_pos h, emaCount_eq_quantize, emaCount_eq_quantize]

/-- Settles O32, by the two flags: which levels LEVEL_DERIVE runs on is `blendLevels`. -/
theorem commitBlendsTheFieldExtremes : Obligations.CommitBlendsTheFieldExtremes := by
  intro s
  refine ⟨fun hacc => ?_, fun hacc hlevels => ⟨levelCommit s, rfl, ?_⟩, fun hacc hlevels => ⟨levelCommit s, rfl, ?_⟩⟩
  · exact congrArg Host.Outcome.next (levelCommit_of_acc_empty hacc)
  · rw [levelCommit_of_acc_valid hacc, blendLevels_first s.acc hlevels]
    rfl
  · rw [levelCommit_of_acc_valid hacc, blendLevels_next s.acc hlevels]
    rfl

/-! ## Convergence (R155) -/

section Distance

variable {d : Nat → Int}

/-- A distance that loses a tenth at each step, and is not overshot, shrinks as `0.9^k`. -/
theorem distance_shrinks (h0 : 0 ≤ d 0) (hstep : ∀ k, 0 ≤ d k → 0 ≤ d (k + 1) ∧ 10 * d (k + 1) ≤ 9 * d k) (k : Nat) :
    0 ≤ d k ∧ d k * 10 ^ k ≤ 9 ^ k * d 0 := by
  induction k with
  | zero => simpa using h0
  | succ k ih =>
    obtain ⟨hnonneg, hbound⟩ := ih
    obtain ⟨hnext, hloss⟩ := hstep k hnonneg
    refine ⟨hnext, ?_⟩
    calc d (k + 1) * 10 ^ (k + 1) = 10 * d (k + 1) * 10 ^ k := by ring
      _ ≤ 9 * d k * 10 ^ k := by gcongr
      _ = 9 * (d k * 10 ^ k) := by ring
      _ ≤ 9 * (9 ^ k * d 0) := by gcongr
      _ = 9 ^ (k + 1) * d 0 := by ring

/-- Losing a tenth is losing one at least, so such a distance of whole counts reaches 0 and stays there. -/
theorem distance_vanishes (h0 : 0 ≤ d 0) (hstep : ∀ k, 0 ≤ d k → 0 ≤ d (k + 1) ∧ 10 * d (k + 1) ≤ 9 * d k) :
    ∃ n, ∀ k ≥ n, d k = 0 := by
  have hnonneg (k : Nat) : 0 ≤ d k := (distance_shrinks h0 hstep k).1
  have hdecrease (k : Nat) : d k ≤ max 0 (d 0 - k) := by
    induction k with
    | zero => simp
    | succ k ih =>
      obtain ⟨-, hloss⟩ := hstep k (hnonneg k)
      push_cast
      omega
  refine ⟨(d 0).toNat, fun k hk => ?_⟩
  have := hnonneg k
  have := hdecrease k
  omega

end Distance

/-- Averaging one target again and again settles a level at it, or up to 9 counts below it. -/
theorem settles_of_emaCount {m : Int} {level : Nat → Int} (h : ∀ k, level (k + 1) = emaCount m (level k)) :
    Settles m level := by
  refine ⟨fun habove => ?_, fun hbelow => ?_, fun hlow hhigh k => ?_⟩
  · have h0 : 0 ≤ level 0 - m := by omega
    have hstep (k : Nat) (hk : 0 ≤ level k - m) :
        0 ≤ level (k + 1) - m ∧ 10 * (level (k + 1) - m) ≤ 9 * (level k - m) := by
      obtain ⟨hle, hloss, -⟩ := emaCount_from_above (sub_nonneg.1 hk)
      rw [h k]
      exact ⟨sub_nonneg.2 hle, hloss⟩
    refine ⟨fun k => (distance_shrinks h0 hstep k).imp_left sub_nonneg.1, ?_⟩
    exact (distance_vanishes h0 hstep).imp fun n hn k hk => sub_eq_zero.1 (hn k hk)
  · have h0 : 0 ≤ m - 9 - level 0 := by omega
    have hstep (k : Nat) (hk : 0 ≤ m - 9 - level k) :
        0 ≤ m - 9 - level (k + 1) ∧ 10 * (m - 9 - level (k + 1)) ≤ 9 * (m - 9 - level k) := by
      obtain ⟨hle, hloss, -⟩ := emaCount_from_below (sub_nonneg.1 hk)
      rw [h k]
      exact ⟨sub_nonneg.2 hle, hloss⟩
    refine ⟨fun k => (distance_shrinks h0 hstep k).imp_left sub_nonneg.1, ?_⟩
    exact (distance_vanishes h0 hstep).imp fun n hn k hk => (sub_eq_zero.1 (hn k hk)).symm
  · induction k with
    | zero => rfl
    | succ k ih => rw [h k, ih, emaCount_rest hlow hhigh]

/-- In a run of commits that all find the extremes `a` the levels stay valid, and each level is averaged with its
extreme. -/
theorem commits_average {u : Nat → State} {a : Accumulators} (ha : a.valid = true)
    (hvalid : (u 0).levels.valid = true) (hacc : ∀ k, (u k).acc = a)
    (hrun : ∀ k, (u (k + 1)).levels = (levelCommit (u k)).levels) (k : Nat) :
    (u (k + 1)).levels.syncTip = emaCount a.min (u k).levels.syncTip
    ∧ (u (k + 1)).levels.white = emaCount a.max (u k).levels.white := by
  have hlevels (k : Nat) : (u k).levels.valid = true := by
    induction k with
    | zero => exact hvalid
    | succ k ih => rw [hrun k]; exact levelCommit_valid ih
  have haccumulated : (u k).acc.valid = true := by rw [hacc k, ha]
  rw [hrun k, levelCommit_levels haccumulated (hlevels k), hacc k]
  exact ⟨rfl, rfl⟩

/-- Settles O33: both levels are averaged again and again with one target each. -/
theorem committedLevelConverges : Obligations.CommittedLevelConverges := by
  intro u a ha hvalid hacc hcommit
  have hrun (k : Nat) : (u (k + 1)).levels = (levelCommit (u k)).levels := by
    obtain ⟨t, ht, hlevels⟩ := hcommit k
    cases ht
    exact hlevels
  have haverage := commits_average ha hvalid hacc hrun
  exact ⟨settles_of_emaCount fun k => (haverage k).1, settles_of_emaCount fun k => (haverage k).2⟩

end Sys2Proof.Machine
end

section
/-! PROOFS. The vertical sync detector (43_vsync.md R170 to R173). -/

namespace Sys2Proof.Machine

/-! ## One falling edge (R170)

The half-line case is `vsyncFall_halfLine`. -/

section Fall

variable {p q : Position} {v : Vsync}

/-- The interval between two positions, modulo 2^64 (43_vsync.md R170). -/
theorem interval_toNat : (p - q).toNat = (p.toNat + 2 ^ 64 - q.toNat) % 2 ^ 64 := by bv_omega

/-- The half-line window on the interval modulo 2^64. -/
theorem isHalfLine_sub : isHalfLine (p - q) = true ↔
    1000 ≤ (p.toNat + 2 ^ 64 - q.toNat) % 2 ^ 64 ∧ (p.toNat + 2 ^ 64 - q.toNat) % 2 ^ 64 ≤ 1600 := by
  rw [isHalfLine, decide_eq_true_iff, interval_toNat]

/-- The full-line window on the interval modulo 2^64. -/
theorem isFullLine_sub : isFullLine (p - q) = true ↔
    2200 ≤ (p.toNat + 2 ^ 64 - q.toNat) % 2 ^ 64 ∧ (p.toNat + 2 ^ 64 - q.toNat) % 2 ^ 64 ≤ 3000 := by
  rw [isFullLine, decide_eq_true_iff, interval_toNat]

/-- No interval is in both windows. -/
theorem not_isHalfLine_of_isFullLine {d : Position} (h : isFullLine d = true) : isHalfLine d = false := by
  simp only [isFullLine, isHalfLine, decide_eq_true_eq, decide_eq_false_iff_not, Config.fullMin, Config.halfMax] at h ⊢
  omega

/-- The first edge after a reset only records its position (43_vsync.md R172). -/
theorem vsyncFall_first (hv : v.lastEdgeValid = false) :
    vsyncFall p v = (false, { v with lastEdgePos := p, lastEdgeValid := true }) := by
  simp [vsyncFall, hv]

/-- A full line after the last edge completes a vsync. -/
theorem vsyncFall_fullLine (hv : v.lastEdgeValid = true) (hin : v.inVsync = true)
    (h : isFullLine (p - v.lastEdgePos) = true) :
    vsyncFall p v = (true, { halfLineCount := 0, inVsync := false, lastEdgeValid := true, lastEdgePos := p }) := by
  simp [vsyncFall, classifyInterval, hv, hin, h, not_isHalfLine_of_isFullLine h]

/-- An edge at any other distance only clears the count. -/
theorem vsyncFall_otherInterval (hv : v.lastEdgeValid = true) (hhalf : ¬ isHalfLine (p - v.lastEdgePos) = true)
    (hfull : ¬ (v.inVsync = true ∧ isFullLine (p - v.lastEdgePos) = true)) :
    vsyncFall p v = (false, { v with halfLineCount := 0, lastEdgePos := p, lastEdgeValid := true }) := by
  rw [← Bool.and_eq_true] at hfull
  rw [vsyncFall, if_pos hv, classifyInterval, if_neg hhalf, if_neg hfull]

/-- `VSYNC_EDGE` on a falling edge is `vsyncFall` on the detector; the verdict goes to `returned` (log entry 5). -/
theorem exec_vsyncEdge_fall {s : State} {done : Bool} (h : vsyncFall p s.vsync = (done, v)) :
    exec (.vsyncEdge true p) s = .next { s with vsync := v, returned := .completion done } := by
  change Host.Outcome.next
    { s with vsync := (vsyncFall p s.vsync).2, returned := .completion (vsyncFall p s.vsync).1 } = _
  rw [h]

end Fall

/-- Settles O34: without an edge nothing changes, and each case of a falling edge is a lemma about `vsyncFall`. -/
theorem vsyncClassifiesTheInterval : Obligations.VsyncClassifiesTheInterval := by
  intro s p
  refine ⟨rfl, fun hv => ?first, fun hv hmin hmax => ?half, fun hv hin hmin hmax => ?full,
    fun hv hhalf hfull => ?other⟩
  case first => exact exec_vsyncEdge_fall (vsyncFall_first hv)
  case half =>
    rw [exec_vsyncEdge_fall (vsyncFall_halfLine hv (isHalfLine_sub.2 ⟨hmin, hmax⟩)), satSucc_eq, ofNat_sat32_toNat]
  case full => exact exec_vsyncEdge_fall (vsyncFall_fullLine hv hin (isFullLine_sub.2 ⟨hmin, hmax⟩))
  case other =>
    rw [← isHalfLine_sub] at hhalf
    rw [← isFullLine_sub] at hfull
    exact exec_vsyncEdge_fall (vsyncFall_otherInterval hv hhalf hfull)

/-! ## A run of half lines (R171) -/

/-- The detector after `n` intervals of `d` that began with the edge at `p`, by R171; `was` is `in_vsync` before them. -/
def afterIntervals (was : Bool) (p d n : Nat) : Vsync where
  halfLineCount := BitVec.ofNat 32 n
  inVsync := was || decide (6 ≤ n)
  lastEdgeValid := true
  lastEdgePos := BitVec.ofNat 64 (p + n * d)

theorem satSucc_ofNat {n : Nat} (hn : n + 1 < 2 ^ 32) : satSucc (BitVec.ofNat 32 n) = BitVec.ofNat 32 (n + 1) := by
  rw [satSucc_eq, BitVec.toNat_ofNat, Nat.mod_eq_of_lt (by omega), sat32, min_eq_left (by omega)]

/-- Two edges `d` apart are `d` apart modulo 2^64, wherever they stand. -/
theorem ofNat_add_sub_ofNat (p d : Nat) : BitVec.ofNat 64 (p + d) - BitVec.ofNat 64 p = BitVec.ofNat 64 d := by
  rw [BitVec.ofNat_add, BitVec.add_comm, BitVec.add_sub_cancel]

section HalfLines

variable {d : Nat} (hmin : 1000 ≤ d) (hmax : d ≤ 1600)
include hmin hmax

theorem isHalfLine_ofNat : isHalfLine (BitVec.ofNat 64 d) = true := by
  rw [isHalfLine, decide_eq_true_iff, BitVec.toNat_ofNat, Nat.mod_eq_of_lt (by omega)]
  exact ⟨hmin, hmax⟩

/-- One more edge of the run is one more interval counted. -/
theorem vsyncFall_afterIntervals (was : Bool) (p : Nat) {n : Nat} (hn : n + 1 < 2 ^ 32) :
    vsyncFall (BitVec.ofNat 64 (p + (n + 1) * d)) (afterIntervals was p d n)
      = (false, afterIntervals was p d (n + 1)) := by
  have hdist : BitVec.ofNat 64 (p + (n + 1) * d) - BitVec.ofNat 64 (p + n * d) = BitVec.ofNat 64 d := by
    rw [Nat.add_one_mul, ← Nat.add_assoc, ofNat_add_sub_ofNat]
  have hhalf : isHalfLine (BitVec.ofNat 64 (p + (n + 1) * d) - (afterIntervals was p d n).lastEdgePos) = true := by
    rw [afterIntervals, hdist, isHalfLine_ofNat hmin hmax]
  have hentered : ((was || decide (6 ≤ n)) || decide (6 ≤ n + 1)) = (was || decide (6 ≤ n + 1)) := by
    rw [Bool.or_assoc, ← Bool.decide_or, decide_eq_decide.2 (or_iff_right_of_imp Nat.le_succ_of_le)]
  have hcount : (BitVec.ofNat 32 (n + 1)).toNat = n + 1 := Nat.mod_eq_of_lt hn
  rw [vsyncFall_halfLine rfl hhalf]
  simp only [afterIntervals, satSucc_ofNat hn, hcount, hentered]

/-- A run of edges a half line apart goes through the detectors of R171. -/
theorem vsync_run_afterIntervals {u : Nat → State} {was : Bool} {p : Nat}
    (h0 : (u 0).vsync = afterIntervals was p d 0)
    (hrun : ∀ k, exec (.vsyncEdge true (BitVec.ofNat 64 (p + (k + 1) * d))) (u k) = .next (u (k + 1)))
    (n : Nat) (hn : n < 2 ^ 32) : (u n).vsync = afterIntervals was p d n := by
  induction n with
  | zero => exact h0
  | succ n ih =>
    have hfall := vsyncFall_afterIntervals hmin hmax was p hn
    rw [← ih (by omega)] at hfall
    injection (exec_vsyncEdge_fall hfall).symm.trans (hrun n) with hnext
    rw [← hnext]

end HalfLines

/-- What the detectors of R171 show of the run. -/
theorem afterIntervals_counted (was : Bool) (p d : Nat) {n : Nat} (hn : n < 2 ^ 32) :
    (afterIntervals was p d n).halfLineCount.toNat = n
    ∧ ((afterIntervals was p d n).inVsync = true ↔ was = true ∨ 6 ≤ n) :=
  ⟨Nat.mod_eq_of_lt hn, by rw [afterIntervals, Bool.or_eq_true, decide_eq_true_iff]⟩

/-- A detector that counts 0 after an edge at `p` begins a run there. -/
theorem eq_afterIntervals_zero {v : Vsync} {p : Nat} (d : Nat) (hcount : v.halfLineCount = 0)
    (hvalid : v.lastEdgeValid = true) (hpos : v.lastEdgePos = BitVec.ofNat 64 p) :
    v = afterIntervals v.inVsync p d 0 := by
  cases v
  simp_all [afterIntervals]

/-- Settles O35: without an edge before it, the run begins one edge later. -/
theorem sixthHalfLineEntersVsync : Obligations.SixthHalfLineEntersVsync := by
  intro u p d n hmin hmax hn hcount hrun
  refine ⟨fun hv => ?reset, fun hv hpos => ?edge⟩
  case reset =>
    injection (exec_vsyncEdge_fall (vsyncFall_first hv)).symm.trans (hrun 0) with hnext
    have hstart : (u 1).vsync = afterIntervals (u 0).vsync.inVsync (p + d) d 0 := by
      rw [← hnext]
      exact eq_afterIntervals_zero d hcount rfl (by rw [Nat.zero_add, Nat.one_mul])
    have hshift (k : Nat) : exec (.vsyncEdge true (BitVec.ofNat 64 (p + d + (k + 1) * d))) (u (k + 1))
        = .next (u (k + 1 + 1)) := by
      rw [← hrun (k + 1), Nat.add_one_mul (k + 1), Nat.add_right_comm, Nat.add_assoc]
    rw [vsync_run_afterIntervals (u := fun k => u (k + 1)) hmin hmax hstart hshift n hn]
    exact afterIntervals_counted _ _ _ hn
  case edge =>
    rw [vsync_run_afterIntervals hmin hmax (eq_afterIntervals_zero d hcount hv hpos) hrun n hn]
    exact afterIntervals_counted _ _ _ hn

end Sys2Proof.Machine
end

section
/-! PROOFS. The horizontal sync detector (44_hsync.md R180). -/

namespace Sys2Proof.Machine

section Pulse

variable {fall rise : Bool} {p q : Position} {s t : State}

/-- A falling edge opens a pulse, whatever the other flag says and whether or not a pulse was open. -/
theorem hsyncEdge_fall :
    hsyncEdge true rise p s = (false, { s with hsync := { inPulse := true, pulseStart := p } }) := by
  rw [hsyncEdge, if_pos rfl]

theorem hsyncEdge_noEdge : hsyncEdge false false p s = (false, s) := by
  simp [hsyncEdge]

/-- A rising edge closes nothing where no pulse is open. -/
theorem hsyncEdge_rise_of_closed (h : s.hsync.inPulse = false) : hsyncEdge false true p s = (false, s) := by
  simp [hsyncEdge, h]

/-- A rising edge closes the open pulse, and the pulse's width alone decides the event. -/
theorem hsyncEdge_rise_of_open (h : s.hsync.inPulse = true) : hsyncEdge false true p s =
    (isHsyncWidth (p - s.hsync.pulseStart), { s with hsync := { s.hsync with inPulse := false } }) := by
  simp [hsyncEdge, h]

/-- The width window on the distance modulo 2^64. -/
theorem isHsyncWidth_sub : isHsyncWidth (p - q) =
    decide (100 ≤ (p.toNat + 2 ^ 64 - q.toNat) % 2 ^ 64 ∧ (p.toNat + 2 ^ 64 - q.toNat) % 2 ^ 64 ≤ 280) := by
  rw [isHsyncWidth, interval_toNat]

/-- `HSYNC_EDGE` runs `hsyncEdge`; the verdict goes to `returned` (log entry 5). -/
theorem exec_hsyncEdge {event : Bool} (h : hsyncEdge fall rise p s = (event, t)) :
    exec (.hsyncEdge fall rise p) s = .next { t with returned := .event event } := by
  change execHsyncEdge fall rise p s = _
  rw [execHsyncEdge, h]

end Pulse

/-- Settles O36: each case of an edge is a lemma about `hsyncEdge`. -/
theorem hsyncMeasuresThePulse : Obligations.HsyncMeasuresThePulse := by
  intro s rise p
  refine ⟨exec_hsyncEdge hsyncEdge_fall, exec_hsyncEdge hsyncEdge_noEdge,
    fun hclosed => ?closed, fun hopen => ?opened⟩
  case closed => exact exec_hsyncEdge (hsyncEdge_rise_of_closed hclosed)
  case opened => rw [exec_hsyncEdge (hsyncEdge_rise_of_open hopen), isHsyncWidth_sub]

end Sys2Proof.Machine
end

section
/-! PROOFS. The software PLL (45_pll.md R190 to R196). -/

namespace Sys2Proof.Machine

/-! ## Ninths of a count

`P` is a whole number of ninths of a count in every format, so a comparison with `P` is one of integers
(`Geometry.period9`). -/

/-- The value of `n` ninths of a count. -/
def valueOfNinths (n : Int) : ℚ := (n : ℚ) / (65536 * 9)

section Ninths

variable (a b : Int)

theorem valueOf_eq_ninths : valueOf a = valueOfNinths (9 * a) := by
  simp only [valueOf, valueOfNinths]
  push_cast
  ring

theorem period_eq_ninths (g : Geometry) : g.period = valueOfNinths g.period9 := by
  rw [valueOfNinths, period9_eq]
  ring

theorem abs_valueOf_eq_ninths : |valueOf a| = valueOfNinths (9 * a.natAbs) := by
  rw [abs_valueOf, ← valueOf, valueOf_eq_ninths]

theorem valueOfNinths_add : valueOfNinths a + valueOfNinths b = valueOfNinths (a + b) := by
  simp only [valueOfNinths]
  push_cast
  ring

theorem valueOfNinths_sub : valueOfNinths a - valueOfNinths b = valueOfNinths (a - b) := by
  simp only [valueOfNinths]
  push_cast
  ring

theorem mul_valueOfNinths : (a : ℚ) * valueOfNinths b = valueOfNinths (a * b) := by
  simp only [valueOfNinths]
  push_cast
  ring

theorem valueOfNinths_lt : valueOfNinths a < valueOfNinths b ↔ a < b := by
  rw [valueOfNinths, valueOfNinths, div_lt_div_iff_of_pos_right (by norm_num), Int.cast_lt]

theorem valueOfNinths_le : valueOfNinths a ≤ valueOfNinths b ↔ a ≤ b := by
  rw [← not_lt, valueOfNinths_lt, not_lt]

/-- Rounding to a count is the integer division by 9. -/
theorem quantize_valueOfNinths : quantize (valueOfNinths a) = a / 9 :=
  quantize_eq a 9 (by rw [valueOfNinths, Nat.cast_ofNat])

theorem valueOfNinths_le_half : valueOfNinths a ≤ valueOfNinths b / 2 ↔ 2 * a ≤ b := by
  rw [le_div_iff₀' two_pos, ← valueOfNinths_le, ← mul_valueOfNinths, Int.cast_ofNat]

theorem half_le_valueOfNinths : valueOfNinths b / 2 ≤ valueOfNinths a ↔ b ≤ 2 * a := by
  rw [div_le_iff₀' two_pos, ← valueOfNinths_le, ← mul_valueOfNinths, Int.cast_ofNat]

theorem neg_half_valueOfNinths : -(valueOfNinths b / 2) = valueOfNinths (-b) / 2 := by
  rw [neg_eq_neg_one_mul b, ← mul_valueOfNinths, Int.cast_neg, Int.cast_one, neg_one_mul, neg_div]

end Ninths

/-! ## The phase error (R191) -/

theorem period9_pos {s : State} (h : s.format ≠ .unknown) : 0 < s.geom.period9 := by
  obtain ⟨hlo, -⟩ := period9_mem h
  omega

/-- Settles O37: in ninths of a count the statement is `wrapPhase_spec`. -/
theorem phaseErrorIsTheWrappedPhase : Obligations.PhaseErrorIsTheWrappedPhase := by
  intro s
  refine ⟨⟨_, rfl⟩, fun hformat => ?_⟩
  obtain ⟨k, hwrap, hspec⟩ := wrapPhase_spec (9 * s.pll.phase) s.geom.period9 (period9_pos hformat)
  refine ⟨k, ?_⟩
  simp only [valueOf_eq_ninths, period_eq_ninths, mul_valueOfNinths, valueOfNinths_sub, quantize_valueOfNinths,
    ← not_le, neg_half_valueOfNinths, valueOfNinths_le_half, half_le_valueOfNinths]
  simp only [not_le, ← hwrap] at hspec ⊢
  exact ⟨rfl, hspec⟩

/-! ## The lock (R194) -/

section Lock

variable {s : State}

theorem isGoodEvent_iff : s.isGoodEvent = true ↔ |valueOf s.pll.error| < s.geom.period / 20 := by
  rw [State.isGoodEvent, decide_eq_true_iff, lt_div_iff₀' (by norm_num), abs_valueOf_eq_ninths, period_eq_ninths,
    ← valueOfNinths_lt, ← mul_valueOfNinths, Int.cast_ofNat]

theorem lockUpdate_of_good (h : s.isGoodEvent = true) : lockUpdate s = { s with lock :=
    { good := satSucc s.lock.good, bad := 0
      locked := if 10 ≤ (satSucc s.lock.good).toNat then true else s.lock.locked } } := by
  by_cases hten : 10 ≤ (satSucc s.lock.good).toNat <;> simp [lockUpdate, h, hten]

theorem lockUpdate_of_bad (h : ¬ s.isGoodEvent = true) : lockUpdate s = { s with lock :=
    { good := 0, bad := satSucc s.lock.bad
      locked := if 5 ≤ (satSucc s.lock.bad).toNat then false else s.lock.locked } } := by
  by_cases hfive : 5 ≤ (satSucc s.lock.bad).toNat <;> simp [lockUpdate, h, hfive]

end Lock

/-- Settles O38, by whether the event is good. -/
theorem lockFollowsConsecutiveEvents : Obligations.LockFollowsConsecutiveEvents := by
  intro s
  refine ⟨fun hgood => ?good, fun hbad => ?bad⟩
  case good =>
    rw [← isGoodEvent_iff] at hgood
    rw [← satSucc_eq, ← satSucc_toNat, ← lockUpdate_of_good hgood]
    rfl
  case bad =>
    rw [← not_lt, ← isGoodEvent_iff] at hbad
    rw [← satSucc_eq, ← satSucc_toNat, ← lockUpdate_of_bad hbad]
    rfl

/-! ## The correction (R193) -/

/-- The floored integral clamped to whole counts is the exact one clamped and then rounded: rounding keeps order and
leaves the two limits as they are. -/
theorem integralCount_eq_quantize (i e : Int) :
    integralCount i e = quantize (min (max (valueOf i + 1 / 200 * valueOf e) (-50)) 50) := by
  have hlimit (n : Int) : quantize n = n * Config.one := by rw [← valueOf_mul_one, quantize_valueOf]
  have hsum : quantize (valueOf i + 1 / 200 * valueOf e) = (200 * i + e) / 200 :=
    quantize_eq _ 200 (by unfold valueOf; push_cast; ring)
  have hlo := hlimit (-50)
  have hhi := hlimit 50
  push_cast at hlo hhi
  rw [quantize_mono.map_min, quantize_mono.map_max, hsum, hlo, hhi]
  rfl

theorem correctedPhase_eq_quantize (p e : Int) :
    (20 * p - 3 * e) / 20 = quantize (valueOf p - 3 / 20 * valueOf e) :=
  (quantize_eq (20 * p - 3 * e) 20 (by unfold valueOf; push_cast; ring)).symm

/-- Settles O39: the integer divisions are the exact values, rounded. -/
theorem correctionIsProportionalIntegral : Obligations.CorrectionIsProportionalIntegral := by
  intro s
  rw [← integralCount_eq_quantize, ← correctedPhase_eq_quantize]
  rfl

/-! ## The event (R190, R192) -/

section Event

variable {s : State}

theorem isSpuriousEvent_iff : s.isSpuriousEvent = true ↔ 2 / 5 * s.geom.period < |valueOf s.pll.error| := by
  rw [State.isSpuriousEvent, decide_eq_true_iff, div_mul_eq_mul_div, div_lt_iff₀' (by norm_num),
    abs_valueOf_eq_ninths, period_eq_ninths, ← valueOfNinths_lt, ← mul_valueOfNinths, ← mul_valueOfNinths,
    Int.cast_ofNat, Int.cast_ofNat]

/-- LOCK_UPDATE writes neither the error nor the period, so the event may be judged before it. -/
theorem lockUpdate_isSpuriousEvent : (lockUpdate s).isSpuriousEvent = s.isSpuriousEvent := rfl

theorem pllEvent_of_spurious (h : (phaseError s).isSpuriousEvent = true) :
    pllEvent s = lockUpdate (phaseError s) :=
  if_pos (lockUpdate_isSpuriousEvent.trans h)

theorem pllEvent_of_not_spurious (h : ¬ (phaseError s).isSpuriousEvent = true) :
    pllEvent s = pllCorrect (lockUpdate (phaseError s)) :=
  if_neg (lockUpdate_isSpuriousEvent.symm ▸ h)

end Event

/-- Settles O40, by whether the event is spurious. -/
theorem spuriousEventCorrectsNothing : Obligations.SpuriousEventCorrectsNothing := by
  intro s
  refine ⟨phaseError s, lockUpdate (phaseError s), rfl, rfl, fun hfar => ?spurious, fun hnear => ?corrected⟩
  case spurious => exact congrArg _ (pllEvent_of_spurious (isSpuriousEvent_iff.2 hfar))
  case corrected =>
    exact ⟨_, rfl, congrArg _ (pllEvent_of_not_spurious (isSpuriousEvent_iff.not.2 hnear.not_gt))⟩

/-! ## The boundary (R195, R196) -/

section Boundary

variable {s : State}

theorem effectivePeriod_eq_ninths :
    s.geom.period + valueOf s.pll.freqAdjust = valueOfNinths s.effectivePeriod9 := by
  rw [period_eq_ninths, valueOf_eq_ninths, valueOfNinths_add, State.effectivePeriod9]

theorem valueOf_add_one (n : Int) : valueOf n + 1 = valueOf (n + Config.one) := by
  simp only [valueOf, Config.one]
  push_cast
  ring

/-- The state in which PLL_ADVANCE asks for a boundary: one sample on the phase (R195). -/
def addSample (s : State) : State := { s with pll := { s.pll with phase := s.pll.phase + Config.one } }

theorem effectivePeriod9_le_addSample_iff : (addSample s).effectivePeriod9 ≤ 9 * (addSample s).pll.phase
    ↔ s.geom.period + valueOf s.pll.freqAdjust ≤ valueOf s.pll.phase + 1 := by
  rw [effectivePeriod_eq_ninths, valueOf_add_one, valueOf_eq_ninths, valueOfNinths_le]
  rfl

theorem pllAdvance_of_reached (h : s.geom.period + valueOf s.pll.freqAdjust ≤ valueOf s.pll.phase + 1) :
    pllAdvance s = lineBoundary (addSample s) :=
  if_pos (effectivePeriod9_le_addSample_iff.2 h)

theorem pllAdvance_of_not_reached (h : valueOf s.pll.phase + 1 < s.geom.period + valueOf s.pll.freqAdjust) :
    pllAdvance s = addSample s :=
  if_neg (effectivePeriod9_le_addSample_iff.not.2 h.not_ge)

/-- LINE_DECODE leaves the PLL and the format, so the phase and the period may be read before it. -/
theorem lineBoundary_eq_quantize : lineBoundary s = { lineDecode s with
    lines := { (lineDecode s).lines with currentLine := satSucc s.lines.currentLine }
    pll := { s.pll with
      phase := quantize (valueOf s.pll.phase - (s.geom.period + valueOf s.pll.freqAdjust)) } } := by
  rw [effectivePeriod_eq_ninths, valueOf_eq_ninths, valueOfNinths_sub, quantize_valueOfNinths]
  simp only [lineBoundary, State.effectivePeriod9, lineDecode_frame, lineDecode_currentLine]

end Boundary

/-- Settles O41, by whether the phase reaches the effective period. -/
theorem advanceFiresAtTheEffectivePeriod : Obligations.AdvanceFiresAtTheEffectivePeriod := by
  intro s
  exact ⟨fun hreached => ⟨_, rfl, congrArg _ (pllAdvance_of_reached hreached)⟩,
    fun hbelow => congrArg _ (pllAdvance_of_not_reached hbelow)⟩

/-- Settles O42: the saturating counter and the rounded phase are those of `lineBoundary_eq_quantize`. -/
theorem boundaryKeepsThePhaseFraction : Obligations.BoundaryKeepsThePhaseFraction := by
  intro s
  refine ⟨lineDecode s, rfl, ?_⟩
  rw [← satSucc_eq, ← lineBoundary_eq_quantize]
  rfl

end Sys2Proof.Machine
end

section
/-! PROOFS. The line buffer and the line decoder (46_line_decoder.md R210 to R214). -/

namespace Sys2Proof.Machine

/-! ## Appending a sample (R210) -/

section Append

variable {s : State} {x : Sample}

theorem lineAppend_of_room (h : s.lineBuf.length < 4096) :
    lineAppend x s = { s with lineBuf := s.lineBuf ++ [x] } := if_pos h

theorem lineAppend_of_full (h : 4096 ≤ s.lineBuf.length) : lineAppend x s = s := if_neg h.not_gt

end Append

/-- Settles O43, by whether the line buffer has room. -/
theorem appendStopsAtTheCapacity : Obligations.AppendStopsAtTheCapacity := by
  intro s x
  rcases lt_or_ge s.lineBuf.length 4096 with hroom | hfull
  · exact ⟨_, congrArg _ (lineAppend_of_room hroom),
      fun _ => ⟨by simp, by simp, fun k hk => List.getElem?_append_left hk⟩, fun hfull => absurd hroom hfull.not_gt⟩
  · exact ⟨s.lineBuf, congrArg _ (lineAppend_of_full hfull), fun hroom => absurd hroom hfull.not_gt, fun _ => rfl⟩

/-! ## A pixel (R212 to R214)

The decoder divides once, in integers: with `n` samples of sum `S` and levels of `b` and `w` counts,
`((S / n - b / ONE) * 255) / (w / ONE - b / ONE) = ((S * ONE - n * b) * 255) / (n * (w - b))`. -/

section Luma

variable {window : List Sample} {black white : Int}

/-- The place of a window's mean between black and white on 0 … 255, before it is floored (R214). -/
def meanPlace (window : List Sample) (black white : Int) : ℚ :=
  ((sumSamples window : ℚ) / window.length - valueOf black) * 255 / (valueOf white - valueOf black)

theorem meanPlace_eq_div (hne : window.length ≠ 0) (hscale : black < white) :
    meanPlace window black white = (((sumSamples window * Config.one - window.length * black) * 255 : Int) : ℚ)
      / ((window.length * (white - black) : Int) : ℚ) := by
  have hlen : (window.length : ℚ) ≠ 0 := Nat.cast_ne_zero.2 hne
  have hrange : (white : ℚ) - black ≠ 0 := sub_ne_zero.2 (Int.cast_lt.2 hscale).ne'
  rw [meanPlace, ← valueOf_sub]
  simp only [valueOf, Config.one]
  push_cast
  field_simp

theorem floor_meanPlace (hne : window.length ≠ 0) (hscale : black < white) :
    ⌊meanPlace window black white⌋
      = ((sumSamples window * Config.one - window.length * black) * 255) / (window.length * (white - black)) := by
  obtain ⟨range, hrange⟩ := Int.eq_ofNat_of_zero_le (sub_nonneg.2 hscale.le)
  rw [meanPlace_eq_div hne hscale, hrange, ← Nat.cast_mul, Int.cast_natCast, Rat.floor_intCast_div_natCast]

/-- A byte holds a number clamped to 0 … 255. -/
theorem toNat_ofInt_clamp_byte (n : Int) : ((BitVec.ofInt 8 (clamp n 0 255)).toNat : Int) = clamp n 0 255 := by
  obtain ⟨hlo, hhi⟩ := clamp_mem (v := n) (lo := 0) (hi := 255) (by decide)
  rw [BitVec.toNat_ofInt]
  omega

theorem lumaOf_eq_zero (h : window.length = 0 ∨ white ≤ black) : lumaOf window black white = 0 := if_pos h

theorem lumaOf_toNat (hne : window.length ≠ 0) (hscale : black < white) :
    ((lumaOf window black white).toNat : Int) = min (max ⌊meanPlace window black white⌋ 0) 255 := by
  rw [lumaOf, if_neg (not_or.2 ⟨hne, hscale.not_ge⟩), toNat_ofInt_clamp_byte, floor_meanPlace hne hscale, clamp]

end Luma

/-- Settles O44: the box window has the present samples' number and sum (`boxWindow_spec`), and the luma of a window is
its mean's place, floored and clamped (`lumaOf_toNat`). -/
theorem pixelIsTheNormalisedBoxMean : Obligations.PixelIsTheNormalisedBoxMean := by
  intro s c src present sum v
  have hsrc : src = (sourceIndex s.geom c : Int) := by simp [src, sourceIndex, Config.frameWidth]
  obtain ⟨hcard, hsum⟩ : (boxWindow s.lineBuf (sourceIndex s.geom c)).length = present.card
      ∧ sumSamples (boxWindow s.lineBuf (sourceIndex s.geom c)) = sum := by
    have hspec := boxWindow_spec s.lineBuf (sourceIndex s.geom c)
    rwa [← hsrc] at hspec
  have hempty : (boxWindow s.lineBuf (sourceIndex s.geom c)).length = 0 ↔ present = ∅ := by
    rw [hcard, Finset.card_eq_zero]
  have hplace : meanPlace (boxWindow s.lineBuf (sourceIndex s.geom c)) s.levels.black s.levels.white = v := by
    rw [meanPlace, hcard, hsum]
  refine ⟨fun hzero => lumaOf_eq_zero (hzero.imp_left hempty.2), fun hne hscale => ?_⟩
  rw [← hplace]
  exact lumaOf_toNat (hempty.not.2 hne) hscale

/-! ## Decoding a line (R211) -/

section Decode

variable {s : State}

theorem isActiveLine_iff {g : Geometry} {l : Nat} :
    g.isActiveLine l = true ↔ g.firstActive ≤ l ∧ l < g.firstActive + g.fieldHeight := decide_eq_true_iff

theorem lineDecode_of_active (h : s.geom.isActiveLine s.lines.currentLine.toNat = true) :
    lineDecode s = { writeLineRow s with
      lines := { s.lines with linesDecoded := satSucc s.lines.linesDecoded }
      lineBuf := [] } := if_pos h

theorem lineDecode_of_not_active (h : ¬ s.geom.isActiveLine s.lines.currentLine.toNat = true) :
    lineDecode s = { s with lineBuf := [] } := if_neg h

end Decode

/-- Settles O45, by whether the line is active: the row is a fill of the field buffer, read by `Memory.read_fill`. -/
theorem lineDecodeWritesTheActiveRow : Obligations.LineDecodeWritesTheActiveRow := by
  intro s line first b
  refine ⟨fun hactive => ⟨_, ?next, Memory.read_fill _ _ _ _⟩, fun hblank => ?blank⟩
  case next =>
    rw [← satSucc_eq]
    exact congrArg _ (lineDecode_of_active (isActiveLine_iff.2 hactive))
  case blank => exact congrArg _ (lineDecode_of_not_active (isActiveLine_iff.not.2 hblank))

end Sys2Proof.Machine
end

section
/-! PROOFS. The field and frame assembler (47_assembler.md R230 to R236): the rows DEINTERLACE_CORE writes, the copy to
the display buffer, and the start of a new field. -/

namespace Sys2Proof.Machine

variable (s : State)

/-! ## The pixels of a frame (R232 to R234) -/

theorem weavePixel_even (i c : Nat) : s.weavePixel (2 * i) c = s.fieldPixel .zero i c := by
  simp [State.weavePixel]

theorem weavePixel_odd (i c : Nat) : s.weavePixel (2 * i + 1) c = s.fieldPixel .one i c := by
  have hrow : (2 * i + 1) / 2 = i := by omega
  simp [State.weavePixel, hrow]

theorem bobZeroPixel_even (h i c : Nat) : s.bobZeroPixel h (2 * i) c = s.fieldPixel .zero i c := by
  simp [State.bobZeroPixel]

/-- An odd row is the average of the rows around it, and repeats the last one (R233). -/
theorem bobZeroPixel_odd (h i c : Nat) : s.bobZeroPixel h (2 * i + 1) c =
    if i + 1 < h then averagePixel (s.fieldPixel .zero i c) (s.fieldPixel .zero (i + 1) c)
    else s.fieldPixel .zero i c := by
  have hrow : (2 * i + 1) / 2 = i := by omega
  simp [State.bobZeroPixel, hrow]

theorem bobOnePixel_odd (i c : Nat) : s.bobOnePixel (2 * i + 1) c = s.fieldPixel .one i c := by
  have hrow : (2 * i + 1) / 2 = i := by omega
  simp [State.bobOnePixel, hrow]

/-- An even row is the average of the rows around it, and repeats the first one (R234). -/
theorem bobOnePixel_even (i c : Nat) : s.bobOnePixel (2 * i) c =
    if 0 < i then averagePixel (s.fieldPixel .one (i - 1) c) (s.fieldPixel .one i c)
    else s.fieldPixel .one 0 c := by
  simp [State.bobOnePixel]

/-! ## DEINTERLACE_CORE -/

section Core

variable {s}

theorem deinterlaceCore_of_both (h0 : s.asm.ready0 = true) (h1 : s.asm.ready1 = true) :
    deinterlaceCore s = s.withFrameRows s.weavePixel := by
  simp only [deinterlaceCore, h0, h1, Bool.and_true, if_true]

theorem deinterlaceCore_of_zero (h0 : s.asm.ready0 = true) (h1 : s.asm.ready1 = false) :
    deinterlaceCore s = s.withFrameRows (s.bobZeroPixel s.geom.fieldHeight) := by
  simp [deinterlaceCore, h0, h1]

theorem deinterlaceCore_of_one (h0 : s.asm.ready0 = false) (h1 : s.asm.ready1 = true) :
    deinterlaceCore s = s.withFrameRows s.bobOnePixel := by
  simp [deinterlaceCore, h0, h1]

theorem deinterlaceCore_of_neither (h0 : s.asm.ready0 = false) (h1 : s.asm.ready1 = false) :
    deinterlaceCore s = s := by
  simp [deinterlaceCore, h0, h1]

/-- Where DEINTERLACE_CORE writes rows it writes `FR` alone, and in it those rows alone. -/
theorem exec_deinterlaceCore_rows {f : Nat → Nat → Byte} (h : deinterlaceCore s = s.withFrameRows f) : ∃ m,
    exec .deinterlaceCore s = .next { s with frame := m }
    ∧ (∀ r c, r < 2 * s.geom.fieldHeight → c < 720 → State.framePixel { s with frame := m } r c = f r c)
    ∧ ∀ a, ¬ (0x100000 ≤ a ∧ a < 0x100000 + 2 * s.geom.fieldHeight * 720) → Memory.read m a = s.frame.read a :=
  ⟨(s.withFrameRows f).frame, congrArg Host.Outcome.next h, fun _ _ hr hc => framePixel_withFrameRows s f hr hc,
    fun _ ha => read_withFrameRows_outside s f ha⟩

end Core

/-- Settles O46: the rows written are those of `weavePixel`. -/
theorem weaveInterleavesTheFields : Obligations.WeaveInterleavesTheFields := by
  intro s h0 h1
  obtain ⟨m, hexec, hrows, hkept⟩ := exec_deinterlaceCore_rows (deinterlaceCore_of_both h0 h1)
  refine ⟨m, hexec, fun i c hi hc => ⟨?even, ?odd⟩, hkept⟩
  case even => rw [hrows _ _ (by omega) hc, weavePixel_even]
  case odd => rw [hrows _ _ (by omega) hc, weavePixel_odd]

/-- Settles O47: the rows written are those of `bobZeroPixel`. -/
theorem bobFromFieldZeroAverages : Obligations.BobFromFieldZeroAverages := by
  intro s h0 h1
  obtain ⟨m, hexec, hrows, hkept⟩ := exec_deinterlaceCore_rows (deinterlaceCore_of_zero h0 h1)
  refine ⟨m, hexec, fun i c hi hc => ⟨?even, fun hinner => ?between, fun hlast => ?last⟩, hkept⟩
  case even => rw [hrows _ _ (by omega) hc, bobZeroPixel_even]
  case between => rw [hrows _ _ (by omega) hc, bobZeroPixel_odd, if_pos hinner, averagePixel_toNat]
  case last => rw [hrows _ _ (by omega) hc, bobZeroPixel_odd, if_neg hlast.not_lt]

/-- Settles O48: the rows written are those of `bobOnePixel`; with neither field ready there are none. -/
theorem bobFromFieldOneAverages : Obligations.BobFromFieldOneAverages := by
  intro s h0
  refine ⟨fun h1 => ?ready, fun h1 => congrArg Host.Outcome.next (deinterlaceCore_of_neither h0 h1)⟩
  obtain ⟨m, hexec, hrows, hkept⟩ := exec_deinterlaceCore_rows (deinterlaceCore_of_one h0 h1)
  refine ⟨m, hexec, fun i c hi hc => ⟨?odd, fun hinner => ?between, fun hfirst => ?first⟩, hkept⟩
  case odd => rw [hrows _ _ (by omega) hc, bobOnePixel_odd]
  case between => rw [hrows _ _ (by omega) hc, bobOnePixel_even, if_pos hinner, averagePixel_toNat]
  case first => rw [hrows _ _ (by omega) hc]; exact bobOnePixel_even s 0 c

/-! ## DISPLAY_COPY (R235) -/

/-- A copied row of the display buffer is the frame's. -/
theorem displayPixel_displayCopy {r c : Nat} (hr : r < s.geom.frameHeight) (hc : c < 720) :
    (displayCopy s).displayPixel r c = s.framePixel r c := by
  simp only [State.displayPixel, State.framePixel, displayCopy, Config.frameWidth, Memory.read_fill]
  rw [if_pos (by omega), Nat.add_assoc displayBase, Nat.add_sub_cancel_left, Nat.add_assoc]

theorem read_displayCopy_outside {a : Nat}
    (h : ¬ (displayBase ≤ a ∧ a < displayBase + s.geom.frameHeight * 720)) :
    (displayCopy s).display.read a = s.display.read a := by
  simp only [displayCopy, Config.frameWidth, Memory.read_fill, if_neg h]

/-- A generation counter wraps (10_state.md R32). -/
theorem counter_succ (n : Counter) : n + 1 = BitVec.ofNat 32 ((n.toNat + 1) % 2 ^ 32) := by
  apply BitVec.eq_of_toNat_eq
  simp [BitVec.toNat_add]

/-- Settles O49: the copy is one fill of the display buffer, and the generation wraps. -/
theorem displayCopyPublishesTheFrame : Obligations.DisplayCopyPublishesTheFrame := by
  intro s
  refine ⟨(displayCopy s).display, ?_, fun r c hr hc => displayPixel_displayCopy s hr hc,
    fun a ha => read_displayCopy_outside s ha⟩
  rw [← counter_succ]
  rfl

/-! ## START_NEW_FIELD (R230, R231) -/

theorem other_eq_ite (b : FieldId) : b.other = if b = .zero then .one else .zero := by cases b <;> rfl

/-- Both flags are written, one of them with what it was. -/
theorem markReady_eq (b : FieldId) : markReady b s = { s with
    asm := { s.asm with
      ready0 := if b = .zero then true else s.asm.ready0
      ready1 := if b = .one then true else s.asm.ready1 } } := by
  cases b <;> rfl

theorem countFrame_eq : countFrame s = { s with
    diag := { s.diag with
      framesDecoded := if s.asm.ready0 = true ∧ s.asm.ready1 = true
        then BitVec.ofNat 32 (sat32 (s.diag.framesDecoded.toNat + 1)) else s.diag.framesDecoded } } := by
  simp only [countFrame, Bool.and_eq_true, ← satSucc_eq]
  split <;> rfl

/-- The start of the next field, once the finished one is assembled or discarded. -/
theorem startNewField_eq : startNewField s =
    { levelCommit (if s.fieldAccepted then assembleField s else s) with
      lines := { currentLine := 0, linesDecoded := 0
                 currentField := if s.lines.currentField = .zero then .one else .zero } } := by
  have hfield : (if s.fieldAccepted then assembleField s else s).lines = s.lines := by split <;> simp
  rw [startNewField, ← other_eq_ite]
  simp only [levelCommit_frame, hfield]

/-- Settles O50, by whether the field has half its lines. -/
theorem newFieldAssemblesOrDiscards : Obligations.NewFieldAssemblesOrDiscards := by
  intro s cf begun
  refine ⟨fun hfew => ?discarded, fun henough => ?assembled⟩
  case discarded =>
    have hrejected : ¬ s.fieldAccepted = true := by simpa [State.fieldAccepted] using hfew
    refine ⟨levelCommit s, rfl, congrArg Host.Outcome.next ?_⟩
    rw [startNewField_eq, if_neg hrejected]
  case assembled =>
    have haccepted : s.fieldAccepted = true := decide_eq_true henough
    let a := deinterlaceCore (markReady cf s)
    have hframes : (displayCopy a).diag = s.diag := by simp [a]
    refine ⟨a, displayCopy a, levelCommit (assembleField s), ?_, rfl, ?_, congrArg Host.Outcome.next ?_⟩
    · rw [← markReady_eq]
      rfl
    · rw [← hframes]
      exact congrArg (fun t => Host.Outcome.next (levelCommit t)) (countFrame_eq (displayCopy a)).symm
    · rw [startNewField_eq, if_pos haccepted]

end Sys2Proof.Machine
end

section
/-! PROOFS. The host commands and the format state machine (48_host_commands.md R251 to R257), the interrupt level
(60_exceptions.md R287), and the reset state (70_reset_and_hazards.md R300). -/

namespace Sys2Proof.Machine

variable (s : State)

/-! ## NOP, ACK and SET_FIELD_READY (R253, R254, R256) -/

theorem ackFlags_eq (d e : Bool) : ackFlags d e s = { s with
    asm := { s.asm with displayReady := if d then false else s.asm.displayReady }
    host := { s.host with busErr := if e then false else s.host.busErr } } := by
  have hclear (flag clear : Bool) : (flag && !clear) = if clear then false else flag := by cases clear <;> simp
  simp only [ackFlags, hclear]

/-- Settles O16, command by command. -/
theorem flagCommandsWriteTheirFlags : Obligations.FlagCommandsWriteTheirFlags := by
  intro s b0 b1
  exact ⟨rfl, congrArg (fun t => Host.Outcome.next (setResult .ok t)) (ackFlags_eq s b0 b1), rfl⟩

/-! ## FORMAT_RESET and SET_FORMAT (R250, R251, R257) -/

/-- The power-on state but for what FORMAT_RESET keeps (R251). -/
theorem formatReset_eq : formatReset s = { State.powerOn s.chunk with
    format := s.format, diag := s.diag, host := s.host, asm := { Assembler.powerOn with displayGen := s.asm.displayGen }
    pending := s.pending, readData := s.readData, callPort := s.callPort, returned := s.returned } := rfl

theorem fieldPixel_formatReset (b : FieldId) (r c : Nat) : (formatReset s).fieldPixel b r c = 0 := by
  cases b <;> exact Memory.read_nil _

/-- Settles O21: the whole state is `formatReset_eq`, and an empty buffer reads 0. -/
theorem formatResetClearsTheDecoder : Obligations.FormatResetClearsTheDecoder :=
  fun s => ⟨formatReset s, rfl, formatReset_eq s, fieldPixel_formatReset s,
    fun _ _ => ⟨Memory.read_nil _, Memory.read_nil _⟩⟩

/-- The state in which SET_FORMAT leaves the block: nothing decoded, format `f` and the counters `d`. -/
def freshDecoder (f : Format) (d : Diagnostics) (s : State) : State :=
  setResult .ok (formatReset { s with format := f, diag := d })

theorem exec_setFormat_eq_freshDecoder {fmt : BitVec 2} (h : fmt ≠ 0) :
    exec (.setFormat fmt) s
      = .next (freshDecoder (formatOfCode fmt) (selectFormat (formatOfCode fmt) s).diag s) :=
  exec_setFormat_of_ne_zero s h

/-- What a fresh decoder was before does not matter. -/
theorem freshDecoder_freshDecoder (f g : Format) (d e : Diagnostics) :
    freshDecoder f d (freshDecoder g e s) = freshDecoder f d s := rfl

/-- Of what SET_FORMAT keeps, RESET takes the host interface and the generation count to 0. -/
theorem freshDecoder_resetBlock (f : Format) (d : Diagnostics) :
    freshDecoder f d (resetBlock s) =
      { freshDecoder f d s with
        host := HostInterface.powerOn
        asm := { (freshDecoder f d s).asm with displayGen := 0 } } := rfl

/-- Settles O24: each SET_FORMAT gives a fresh decoder, so both sides are the NTSC one but for what RESET clears. -/
theorem formatRoundTripLeavesAFreshDecoder : Obligations.FormatRoundTripLeavesAFreshDecoder := by
  intro s a b c r f ha hb hc hr hf
  rw [exec_setFormat_eq_freshDecoder _ (by decide)] at ha hb hc hf
  rw [exec_reset] at hr
  cases hr
  cases hf
  cases ha
  cases hb
  cases hc
  rw [freshDecoder_resetBlock, freshDecoder_freshDecoder, freshDecoder_freshDecoder]
  rfl

/-! ## DEINTERLACE (R255) -/

section Deinterlace

variable {s}

theorem deinterlace_of_unknown (h : s.format = .unknown) : deinterlace s = setResult .noFormat s := if_pos h

theorem deinterlace_of_neither (h : s.format ≠ .unknown) (h0 : s.asm.ready0 = false) (h1 : s.asm.ready1 = false) :
    deinterlace s = setResult .noField s := by
  rw [deinterlace, if_neg h, if_pos (by simp [h0, h1])]

theorem deinterlace_of_ready (h : s.format ≠ .unknown) (hready : s.asm.ready0 = true ∨ s.asm.ready1 = true) :
    deinterlace s = setResult .ok (displayCopy (deinterlaceCore s)) := by
  rw [deinterlace, if_neg h, if_neg (by rcases hready with h0 | h1 <;> simp [*])]

end Deinterlace

/-- Settles O23, check by check; the two operations leave the host interface to the command. -/
theorem deinterlaceCommandRunsTheDeinterlacer : Obligations.DeinterlaceCommandRunsTheDeinterlacer := by
  intro s
  have hhost : (displayCopy (deinterlaceCore s)).host = s.host := by simp
  refine ⟨fun hunknown => congrArg Host.Outcome.next (deinterlace_of_unknown hunknown),
    fun hformat h0 h1 => congrArg Host.Outcome.next (deinterlace_of_neither hformat h0 h1),
    fun hformat hready => ⟨_, _, rfl, rfl, ?_⟩⟩
  rw [← hhost]
  exact congrArg Host.Outcome.next (deinterlace_of_ready hformat hready)

/-! ## The interrupt (60_exceptions.md R287) -/

section Interrupt

variable {s}

theorem irq_iff : s.irq = true ↔ s.asm.displayReady = true ∧ s.host.irqEn = true := Bool.and_eq_true_iff

theorem irq_eq_false (h : s.asm.displayReady = false) : s.irq = false := by
  rw [State.irq, h, Bool.false_and]

end Interrupt

/-- Settles O15: each of the three clears writes `display_ready`. -/
theorem interruptIsLevelAndLoweredByItsClears : Obligations.InterruptIsLevelAndLoweredByItsClears := by
  intro s e fmt hfmt
  refine ⟨irq_iff, fun t ht => irq_eq_false ?_⟩
  rw [exec_setFormat_of_ne_zero s hfmt] at ht
  rcases ht with hack | hset | hreset
  · cases hack
    exact Bool.and_false _
  · cases hset
    rfl
  · cases hreset
    rfl

/-! ## The reset state (70_reset_and_hazards.md R300) -/

/-- Settles O54: FORMAT_RESET gives a sound state, and leaves the reset state as it is. -/
theorem resetStateIsSound : Obligations.ResetStateIsSound :=
  formatReset_sound (s := State.reset)
    ⟨⟨.nil, fun _ h => absurd h List.not_mem_nil⟩, fun _ h => absurd h List.not_mem_nil⟩ rfl

end Sys2Proof.Machine
end

section
/-! PROOFS. What a step can change of the format, the result and the diagnostic counters (48_host_commands.md R258,
R259; 60_exceptions.md R280). -/

namespace Sys2Proof.Machine

variable {s t : State}

/-! ## The diagnostic counters (10_state.md R33, 48_host_commands.md R258) -/

/-- No counter of the first record is above the second's. -/
structure Diagnostics.AtMost (d e : Diagnostics) : Prop where
  frames : d.framesDecoded.toNat ≤ e.framesDecoded.toNat
  errors : d.syncErrors.toNat ≤ e.syncErrors.toNat
  changes : d.formatChanges.toNat ≤ e.formatChanges.toNat

theorem Diagnostics.AtMost.of_eq {d e : Diagnostics} (h : e = d) : d.AtMost e := by
  subst h
  exact ⟨le_rfl, le_rfl, le_rfl⟩

theorem Diagnostics.AtMost.trans {d e f : Diagnostics} (hde : d.AtMost e) (hef : e.AtMost f) : d.AtMost f :=
  ⟨hde.frames.trans hef.frames, hde.errors.trans hef.errors, hde.changes.trans hef.changes⟩

theorem countFrame_diag (s : State) : s.diag.AtMost (countFrame s).diag := by
  unfold countFrame
  split
  · exact ⟨le_satSucc _, le_rfl, le_rfl⟩
  · exact .of_eq rfl

theorem assembleField_diag (s : State) : s.diag.AtMost (assembleField s).diag :=
  .trans (.of_eq (by simp)) (countFrame_diag (displayCopy (deinterlaceCore (markReady s.lines.currentField s))))

theorem startNewField_diag (s : State) : s.diag.AtMost (startNewField s).diag := by
  have hassembled : s.diag.AtMost (if s.fieldAccepted then assembleField s else s).diag := by
    split
    · exact assembleField_diag s
    · exact .of_eq rfl
  exact hassembled

theorem finishSample_diag (done above : Bool) (p : Position) (s : State) :
    s.diag.AtMost (finishSample done above p s).diag := by
  cases done with
  | true => exact startNewField_diag s
  | false => exact .of_eq rfl

theorem correctOnEvent_diag (valid : Bool) (s : State) : (correctOnEvent valid s).diag = s.diag := by
  cases valid <;> simp [correctOnEvent]

/-- Of the units of a sample only the start of a new field counts. -/
theorem sampleStep_diag (x : Sample) (s : State) : s.diag.AtMost (sampleStep x s).diag := by
  rw [sampleStep_eq]
  refine .trans (.of_eq ?_) (finishSample_diag _ _ _ _)
  simp [correctOnEvent_diag]

theorem sampleSteps_diag (xs : List Sample) (s : State) : s.diag.AtMost (sampleSteps xs s).diag := by
  induction xs generalizing s with
  | nil => exact .of_eq rfl
  | cons x xs ih => exact (sampleStep_diag x s).trans (ih (sampleStep x s))

theorem processSamples_diag (xs : List Sample) (s : State) : s.diag.AtMost (processSamples xs s).diag := by
  unfold processSamples
  split
  · exact ⟨le_rfl, le_satSucc _, le_rfl⟩
  · exact .trans (.of_eq (by simp)) (sampleSteps_diag xs (bootstrapOnce xs s))

theorem processBuffer_diag (count : Nat) (s : State) : s.diag.AtMost (processBuffer count s).diag := by
  unfold processBuffer
  split
  · exact .of_eq rfl
  · split
    · exact .of_eq rfl
    · split
      · exact .of_eq rfl
      · exact processSamples_diag _ s

theorem selectFormat_diag (f : Format) (s : State) : s.diag.AtMost (selectFormat f s).diag := by
  simp only [selectFormat]
  split
  · exact .of_eq rfl
  · exact ⟨le_rfl, le_rfl, le_satSucc _⟩

theorem setFormat_diag (fmt : BitVec 2) (s : State) : s.diag.AtMost (setFormat fmt s).diag := by
  unfold setFormat
  split
  · exact .of_eq rfl
  · exact selectFormat_diag _ s

theorem deinterlace_frame (s : State) : (deinterlace s).format = s.format ∧ (deinterlace s).diag = s.diag := by
  unfold deinterlace
  split
  · exact ⟨rfl, rfl⟩
  · split
    · exact ⟨rfl, rfl⟩
    · simp

/-- Every instruction but RESET keeps the counters or counts on. -/
theorem exec_diag {i : Instr} (hi : i ≠ .reset) (h : exec i s = .next t) : s.diag.AtMost t.diag := by
  cases i with
  | nop => cases h; exact .of_eq rfl
  | processBuffer count => cases h; exact processBuffer_diag _ s
  | setFormat fmt => cases h; exact setFormat_diag fmt s
  | reset => exact absurd rfl hi
  | ack d e => cases h; exact .of_eq rfl
  | deinterlace => cases h; exact .of_eq (deinterlace_frame s).2
  | setFieldReady r0 r1 => cases h; exact .of_eq rfl
  | sampleStep x => cases h; exact sampleStep_diag x s
  | lpFilter x => cases h; exact .of_eq rfl
  | edgeClassify y => cases h; exact .of_eq rfl
  | levelAccumulate y => cases h; exact .of_eq rfl
  | levelCommit => cases h; exact .of_eq rfl
  | levelBootstrap mn mx => cases h; exact .of_eq rfl
  | vsyncEdge fall p => cases h; exact .of_eq (by simp)
  | hsyncEdge fall rise p => cases h; exact .of_eq (by simp)
  | pllEvent => cases h; exact .of_eq (by simp)
  | phaseError => cases h; exact .of_eq rfl
  | lockUpdate => cases h; exact .of_eq rfl
  | pllCorrect => cases h; exact .of_eq rfl
  | pllAdvance => cases h; exact .of_eq (by simp)
  | lineBoundary => cases h; exact .of_eq (by simp)
  | lineAppend x => cases h; exact .of_eq (by simp)
  | lineDecode => cases h; exact .of_eq (by simp)
  | startNewField => cases h; exact startNewField_diag s
  | deinterlaceCore => cases h; exact .of_eq (by simp)
  | displayCopy => cases h; exact .of_eq rfl
  | formatReset => cases h; exact .of_eq rfl
  | levelDerive => cases h; exact .of_eq rfl

/-! ## The format and the host interface -/

/-- An internal operation writes neither the format nor the host interface (log entry 25). -/
theorem exec_call_frame {i : Instr} (hi : i.isCommand = false) (h : exec i s = .next t) :
    t.format = s.format ∧ t.host = s.host := by
  cases i with
  | nop | processBuffer | setFormat | reset | ack | deinterlace | setFieldReady => cases hi
  | sampleStep x => cases h; simp
  | lpFilter x => cases h; exact ⟨rfl, rfl⟩
  | edgeClassify y => cases h; exact ⟨rfl, rfl⟩
  | levelAccumulate y => cases h; exact ⟨rfl, rfl⟩
  | levelCommit => cases h; exact ⟨rfl, rfl⟩
  | levelBootstrap mn mx => cases h; exact ⟨rfl, rfl⟩
  | vsyncEdge fall p => cases h; simp
  | hsyncEdge fall rise p => cases h; simp
  | pllEvent => cases h; simp
  | phaseError => cases h; exact ⟨rfl, rfl⟩
  | lockUpdate => cases h; exact ⟨rfl, rfl⟩
  | pllCorrect => cases h; exact ⟨rfl, rfl⟩
  | pllAdvance => cases h; simp
  | lineBoundary => cases h; simp
  | lineAppend x => cases h; simp
  | lineDecode => cases h; simp
  | startNewField => cases h; simp
  | deinterlaceCore => cases h; simp
  | displayCopy => cases h; exact ⟨rfl, rfl⟩
  | formatReset => cases h; exact ⟨rfl, rfl⟩
  | levelDerive => cases h; exact ⟨rfl, rfl⟩

theorem processBuffer_format (count : Nat) (s : State) : (processBuffer count s).format = s.format := by
  unfold processBuffer
  split
  · rfl
  · split
    · rfl
    · split
      · rfl
      · unfold processSamples
        split <;> simp

/-- What a host command can do to the format (48_host_commands.md R259). -/
inductive FormatEffect (i : Instr) (s t : State) : Prop
  | kept (h : t.format = s.format)
  | selected (fmt : BitVec 2) (hi : i = .setFormat fmt) (hfmt : fmt ≠ 0) (h : t.format = formatOfCode fmt)
  | cleared (hi : i = .reset) (h : t.format = .unknown)

theorem exec_formatEffect {i : Instr} (hi : i.isCommand = true) (h : exec i s = .next t) : FormatEffect i s t := by
  cases i with
  | nop => cases h; exact .kept rfl
  | processBuffer count => cases h; exact .kept (processBuffer_format _ s)
  | setFormat fmt =>
    by_cases hfmt : fmt = 0
    · subst hfmt
      cases h
      exact .kept rfl
    · rw [exec_setFormat_of_ne_zero s hfmt] at h
      cases h
      exact .selected fmt rfl hfmt rfl
  | reset => cases h; exact .cleared rfl rfl
  | ack d e => cases h; exact .kept rfl
  | deinterlace => cases h; exact .kept (deinterlace_frame s).1
  | setFieldReady r0 r1 => cases h; exact .kept rfl
  | _ => cases hi

/-! ## Command words with one decoding (30_encoding.md R92, R93) -/

/-- Only the word 0x03000000 is RESET. -/
theorem eq_of_decodeCommand_reset {w : Word} (h : decodeCommand w = .ok .reset) : w = 0x03000000#32 := by
  have hfits : w &&& BitVec.allOnes 32 = 0x03000000#32 := decodeCommand_fits h
  rwa [BitVec.and_allOnes] at hfits

/-- A word whose reserved bits are clear is its opcode and its two-bit operand. -/
theorem eq_twoBitCommand {w : Word} (h : reservedAboveTwo w = 0) :
    w = twoBitCommand (opcodeOf w) (w.extractLsb' 0 2) := by
  have hoperand : reservedAboveTwo w ++ w.extractLsb' 0 2 = operandOf w := extract_append_extract w 0 22 2
  rw [h] at hoperand
  exact (opcode_append_operand w).symm.trans (congrArg (opcodeOf w ++ ·) hoperand.symm)

theorem twoBitCommand_setFormat (fmt : BitVec 2) : twoBitCommand 0x02#8 fmt = 0x02000000#32 ||| fmt.setWidth 32 := by
  revert fmt
  decide

/-- Only one word is SET_FORMAT of a code. -/
theorem eq_of_decodeCommand_setFormat {w : Word} {fmt : BitVec 2} (h : decodeCommand w = .ok (.setFormat fmt)) :
    w = 0x02000000#32 ||| fmt.setWidth 32 := by
  obtain ⟨hopcode, hreserved⟩ := and_reservedMask_eq_iff (o := 0x02#8).1 (decodeCommand_fits h)
  rw [decodeCommand_setFormat hopcode, whenReservedClear_of_eq_zero hreserved] at h
  cases h
  rw [← twoBitCommand_setFormat, ← hopcode]
  exact eq_twoBitCommand hreserved

theorem formatCode_formatOfCode (fmt : BitVec 2) : formatCode (formatOfCode fmt) = fmt := by
  revert fmt
  decide

theorem formatOfCode_ne_unknown {fmt : BitVec 2} (h : fmt ≠ 0) : formatOfCode fmt ≠ .unknown := by
  revert fmt
  decide

/-! ## Every step -/

/-- What a step can be to the format, the result and the counters: it keeps them, or it runs an internal operation by
itself, or it serves a CMD write, whose word is rejected or run. -/
inductive StepEffect (s t : State) : Prop
  | kept (hformat : t.format = s.format) (hresult : t.host.result = s.host.result) (hdiag : t.diag = s.diag)
  | call (i : Instr) (hi : i.isCommand = false) (h : exec i { s with callPort := [] } = .next t)
  | rejected (w : Word) (rest : List BusAccess) (r : Result) (hc : s.callPort = [])
      (hp : s.pending = commandWrite w :: rest) (h : t = setResult r { s with pending := rest })
  | command (w : Word) (rest : List BusAccess) (i : Instr) (hc : s.callPort = [])
      (hp : s.pending = commandWrite w :: rest) (hd : decodeCommand w = .ok i)
      (h : exec i { s with pending := rest } = .next t)

theorem writeRegister_frame (o : Nat) (v : Word) (s : State) :
    (writeRegister o v s).format = s.format ∧ (writeRegister o v s).host.result = s.host.result
    ∧ (writeRegister o v s).diag = s.diag := by
  unfold writeRegister
  split <;> exact ⟨rfl, rfl, rfl⟩

theorem step_effect (h : step s = .next t) : StepEffect s t := by
  cases step_cases h with
  | idle hc hp ht => subst ht; exact .kept rfl rfl rfl
  | called w ops i hc hd ht => exact .call i (decodeCall_isCall hd) ht
  | served a rest hc hp hserved =>
    cases hserved with
    | answered v ht => subst ht; exact .kept rfl rfl rfl
    | unanswered v ht => subst ht; exact .kept rfl rfl rfl
    | discarded ht => subst ht; exact .kept rfl rfl rfl
    | register o v ho ht =>
      obtain ⟨hformat, hresult, hdiag⟩ := writeRegister_frame o v { s with pending := rest }
      subst ht
      exact .kept hformat hresult hdiag
    | chunk addr v ha hw ht => subst ht; exact .kept rfl rfl rfl
    | field b addr v ha hw ht => subst ht; cases b <;> exact .kept rfl rfl rfl
    | rejected w r ha hr ht => subst ha; exact .rejected w rest r hc hp ht
    | command w i ha hd ht => subst ha; exact .command w rest i hc hp hd ht

/-- Settles O55: an instruction that is not RESET keeps the counters or counts on, and RESET is one word. -/
theorem diagnosticCountersNeverDecrease : Obligations.DiagnosticCountersNeverDecrease := by
  intro s t hstep hnotReset
  have hcounted : s.diag.AtMost t.diag := by
    cases step_effect hstep with
    | kept hformat hresult hdiag => exact .of_eq hdiag
    | call i hi h => exact exec_diag (s := { s with callPort := [] }) (by rintro rfl; cases hi) h
    | rejected w rest r hc hp h => subst h; exact .of_eq rfl
    | command w rest i hc hp hd h =>
      refine exec_diag (s := { s with pending := rest }) ?_ h
      rintro rfl
      exact hnotReset hc rest (eq_of_decodeCommand_reset hd ▸ hp)
  exact ⟨hcounted.frames, hcounted.errors, hcounted.changes⟩

/-- Settles O56: of the host commands SET_FORMAT and RESET alone write the format, and each command word is one word. -/
theorem onlySetFormatAndResetChangeTheFormat : Obligations.OnlySetFormatAndResetChangeTheFormat := by
  intro s t hstep hchanged
  cases step_effect hstep with
  | kept hformat hresult hdiag => exact absurd hformat hchanged
  | call i hi h => exact absurd (exec_call_frame hi h).1 hchanged
  | rejected w rest r hc hp h => subst h; exact absurd rfl hchanged
  | command w rest i hc hp hd h =>
    refine ⟨hc, rest, ?_⟩
    cases exec_formatEffect (decodeCommand_isCommand hd) h with
    | kept hformat => exact absurd hformat hchanged
    | selected fmt hi hfmt hformat =>
      subst hi
      rw [hformat, formatCode_formatOfCode, ← eq_of_decodeCommand_setFormat hd]
      exact .inr ⟨formatOfCode_ne_unknown hfmt, hp⟩
    | cleared hi hformat =>
      subst hi
      exact .inl ⟨hformat, eq_of_decodeCommand_reset hd ▸ hp⟩

/-- Settles O57: an internal operation leaves the host interface alone, and no other access than a CMD write gives a
result. -/
theorem onlyCommandsChangeTheResult : Obligations.OnlyCommandsChangeTheResult := by
  intro s t hstep hchanged
  cases step_effect hstep with
  | kept hformat hresult hdiag => exact absurd hresult hchanged
  | call i hi h => exact absurd (congrArg HostInterface.result (exec_call_frame hi h).2) hchanged
  | rejected w rest r hc hp h => exact ⟨hc, w, rest, hp⟩
  | command w rest i hc hp hd h => exact ⟨hc, w, rest, hp⟩

end Sys2Proof.Machine
end
